-- ==== Sys2Proof/Word.lean ====
section
/-! DEFINITION. The word types of Our ARM (spec 00_scope.md R8, R10). -/

namespace Sys2Proof

/-- The only data type of the processor: 32 bits, bit 0 the least significant (R8, R10). -/
abbrev Word := BitVec 32

/-- One byte of memory. -/
abbrev Byte := BitVec 8

/-- A register number as an instruction writes it, 0 to 15. -/
abbrev Reg := BitVec 4

/-- Bits [31:2] of a 4-byte aligned byte address (R42, R60): one value for each word of memory. -/
abbrev WordAddr := BitVec 30

end Sys2Proof
end

