-- ==== Sys2Proof/Config.lean ====
section
/-! DEFINITION. What an implementation fixes, and the free values (spec 92_eei_decisions.md). -/

namespace Sys2Proof

/-- The order of the four bytes of a word in memory: parameter `BYTE_ORDER` (20_memory.md R61). -/
inductive ByteOrder where
  | little
  | big
deriving DecidableEq, Repr

/-- DESIGN CHOICE (log 1), safe: no program can observe it, since only aligned words move (R61). -/
def Config.byteOrder : ByteOrder := .little

/-- The spec's `draw` (00_scope.md R11): the k-th value under no law. It has no body, so nothing can be
proved of it; `State.draws` counts how many have been used. Log 3, 4, 6 and 19. -/
opaque Config.draw : Nat → Word

/-- `PC_STORE_OFFSET` in words (92_eei_decisions.md D14): what STR and STM store for R15, as an offset
from the instruction's address. An open parameter, so a constant without a body; a whole number of
words, because bits [1:0] of R15 read as zero (10_state.md R28). Log 7. -/
opaque Config.pcStoreWords : WordAddr

/-- `PC_STORE_OFFSET` in bytes. -/
def Config.pcStoreOffset : Word := Config.pcStoreWords ++ 0#2

/-- `COPROCESSORS`: the empty set (92_eei_decisions.md D9). Log 8. -/
def Config.coprocessors : List (BitVec 4) := []

end Sys2Proof
end

