-- ==== Sys2Proof/Syntax.lean ====
section
/-! DEFINITION. The instructions of Our ARM: one constructor of `Instr` for each row of
spec/opcode_table.json, with every field the row's encoding has (30_encoding.md R92 to R107). -/

namespace Sys2Proof

/-- The condition field (30_encoding.md R95). Code 1111 is no condition: R96 refuses it at decode. -/
inductive Cond where
  | eq | ne | cs | cc | mi | pl | vs | vc | hi | ls | ge | lt | gt | le | al
deriving DecidableEq, Repr

/-- The shift types of 30_encoding.md R103, codes 00, 01, 10, 11. -/
inductive ShiftType where
  | lsl | lsr | asr | ror
deriving DecidableEq, Repr

/-- A rotated 8-bit immediate (R102): `rotate = w[11:8]`, `imm8 = w[7:0]`. -/
structure ImmOp where
  rotate : BitVec 4
  imm8 : BitVec 8
deriving DecidableEq, Repr

/-- A register shifted by an immediate amount (R103, R104): `w[11:7]`, `w[6:5]`, `w[3:0]`. -/
structure ShImm where
  amount : BitVec 5
  type : ShiftType
  rm : Reg
deriving DecidableEq, Repr

/-- A register shifted by the low byte of a register (R103): `w[11:8]`, `w[6:5]`, `w[3:0]`. -/
structure ShReg where
  rs : Reg
  type : ShiftType
  rm : Reg
deriving DecidableEq, Repr

/-- The three forms of a data-processing instruction's second operand (R92). -/
inductive Operand2 where
  | imm (o : ImmOp)
  | shImm (o : ShImm)
  | shReg (o : ShReg)
deriving DecidableEq, Repr

/-- The sixteen data-processing operations (R92), in the order of their opcodes. -/
inductive DpOp where
  | and | eor | sub | rsb | add | adc | sbc | rsc | tst | teq | cmp | cmn | orr | mov | bic | mvn
deriving DecidableEq, Repr

/-- The bits P, U and W of a single data transfer (R94): pre-indexed, up, write back. -/
structure Index where
  p : Bool
  u : Bool
  w : Bool
deriving DecidableEq, Repr

/-- The bits P, U, S and W of a block data transfer (R97). -/
structure BlockMode where
  p : Bool
  u : Bool
  s : Bool
  w : Bool
deriving DecidableEq, Repr

/-- The bits P, U, N and W of a coprocessor data transfer (R101), which the processor does not interpret. -/
structure CopIndex where
  p : Bool
  u : Bool
  n : Bool
  w : Bool
deriving DecidableEq, Repr

/-- The instruction set. `c` is the condition, `sb` the S bit; a field the processor ignores (Rn of MOV
and MVN, Rd of the compares, R110; the SWI comment, R210) is kept, so that no bit of a word is lost. -/
inductive Instr where
  /-- AND, rotated immediate (41_data_processing.md R147). -/
  | andImm (c : Cond) (sb : Bool) (rn rd : Reg) (o : ImmOp)
  /-- AND, register shifted by an immediate (41_data_processing.md R147). -/
  | andShImm (c : Cond) (sb : Bool) (rn rd : Reg) (o : ShImm)
  /-- AND, register shifted by a register (41_data_processing.md R147). -/
  | andShReg (c : Cond) (sb : Bool) (rn rd : Reg) (o : ShReg)
  /-- EOR, rotated immediate (41_data_processing.md R148). -/
  | eorImm (c : Cond) (sb : Bool) (rn rd : Reg) (o : ImmOp)
  /-- EOR, register shifted by an immediate (41_data_processing.md R148). -/
  | eorShImm (c : Cond) (sb : Bool) (rn rd : Reg) (o : ShImm)
  /-- EOR, register shifted by a register (41_data_processing.md R148). -/
  | eorShReg (c : Cond) (sb : Bool) (rn rd : Reg) (o : ShReg)
  /-- SUB, rotated immediate (41_data_processing.md R149). -/
  | subImm (c : Cond) (sb : Bool) (rn rd : Reg) (o : ImmOp)
  /-- SUB, register shifted by an immediate (41_data_processing.md R149). -/
  | subShImm (c : Cond) (sb : Bool) (rn rd : Reg) (o : ShImm)
  /-- SUB, register shifted by a register (41_data_processing.md R149). -/
  | subShReg (c : Cond) (sb : Bool) (rn rd : Reg) (o : ShReg)
  /-- RSB, rotated immediate (41_data_processing.md R150). -/
  | rsbImm (c : Cond) (sb : Bool) (rn rd : Reg) (o : ImmOp)
  /-- RSB, register shifted by an immediate (41_data_processing.md R150). -/
  | rsbShImm (c : Cond) (sb : Bool) (rn rd : Reg) (o : ShImm)
  /-- RSB, register shifted by a register (41_data_processing.md R150). -/
  | rsbShReg (c : Cond) (sb : Bool) (rn rd : Reg) (o : ShReg)
  /-- ADD, rotated immediate (41_data_processing.md R151). -/
  | addImm (c : Cond) (sb : Bool) (rn rd : Reg) (o : ImmOp)
  /-- ADD, register shifted by an immediate (41_data_processing.md R151). -/
  | addShImm (c : Cond) (sb : Bool) (rn rd : Reg) (o : ShImm)
  /-- ADD, register shifted by a register (41_data_processing.md R151). -/
  | addShReg (c : Cond) (sb : Bool) (rn rd : Reg) (o : ShReg)
  /-- ADC, rotated immediate (41_data_processing.md R152). -/
  | adcImm (c : Cond) (sb : Bool) (rn rd : Reg) (o : ImmOp)
  /-- ADC, register shifted by an immediate (41_data_processing.md R152). -/
  | adcShImm (c : Cond) (sb : Bool) (rn rd : Reg) (o : ShImm)
  /-- ADC, register shifted by a register (41_data_processing.md R152). -/
  | adcShReg (c : Cond) (sb : Bool) (rn rd : Reg) (o : ShReg)
  /-- SBC, rotated immediate (41_data_processing.md R153). -/
  | sbcImm (c : Cond) (sb : Bool) (rn rd : Reg) (o : ImmOp)
  /-- SBC, register shifted by an immediate (41_data_processing.md R153). -/
  | sbcShImm (c : Cond) (sb : Bool) (rn rd : Reg) (o : ShImm)
  /-- SBC, register shifted by a register (41_data_processing.md R153). -/
  | sbcShReg (c : Cond) (sb : Bool) (rn rd : Reg) (o : ShReg)
  /-- RSC, rotated immediate (41_data_processing.md R154). -/
  | rscImm (c : Cond) (sb : Bool) (rn rd : Reg) (o : ImmOp)
  /-- RSC, register shifted by an immediate (41_data_processing.md R154). -/
  | rscShImm (c : Cond) (sb : Bool) (rn rd : Reg) (o : ShImm)
  /-- RSC, register shifted by a register (41_data_processing.md R154). -/
  | rscShReg (c : Cond) (sb : Bool) (rn rd : Reg) (o : ShReg)
  /-- TST, rotated immediate (41_data_processing.md R155). -/
  | tstImm (c : Cond) (rn rd : Reg) (o : ImmOp)
  /-- TST, register shifted by an immediate (41_data_processing.md R155). -/
  | tstShImm (c : Cond) (rn rd : Reg) (o : ShImm)
  /-- TST, register shifted by a register (41_data_processing.md R155). -/
  | tstShReg (c : Cond) (rn rd : Reg) (o : ShReg)
  /-- TEQ, rotated immediate (41_data_processing.md R156). -/
  | teqImm (c : Cond) (rn rd : Reg) (o : ImmOp)
  /-- TEQ, register shifted by an immediate (41_data_processing.md R156). -/
  | teqShImm (c : Cond) (rn rd : Reg) (o : ShImm)
  /-- TEQ, register shifted by a register (41_data_processing.md R156). -/
  | teqShReg (c : Cond) (rn rd : Reg) (o : ShReg)
  /-- CMP, rotated immediate (41_data_processing.md R157). -/
  | cmpImm (c : Cond) (rn rd : Reg) (o : ImmOp)
  /-- CMP, register shifted by an immediate (41_data_processing.md R157). -/
  | cmpShImm (c : Cond) (rn rd : Reg) (o : ShImm)
  /-- CMP, register shifted by a register (41_data_processing.md R157). -/
  | cmpShReg (c : Cond) (rn rd : Reg) (o : ShReg)
  /-- CMN, rotated immediate (41_data_processing.md R158). -/
  | cmnImm (c : Cond) (rn rd : Reg) (o : ImmOp)
  /-- CMN, register shifted by an immediate (41_data_processing.md R158). -/
  | cmnShImm (c : Cond) (rn rd : Reg) (o : ShImm)
  /-- CMN, register shifted by a register (41_data_processing.md R158). -/
  | cmnShReg (c : Cond) (rn rd : Reg) (o : ShReg)
  /-- ORR, rotated immediate (41_data_processing.md R159). -/
  | orrImm (c : Cond) (sb : Bool) (rn rd : Reg) (o : ImmOp)
  /-- ORR, register shifted by an immediate (41_data_processing.md R159). -/
  | orrShImm (c : Cond) (sb : Bool) (rn rd : Reg) (o : ShImm)
  /-- ORR, register shifted by a register (41_data_processing.md R159). -/
  | orrShReg (c : Cond) (sb : Bool) (rn rd : Reg) (o : ShReg)
  /-- MOV, rotated immediate (41_data_processing.md R160). -/
  | movImm (c : Cond) (sb : Bool) (rn rd : Reg) (o : ImmOp)
  /-- MOV, register shifted by an immediate (41_data_processing.md R160). -/
  | movShImm (c : Cond) (sb : Bool) (rn rd : Reg) (o : ShImm)
  /-- MOV, register shifted by a register (41_data_processing.md R160). -/
  | movShReg (c : Cond) (sb : Bool) (rn rd : Reg) (o : ShReg)
  /-- BIC, rotated immediate (41_data_processing.md R161). -/
  | bicImm (c : Cond) (sb : Bool) (rn rd : Reg) (o : ImmOp)
  /-- BIC, register shifted by an immediate (41_data_processing.md R161). -/
  | bicShImm (c : Cond) (sb : Bool) (rn rd : Reg) (o : ShImm)
  /-- BIC, register shifted by a register (41_data_processing.md R161). -/
  | bicShReg (c : Cond) (sb : Bool) (rn rd : Reg) (o : ShReg)
  /-- MVN, rotated immediate (41_data_processing.md R162). -/
  | mvnImm (c : Cond) (sb : Bool) (rn rd : Reg) (o : ImmOp)
  /-- MVN, register shifted by an immediate (41_data_processing.md R162). -/
  | mvnShImm (c : Cond) (sb : Bool) (rn rd : Reg) (o : ShImm)
  /-- MVN, register shifted by a register (41_data_processing.md R162). -/
  | mvnShReg (c : Cond) (sb : Bool) (rn rd : Reg) (o : ShReg)
  /-- MRS (42_psr_transfer.md R180); `p` selects the SPSR. -/
  | mrs (c : Cond) (p : Bool) (rd : Reg)
  /-- MSR, register to whole PSR (R181). -/
  | msrAll (c : Cond) (p : Bool) (rm : Reg)
  /-- MSR, register to flag field (R182). -/
  | msrFlgReg (c : Cond) (p : Bool) (rm : Reg)
  /-- MSR, immediate to flag field (R183). -/
  | msrFlgImm (c : Cond) (p : Bool) (o : ImmOp)
  /-- LDR with an immediate offset (43_single_data_transfer.md R192). -/
  | ldrImm (c : Cond) (ix : Index) (rn rd : Reg) (imm : BitVec 12)
  /-- LDR with a register offset (R192). -/
  | ldrReg (c : Cond) (ix : Index) (rn rd : Reg) (o : ShImm)
  /-- STR with an immediate offset (R193). -/
  | strImm (c : Cond) (ix : Index) (rn rd : Reg) (imm : BitVec 12)
  /-- STR with a register offset (R193). -/
  | strReg (c : Cond) (ix : Index) (rn rd : Reg) (o : ShImm)
  /-- LDM (44_block_data_transfer.md R201, R203, R204). -/
  | ldm (c : Cond) (bm : BlockMode) (rn : Reg) (list : BitVec 16)
  /-- STM (R202, R205). -/
  | stm (c : Cond) (bm : BlockMode) (rn : Reg) (list : BitVec 16)
  /-- B (40_branch.md R130). -/
  | b (c : Cond) (off : BitVec 24)
  /-- BL (R131). -/
  | bl (c : Cond) (off : BitVec 24)
  /-- SWI (45_swi_coprocessor_undefined.md R210). -/
  | swi (c : Cond) (comment : BitVec 24)
  /-- The architecturally undefined space (R211): `hi = w[24:5]`, `lo = w[3:0]`. -/
  | undef (c : Cond) (hi : BitVec 20) (lo : BitVec 4)
  /-- CDP (R212). -/
  | cdp (c : Cond) (opc : BitVec 4) (crn crd cp : BitVec 4) (info : BitVec 3) (crm : BitVec 4)
  /-- LDC (R213). -/
  | ldc (c : Cond) (ix : CopIndex) (rn : Reg) (crd cp : BitVec 4) (off : BitVec 8)
  /-- STC (R214). -/
  | stc (c : Cond) (ix : CopIndex) (rn : Reg) (crd cp : BitVec 4) (off : BitVec 8)
  /-- MRC (R215). -/
  | mrc (c : Cond) (opc : BitVec 3) (crn : BitVec 4) (rd : Reg) (cp : BitVec 4) (info : BitVec 3) (crm : BitVec 4)
  /-- MCR (R216). -/
  | mcr (c : Cond) (opc : BitVec 3) (crn : BitVec 4) (rd : Reg) (cp : BitVec 4) (info : BitVec 3) (crm : BitVec 4)
deriving DecidableEq, Repr

/-- The data-processing instruction of an operation and an operand form; the compares have no S field
(it is 1, R92), so `sb` is not used for them. -/
def Instr.dp (op : DpOp) (c : Cond) (sb : Bool) (rn rd : Reg) (o2 : Operand2) : Instr :=
  match op, o2 with
  | .and, .imm o => .andImm c sb rn rd o
  | .and, .shImm o => .andShImm c sb rn rd o
  | .and, .shReg o => .andShReg c sb rn rd o
  | .eor, .imm o => .eorImm c sb rn rd o
  | .eor, .shImm o => .eorShImm c sb rn rd o
  | .eor, .shReg o => .eorShReg c sb rn rd o
  | .sub, .imm o => .subImm c sb rn rd o
  | .sub, .shImm o => .subShImm c sb rn rd o
  | .sub, .shReg o => .subShReg c sb rn rd o
  | .rsb, .imm o => .rsbImm c sb rn rd o
  | .rsb, .shImm o => .rsbShImm c sb rn rd o
  | .rsb, .shReg o => .rsbShReg c sb rn rd o
  | .add, .imm o => .addImm c sb rn rd o
  | .add, .shImm o => .addShImm c sb rn rd o
  | .add, .shReg o => .addShReg c sb rn rd o
  | .adc, .imm o => .adcImm c sb rn rd o
  | .adc, .shImm o => .adcShImm c sb rn rd o
  | .adc, .shReg o => .adcShReg c sb rn rd o
  | .sbc, .imm o => .sbcImm c sb rn rd o
  | .sbc, .shImm o => .sbcShImm c sb rn rd o
  | .sbc, .shReg o => .sbcShReg c sb rn rd o
  | .rsc, .imm o => .rscImm c sb rn rd o
  | .rsc, .shImm o => .rscShImm c sb rn rd o
  | .rsc, .shReg o => .rscShReg c sb rn rd o
  | .tst, .imm o => .tstImm c rn rd o
  | .tst, .shImm o => .tstShImm c rn rd o
  | .tst, .shReg o => .tstShReg c rn rd o
  | .teq, .imm o => .teqImm c rn rd o
  | .teq, .shImm o => .teqShImm c rn rd o
  | .teq, .shReg o => .teqShReg c rn rd o
  | .cmp, .imm o => .cmpImm c rn rd o
  | .cmp, .shImm o => .cmpShImm c rn rd o
  | .cmp, .shReg o => .cmpShReg c rn rd o
  | .cmn, .imm o => .cmnImm c rn rd o
  | .cmn, .shImm o => .cmnShImm c rn rd o
  | .cmn, .shReg o => .cmnShReg c rn rd o
  | .orr, .imm o => .orrImm c sb rn rd o
  | .orr, .shImm o => .orrShImm c sb rn rd o
  | .orr, .shReg o => .orrShReg c sb rn rd o
  | .mov, .imm o => .movImm c sb rn rd o
  | .mov, .shImm o => .movShImm c sb rn rd o
  | .mov, .shReg o => .movShReg c sb rn rd o
  | .bic, .imm o => .bicImm c sb rn rd o
  | .bic, .shImm o => .bicShImm c sb rn rd o
  | .bic, .shReg o => .bicShReg c sb rn rd o
  | .mvn, .imm o => .mvnImm c sb rn rd o
  | .mvn, .shImm o => .mvnShImm c sb rn rd o
  | .mvn, .shReg o => .mvnShReg c sb rn rd o

/-- The condition field of an instruction (R95). -/
def Instr.cond : Instr → Cond
  | .andImm c _ _ _ _ => c
  | .andShImm c _ _ _ _ => c
  | .andShReg c _ _ _ _ => c
  | .eorImm c _ _ _ _ => c
  | .eorShImm c _ _ _ _ => c
  | .eorShReg c _ _ _ _ => c
  | .subImm c _ _ _ _ => c
  | .subShImm c _ _ _ _ => c
  | .subShReg c _ _ _ _ => c
  | .rsbImm c _ _ _ _ => c
  | .rsbShImm c _ _ _ _ => c
  | .rsbShReg c _ _ _ _ => c
  | .addImm c _ _ _ _ => c
  | .addShImm c _ _ _ _ => c
  | .addShReg c _ _ _ _ => c
  | .adcImm c _ _ _ _ => c
  | .adcShImm c _ _ _ _ => c
  | .adcShReg c _ _ _ _ => c
  | .sbcImm c _ _ _ _ => c
  | .sbcShImm c _ _ _ _ => c
  | .sbcShReg c _ _ _ _ => c
  | .rscImm c _ _ _ _ => c
  | .rscShImm c _ _ _ _ => c
  | .rscShReg c _ _ _ _ => c
  | .tstImm c _ _ _ => c
  | .tstShImm c _ _ _ => c
  | .tstShReg c _ _ _ => c
  | .teqImm c _ _ _ => c
  | .teqShImm c _ _ _ => c
  | .teqShReg c _ _ _ => c
  | .cmpImm c _ _ _ => c
  | .cmpShImm c _ _ _ => c
  | .cmpShReg c _ _ _ => c
  | .cmnImm c _ _ _ => c
  | .cmnShImm c _ _ _ => c
  | .cmnShReg c _ _ _ => c
  | .orrImm c _ _ _ _ => c
  | .orrShImm c _ _ _ _ => c
  | .orrShReg c _ _ _ _ => c
  | .movImm c _ _ _ _ => c
  | .movShImm c _ _ _ _ => c
  | .movShReg c _ _ _ _ => c
  | .bicImm c _ _ _ _ => c
  | .bicShImm c _ _ _ _ => c
  | .bicShReg c _ _ _ _ => c
  | .mvnImm c _ _ _ _ => c
  | .mvnShImm c _ _ _ _ => c
  | .mvnShReg c _ _ _ _ => c
  | .mrs c _ _ => c
  | .msrAll c _ _ => c
  | .msrFlgReg c _ _ => c
  | .msrFlgImm c _ _ => c
  | .ldrImm c _ _ _ _ => c
  | .ldrReg c _ _ _ _ => c
  | .strImm c _ _ _ _ => c
  | .strReg c _ _ _ _ => c
  | .ldm c _ _ _ => c
  | .stm c _ _ _ => c
  | .b c _ => c
  | .bl c _ => c
  | .swi c _ => c
  | .undef c _ _ => c
  | .cdp c _ _ _ _ _ _ => c
  | .ldc c _ _ _ _ _ => c
  | .stc c _ _ _ _ _ => c
  | .mrc c _ _ _ _ _ _ => c
  | .mcr c _ _ _ _ _ _ => c

end Sys2Proof
end

