-- ==== Sys2Proof/Decode.lean ====
section
/-! DEFINITION. From bytes to an instruction or a named refusal (30_encoding.md R91, R96, R108), and the
encoder, both written from the formats of 30_encoding.md R92 to R106. -/

namespace Sys2Proof

/-- Why a word is no instruction of the admitted subset. Decoding it stops the model (safe: the machine
stops where the hardware may go on). -/
inductive DecodeError where
  /-- `cond = 1111` (R96). -/
  | conditionNV
  /-- Multiply, swap, halfword and signed transfers (R108). -/
  | multiplySwapHalfwordSpace
  /-- The PSR transfer space beyond the four encodings of R93 (R108). -/
  | psrSpaceOther
  /-- LDRB and STRB (R108). -/
  | byteTransfer
  /-- Fewer than the four bytes of an instruction (R90); only `decodeBytes` on a short list raises it. -/
  | truncated
deriving DecidableEq, Repr

/-! ### Fields -/

/-- The field `w[lo + len - 1 : lo]` of a word (00_scope.md R10). -/
def field (w : Word) (lo len : Nat) : BitVec len := w.extractLsb' lo len

/-- The bit `w[k]`. -/
def bit (w : Word) (k : Nat) : Bool := w.getLsbD k

/-- A one-bit field. -/
def flag (b : Bool) : BitVec 1 := BitVec.ofBool b

/-- The condition of a code; 1111 is none (R95, R96). -/
def Cond.ofCode (v : BitVec 4) : Option Cond :=
  match v.toNat with
  | 0 => some .eq | 1 => some .ne | 2 => some .cs | 3 => some .cc
  | 4 => some .mi | 5 => some .pl | 6 => some .vs | 7 => some .vc
  | 8 => some .hi | 9 => some .ls | 10 => some .ge | 11 => some .lt
  | 12 => some .gt | 13 => some .le | 14 => some .al | _ => none

/-- The code of a condition (R95). -/
def Cond.code : Cond → BitVec 4
  | .eq => 0 | .ne => 1 | .cs => 2 | .cc => 3 | .mi => 4 | .pl => 5 | .vs => 6 | .vc => 7
  | .hi => 8 | .ls => 9 | .ge => 10 | .lt => 11 | .gt => 12 | .le => 13 | .al => 14

/-- The shift type of a code (R103). -/
def ShiftType.ofCode (v : BitVec 2) : ShiftType :=
  match v.toNat with
  | 0 => .lsl | 1 => .lsr | 2 => .asr | _ => .ror

/-- The code of a shift type (R103). -/
def ShiftType.code : ShiftType → BitVec 2
  | .lsl => 0 | .lsr => 1 | .asr => 2 | .ror => 3

/-- The operation of a data-processing opcode (R92). -/
def DpOp.ofCode (v : BitVec 4) : DpOp :=
  match v.toNat with
  | 0 => .and | 1 => .eor | 2 => .sub | 3 => .rsb | 4 => .add | 5 => .adc | 6 => .sbc | 7 => .rsc
  | 8 => .tst | 9 => .teq | 10 => .cmp | 11 => .cmn | 12 => .orr | 13 => .mov | 14 => .bic | _ => .mvn

/-- The opcode of a data-processing operation (R92). -/
def DpOp.code : DpOp → BitVec 4
  | .and => 0 | .eor => 1 | .sub => 2 | .rsb => 3 | .add => 4 | .adc => 5 | .sbc => 6 | .rsc => 7
  | .tst => 8 | .teq => 9 | .cmp => 10 | .cmn => 11 | .orr => 12 | .mov => 13 | .bic => 14 | .mvn => 15

/-! ### Decoding -/

/-- The rotated immediate of `w[11:0]` (R102). -/
def immField (w : Word) : ImmOp := ⟨field w 8 4, field w 0 8⟩

/-- The register shifted by an immediate of `w[11:0]` (R103, R104). -/
def shImmField (w : Word) : ShImm := ⟨field w 7 5, .ofCode (field w 5 2), field w 0 4⟩

/-- The register shifted by a register of `w[11:0]` (R103). -/
def shRegField (w : Word) : ShReg := ⟨field w 8 4, .ofCode (field w 5 2), field w 0 4⟩

/-- Bits P, U and W of R94. -/
def indexField (w : Word) : Index := ⟨bit w 24, bit w 23, bit w 21⟩

/-- Bits P, U, S and W of R97. -/
def blockField (w : Word) : BlockMode := ⟨bit w 24, bit w 23, bit w 22, bit w 21⟩

/-- Bits P, U, N and W of R101. -/
def copIndexField (w : Word) : CopIndex := ⟨bit w 24, bit w 23, bit w 22, bit w 21⟩

/-- The opcode space of TST, TEQ, CMP and CMN with S = 0, which the PSR transfers occupy (R91, R93). -/
def inPsrSpace (w : Word) : Bool := field w 23 2 == 2#2 && !bit w 20

/-- Data processing (R92) with an operand form already chosen. -/
def decodeDp (c : Cond) (w : Word) (o2 : Operand2) : Instr :=
  .dp (.ofCode (field w 21 4)) c (bit w 20) (field w 16 4) (field w 12 4) o2

/-- PSR transfer with a register, `w[27:25] = 000` (R93). -/
def decodePsrReg (c : Cond) (w : Word) : Except DecodeError Instr :=
  if field w 16 6 == 0x0f#6 && field w 0 12 == 0#12 then .ok (.mrs c (bit w 22) (field w 12 4))
  else if field w 4 18 == 0x29f00#18 then .ok (.msrAll c (bit w 22) (field w 0 4))
  else if field w 4 18 == 0x28f00#18 then .ok (.msrFlgReg c (bit w 22) (field w 0 4))
  else .error .psrSpaceOther

/-- PSR transfer with an immediate, `w[27:25] = 001` (R93). -/
def decodePsrImm (c : Cond) (w : Word) : Except DecodeError Instr :=
  if field w 12 10 == 0x28f#10 then .ok (.msrFlgImm c (bit w 22) (immField w))
  else .error .psrSpaceOther

/-- Single data transfer with an immediate offset (R94); bit 22 is refused (R108). -/
def decodeTransferImm (c : Cond) (w : Word) : Except DecodeError Instr :=
  if bit w 22 then .error .byteTransfer
  else if bit w 20 then .ok (.ldrImm c (indexField w) (field w 16 4) (field w 12 4) (field w 0 12))
  else .ok (.strImm c (indexField w) (field w 16 4) (field w 12 4) (field w 0 12))

/-- Single data transfer with a register offset (R94); bit 22 is refused (R108). -/
def decodeTransferReg (c : Cond) (w : Word) : Except DecodeError Instr :=
  if bit w 22 then .error .byteTransfer
  else if bit w 20 then .ok (.ldrReg c (indexField w) (field w 16 4) (field w 12 4) (shImmField w))
  else .ok (.strReg c (indexField w) (field w 16 4) (field w 12 4) (shImmField w))

/-- Bits [27:25] = 111: SWI (R99), CDP, MRC and MCR (R101). -/
def decodeSwiCop (c : Cond) (w : Word) : Instr :=
  if bit w 24 then .swi c (field w 0 24)
  else if !bit w 4 then
    .cdp c (field w 20 4) (field w 16 4) (field w 12 4) (field w 8 4) (field w 5 3) (field w 0 4)
  else if bit w 20 then
    .mrc c (field w 21 3) (field w 16 4) (field w 12 4) (field w 8 4) (field w 5 3) (field w 0 4)
  else .mcr c (field w 21 3) (field w 16 4) (field w 12 4) (field w 8 4) (field w 5 3) (field w 0 4)

/-- The decision procedure of R91 once the condition is known; the lines stand in its order. -/
def decodeClass (c : Cond) (w : Word) : Except DecodeError Instr :=
  match (field w 25 3).toNat with
  | 0 =>
    if bit w 4 && bit w 7 then .error .multiplySwapHalfwordSpace
    else if inPsrSpace w then decodePsrReg c w
    else if bit w 4 then .ok (decodeDp c w (.shReg (shRegField w)))
    else .ok (decodeDp c w (.shImm (shImmField w)))
  | 1 =>
    if inPsrSpace w then decodePsrImm c w
    else .ok (decodeDp c w (.imm (immField w)))
  | 2 => decodeTransferImm c w
  | 3 => if bit w 4 then .ok (.undef c (field w 5 20) (field w 0 4)) else decodeTransferReg c w
  | 4 =>
    if bit w 20 then .ok (.ldm c (blockField w) (field w 16 4) (field w 0 16))
    else .ok (.stm c (blockField w) (field w 16 4) (field w 0 16))
  | 5 => if bit w 24 then .ok (.bl c (field w 0 24)) else .ok (.b c (field w 0 24))
  | 6 =>
    if bit w 20 then .ok (.ldc c (copIndexField w) (field w 16 4) (field w 12 4) (field w 8 4) (field w 0 8))
    else .ok (.stc c (copIndexField w) (field w 16 4) (field w 12 4) (field w 8 4) (field w 0 8))
  | _ => .ok (decodeSwiCop c w)

/-- Decode an instruction word (R91). -/
def decodeWord (w : Word) : Except DecodeError Instr :=
  match Cond.ofCode (field w 28 4) with
  | none => .error .conditionNV
  | some c => decodeClass c w

/-! ### Bytes of a word -/

/-- Four bytes, lowest address first, as a word. -/
def joinBytes (o : ByteOrder) (b0 b1 b2 b3 : Byte) : Word :=
  match o with
  | .little => b3 ++ b2 ++ b1 ++ b0
  | .big => b0 ++ b1 ++ b2 ++ b3

/-- The byte of a word that lies at offset `k` (0 to 3) from its address. -/
def splitByte (o : ByteOrder) (w : Word) (k : Nat) : Byte :=
  match o with
  | .little => w.extractLsb' (8 * k) 8
  | .big => w.extractLsb' (8 * (3 - k)) 8

/-- The four bytes of a word, lowest address first. -/
def wordBytes (o : ByteOrder) (w : Word) : List Byte :=
  [splitByte o w 0, splitByte o w 1, splitByte o w 2, splitByte o w 3]

/-- Decode the instruction at the front of some bytes as they lie in memory, and say which bytes follow. -/
def decodeBytes : List Byte → Except DecodeError (Instr × List Byte)
  | b0 :: b1 :: b2 :: b3 :: rest =>
    match decodeWord (joinBytes Config.byteOrder b0 b1 b2 b3) with
    | .ok i => .ok (i, rest)
    | .error e => .error e
  | _ => .error .truncated

/-- The decoder on a row's word: bit 0 of `w` is bit 0 of the instruction word, the bits from `nbits` up are 0. -/
def decodeTableWord (nbits w : Nat) : Option Instr :=
  match decodeBytes (wordBytes Config.byteOrder (BitVec.ofNat 32 (w % 2 ^ nbits))) with
  | .ok (i, _) => some i
  | .error _ => none

/-! ### Encoding -/

/-- Bits [11:0] of a rotated immediate (R102). -/
def ImmOp.bits (o : ImmOp) : BitVec 12 := o.rotate ++ o.imm8

/-- Bits [11:0] of a register shifted by an immediate: bit 4 is 0 (R103). -/
def ShImm.bits (o : ShImm) : BitVec 12 := o.amount ++ o.type.code ++ 0#1 ++ o.rm

/-- Bits [11:0] of a register shifted by a register: bit 7 is 0 and bit 4 is 1 (R103). -/
def ShReg.bits (o : ShReg) : BitVec 12 := o.rs ++ 0#1 ++ o.type.code ++ 1#1 ++ o.rm

/-- The data-processing format (R92). -/
def dpWord (c : Cond) (imm : Bool) (op : DpOp) (sb : Bool) (rn rd : Reg) (o2 : BitVec 12) : Word :=
  c.code ++ 0#2 ++ flag imm ++ op.code ++ flag sb ++ rn ++ rd ++ o2

/-- The single data transfer format (R94), B = 0. -/
def transferWord (c : Cond) (reg : Bool) (ix : Index) (load : Bool) (rn rd : Reg) (off : BitVec 12) : Word :=
  c.code ++ 1#2 ++ flag reg ++ flag ix.p ++ flag ix.u ++ 0#1 ++ flag ix.w ++ flag load ++ rn ++ rd ++ off

/-- The block data transfer format (R97). -/
def blockWord (c : Cond) (bm : BlockMode) (load : Bool) (rn : Reg) (list : BitVec 16) : Word :=
  c.code ++ 4#3 ++ flag bm.p ++ flag bm.u ++ flag bm.s ++ flag bm.w ++ flag load ++ rn ++ list

/-- The coprocessor data transfer format (R101). -/
def copTransferWord (c : Cond) (ix : CopIndex) (load : Bool) (rn : Reg) (crd cp : BitVec 4) (off : BitVec 8) : Word :=
  c.code ++ 6#3 ++ flag ix.p ++ flag ix.u ++ flag ix.n ++ flag ix.w ++ flag load ++ rn ++ crd ++ cp ++ off

/-- The coprocessor register transfer format (R101). -/
def copRegWord (c : Cond) (opc : BitVec 3) (load : Bool) (crn : BitVec 4) (rd : Reg) (cp : BitVec 4)
    (info : BitVec 3) (crm : BitVec 4) : Word :=
  c.code ++ 14#4 ++ opc ++ flag load ++ crn ++ rd ++ cp ++ info ++ 1#1 ++ crm

/-- The instruction word of an instruction (R92 to R106). -/
def encode : Instr → Word
  | .andImm c sb rn rd o => dpWord c true .and sb rn rd o.bits
  | .andShImm c sb rn rd o => dpWord c false .and sb rn rd o.bits
  | .andShReg c sb rn rd o => dpWord c false .and sb rn rd o.bits
  | .eorImm c sb rn rd o => dpWord c true .eor sb rn rd o.bits
  | .eorShImm c sb rn rd o => dpWord c false .eor sb rn rd o.bits
  | .eorShReg c sb rn rd o => dpWord c false .eor sb rn rd o.bits
  | .subImm c sb rn rd o => dpWord c true .sub sb rn rd o.bits
  | .subShImm c sb rn rd o => dpWord c false .sub sb rn rd o.bits
  | .subShReg c sb rn rd o => dpWord c false .sub sb rn rd o.bits
  | .rsbImm c sb rn rd o => dpWord c true .rsb sb rn rd o.bits
  | .rsbShImm c sb rn rd o => dpWord c false .rsb sb rn rd o.bits
  | .rsbShReg c sb rn rd o => dpWord c false .rsb sb rn rd o.bits
  | .addImm c sb rn rd o => dpWord c true .add sb rn rd o.bits
  | .addShImm c sb rn rd o => dpWord c false .add sb rn rd o.bits
  | .addShReg c sb rn rd o => dpWord c false .add sb rn rd o.bits
  | .adcImm c sb rn rd o => dpWord c true .adc sb rn rd o.bits
  | .adcShImm c sb rn rd o => dpWord c false .adc sb rn rd o.bits
  | .adcShReg c sb rn rd o => dpWord c false .adc sb rn rd o.bits
  | .sbcImm c sb rn rd o => dpWord c true .sbc sb rn rd o.bits
  | .sbcShImm c sb rn rd o => dpWord c false .sbc sb rn rd o.bits
  | .sbcShReg c sb rn rd o => dpWord c false .sbc sb rn rd o.bits
  | .rscImm c sb rn rd o => dpWord c true .rsc sb rn rd o.bits
  | .rscShImm c sb rn rd o => dpWord c false .rsc sb rn rd o.bits
  | .rscShReg c sb rn rd o => dpWord c false .rsc sb rn rd o.bits
  | .tstImm c rn rd o => dpWord c true .tst true rn rd o.bits
  | .tstShImm c rn rd o => dpWord c false .tst true rn rd o.bits
  | .tstShReg c rn rd o => dpWord c false .tst true rn rd o.bits
  | .teqImm c rn rd o => dpWord c true .teq true rn rd o.bits
  | .teqShImm c rn rd o => dpWord c false .teq true rn rd o.bits
  | .teqShReg c rn rd o => dpWord c false .teq true rn rd o.bits
  | .cmpImm c rn rd o => dpWord c true .cmp true rn rd o.bits
  | .cmpShImm c rn rd o => dpWord c false .cmp true rn rd o.bits
  | .cmpShReg c rn rd o => dpWord c false .cmp true rn rd o.bits
  | .cmnImm c rn rd o => dpWord c true .cmn true rn rd o.bits
  | .cmnShImm c rn rd o => dpWord c false .cmn true rn rd o.bits
  | .cmnShReg c rn rd o => dpWord c false .cmn true rn rd o.bits
  | .orrImm c sb rn rd o => dpWord c true .orr sb rn rd o.bits
  | .orrShImm c sb rn rd o => dpWord c false .orr sb rn rd o.bits
  | .orrShReg c sb rn rd o => dpWord c false .orr sb rn rd o.bits
  | .movImm c sb rn rd o => dpWord c true .mov sb rn rd o.bits
  | .movShImm c sb rn rd o => dpWord c false .mov sb rn rd o.bits
  | .movShReg c sb rn rd o => dpWord c false .mov sb rn rd o.bits
  | .bicImm c sb rn rd o => dpWord c true .bic sb rn rd o.bits
  | .bicShImm c sb rn rd o => dpWord c false .bic sb rn rd o.bits
  | .bicShReg c sb rn rd o => dpWord c false .bic sb rn rd o.bits
  | .mvnImm c sb rn rd o => dpWord c true .mvn sb rn rd o.bits
  | .mvnShImm c sb rn rd o => dpWord c false .mvn sb rn rd o.bits
  | .mvnShReg c sb rn rd o => dpWord c false .mvn sb rn rd o.bits
  | .mrs c p rd => c.code ++ 2#5 ++ flag p ++ 0x0f#6 ++ rd ++ 0#12
  | .msrAll c p rm => c.code ++ 2#5 ++ flag p ++ 0x29f00#18 ++ rm
  | .msrFlgReg c p rm => c.code ++ 2#5 ++ flag p ++ 0x28f00#18 ++ rm
  | .msrFlgImm c p o => c.code ++ 6#5 ++ flag p ++ 0x28f#10 ++ o.bits
  | .ldrImm c ix rn rd imm => transferWord c false ix true rn rd imm
  | .ldrReg c ix rn rd o => transferWord c true ix true rn rd o.bits
  | .strImm c ix rn rd imm => transferWord c false ix false rn rd imm
  | .strReg c ix rn rd o => transferWord c true ix false rn rd o.bits
  | .ldm c bm rn list => blockWord c bm true rn list
  | .stm c bm rn list => blockWord c bm false rn list
  | .b c off => c.code ++ 0xa#4 ++ off
  | .bl c off => c.code ++ 0xb#4 ++ off
  | .swi c comment => c.code ++ 0xf#4 ++ comment
  | .undef c hi lo => c.code ++ 3#3 ++ hi ++ 1#1 ++ lo
  | .cdp c opc crn crd cp info crm => c.code ++ 0xe#4 ++ opc ++ crn ++ crd ++ cp ++ info ++ 0#1 ++ crm
  | .ldc c ix rn crd cp off => copTransferWord c ix true rn crd cp off
  | .stc c ix rn crd cp off => copTransferWord c ix false rn crd cp off
  | .mrc c opc crn rd cp info crm => copRegWord c opc true crn rd cp info crm
  | .mcr c opc crn rd cp info crm => copRegWord c opc false crn rd cp info crm

/-! ### The opcode table -/

/-- A row of spec/opcode_table.json: the fixed bits of a word, over bits [27:0] (R107). -/
structure Row where
  mask : Word
  value : Word
deriving DecidableEq, Repr

/-- A word has the fixed bits of a row. -/
def Row.matches (r : Row) (w : Word) : Bool := (w &&& r.mask) == r.value

/-- The row of an instruction, with `mask` and `match` as spec/opcode_table.json has them (R107). -/
def Instr.row : Instr → Row
  | .andImm _ _ _ _ _ => ⟨0x0FE00000#32, 0x02000000#32⟩
  | .andShImm _ _ _ _ _ => ⟨0x0FE00010#32, 0x00000000#32⟩
  | .andShReg _ _ _ _ _ => ⟨0x0FE00090#32, 0x00000010#32⟩
  | .eorImm _ _ _ _ _ => ⟨0x0FE00000#32, 0x02200000#32⟩
  | .eorShImm _ _ _ _ _ => ⟨0x0FE00010#32, 0x00200000#32⟩
  | .eorShReg _ _ _ _ _ => ⟨0x0FE00090#32, 0x00200010#32⟩
  | .subImm _ _ _ _ _ => ⟨0x0FE00000#32, 0x02400000#32⟩
  | .subShImm _ _ _ _ _ => ⟨0x0FE00010#32, 0x00400000#32⟩
  | .subShReg _ _ _ _ _ => ⟨0x0FE00090#32, 0x00400010#32⟩
  | .rsbImm _ _ _ _ _ => ⟨0x0FE00000#32, 0x02600000#32⟩
  | .rsbShImm _ _ _ _ _ => ⟨0x0FE00010#32, 0x00600000#32⟩
  | .rsbShReg _ _ _ _ _ => ⟨0x0FE00090#32, 0x00600010#32⟩
  | .addImm _ _ _ _ _ => ⟨0x0FE00000#32, 0x02800000#32⟩
  | .addShImm _ _ _ _ _ => ⟨0x0FE00010#32, 0x00800000#32⟩
  | .addShReg _ _ _ _ _ => ⟨0x0FE00090#32, 0x00800010#32⟩
  | .adcImm _ _ _ _ _ => ⟨0x0FE00000#32, 0x02A00000#32⟩
  | .adcShImm _ _ _ _ _ => ⟨0x0FE00010#32, 0x00A00000#32⟩
  | .adcShReg _ _ _ _ _ => ⟨0x0FE00090#32, 0x00A00010#32⟩
  | .sbcImm _ _ _ _ _ => ⟨0x0FE00000#32, 0x02C00000#32⟩
  | .sbcShImm _ _ _ _ _ => ⟨0x0FE00010#32, 0x00C00000#32⟩
  | .sbcShReg _ _ _ _ _ => ⟨0x0FE00090#32, 0x00C00010#32⟩
  | .rscImm _ _ _ _ _ => ⟨0x0FE00000#32, 0x02E00000#32⟩
  | .rscShImm _ _ _ _ _ => ⟨0x0FE00010#32, 0x00E00000#32⟩
  | .rscShReg _ _ _ _ _ => ⟨0x0FE00090#32, 0x00E00010#32⟩
  | .tstImm _ _ _ _ => ⟨0x0FF00000#32, 0x03100000#32⟩
  | .tstShImm _ _ _ _ => ⟨0x0FF00010#32, 0x01100000#32⟩
  | .tstShReg _ _ _ _ => ⟨0x0FF00090#32, 0x01100010#32⟩
  | .teqImm _ _ _ _ => ⟨0x0FF00000#32, 0x03300000#32⟩
  | .teqShImm _ _ _ _ => ⟨0x0FF00010#32, 0x01300000#32⟩
  | .teqShReg _ _ _ _ => ⟨0x0FF00090#32, 0x01300010#32⟩
  | .cmpImm _ _ _ _ => ⟨0x0FF00000#32, 0x03500000#32⟩
  | .cmpShImm _ _ _ _ => ⟨0x0FF00010#32, 0x01500000#32⟩
  | .cmpShReg _ _ _ _ => ⟨0x0FF00090#32, 0x01500010#32⟩
  | .cmnImm _ _ _ _ => ⟨0x0FF00000#32, 0x03700000#32⟩
  | .cmnShImm _ _ _ _ => ⟨0x0FF00010#32, 0x01700000#32⟩
  | .cmnShReg _ _ _ _ => ⟨0x0FF00090#32, 0x01700010#32⟩
  | .orrImm _ _ _ _ _ => ⟨0x0FE00000#32, 0x03800000#32⟩
  | .orrShImm _ _ _ _ _ => ⟨0x0FE00010#32, 0x01800000#32⟩
  | .orrShReg _ _ _ _ _ => ⟨0x0FE00090#32, 0x01800010#32⟩
  | .movImm _ _ _ _ _ => ⟨0x0FE00000#32, 0x03A00000#32⟩
  | .movShImm _ _ _ _ _ => ⟨0x0FE00010#32, 0x01A00000#32⟩
  | .movShReg _ _ _ _ _ => ⟨0x0FE00090#32, 0x01A00010#32⟩
  | .bicImm _ _ _ _ _ => ⟨0x0FE00000#32, 0x03C00000#32⟩
  | .bicShImm _ _ _ _ _ => ⟨0x0FE00010#32, 0x01C00000#32⟩
  | .bicShReg _ _ _ _ _ => ⟨0x0FE00090#32, 0x01C00010#32⟩
  | .mvnImm _ _ _ _ _ => ⟨0x0FE00000#32, 0x03E00000#32⟩
  | .mvnShImm _ _ _ _ _ => ⟨0x0FE00010#32, 0x01E00000#32⟩
  | .mvnShReg _ _ _ _ _ => ⟨0x0FE00090#32, 0x01E00010#32⟩
  | .mrs _ _ _ => ⟨0x0FBF0FFF#32, 0x010F0000#32⟩
  | .msrAll _ _ _ => ⟨0x0FBFFFF0#32, 0x0129F000#32⟩
  | .msrFlgReg _ _ _ => ⟨0x0FBFFFF0#32, 0x0128F000#32⟩
  | .msrFlgImm _ _ _ => ⟨0x0FBFF000#32, 0x0328F000#32⟩
  | .ldrImm _ _ _ _ _ => ⟨0x0E500000#32, 0x04100000#32⟩
  | .ldrReg _ _ _ _ _ => ⟨0x0E500010#32, 0x06100000#32⟩
  | .strImm _ _ _ _ _ => ⟨0x0E500000#32, 0x04000000#32⟩
  | .strReg _ _ _ _ _ => ⟨0x0E500010#32, 0x06000000#32⟩
  | .ldm _ _ _ _ => ⟨0x0E100000#32, 0x08100000#32⟩
  | .stm _ _ _ _ => ⟨0x0E100000#32, 0x08000000#32⟩
  | .b _ _ => ⟨0x0F000000#32, 0x0A000000#32⟩
  | .bl _ _ => ⟨0x0F000000#32, 0x0B000000#32⟩
  | .swi _ _ => ⟨0x0F000000#32, 0x0F000000#32⟩
  | .undef _ _ _ => ⟨0x0E000010#32, 0x06000010#32⟩
  | .cdp _ _ _ _ _ _ _ => ⟨0x0F000010#32, 0x0E000000#32⟩
  | .ldc _ _ _ _ _ _ => ⟨0x0E100000#32, 0x0C100000#32⟩
  | .stc _ _ _ _ _ _ => ⟨0x0E100000#32, 0x0C000000#32⟩
  | .mrc _ _ _ _ _ _ _ => ⟨0x0F100010#32, 0x0E100010#32⟩
  | .mcr _ _ _ _ _ _ _ => ⟨0x0F100010#32, 0x0E000010#32⟩

/-- The rows of spec/opcode_table.json, in its order. -/
def opcodeTable : List Row := [
  ⟨0x0FE00000#32, 0x02000000#32⟩,
  ⟨0x0FE00010#32, 0x00000000#32⟩,
  ⟨0x0FE00090#32, 0x00000010#32⟩,
  ⟨0x0FE00000#32, 0x02200000#32⟩,
  ⟨0x0FE00010#32, 0x00200000#32⟩,
  ⟨0x0FE00090#32, 0x00200010#32⟩,
  ⟨0x0FE00000#32, 0x02400000#32⟩,
  ⟨0x0FE00010#32, 0x00400000#32⟩,
  ⟨0x0FE00090#32, 0x00400010#32⟩,
  ⟨0x0FE00000#32, 0x02600000#32⟩,
  ⟨0x0FE00010#32, 0x00600000#32⟩,
  ⟨0x0FE00090#32, 0x00600010#32⟩,
  ⟨0x0FE00000#32, 0x02800000#32⟩,
  ⟨0x0FE00010#32, 0x00800000#32⟩,
  ⟨0x0FE00090#32, 0x00800010#32⟩,
  ⟨0x0FE00000#32, 0x02A00000#32⟩,
  ⟨0x0FE00010#32, 0x00A00000#32⟩,
  ⟨0x0FE00090#32, 0x00A00010#32⟩,
  ⟨0x0FE00000#32, 0x02C00000#32⟩,
  ⟨0x0FE00010#32, 0x00C00000#32⟩,
  ⟨0x0FE00090#32, 0x00C00010#32⟩,
  ⟨0x0FE00000#32, 0x02E00000#32⟩,
  ⟨0x0FE00010#32, 0x00E00000#32⟩,
  ⟨0x0FE00090#32, 0x00E00010#32⟩,
  ⟨0x0FF00000#32, 0x03100000#32⟩,
  ⟨0x0FF00010#32, 0x01100000#32⟩,
  ⟨0x0FF00090#32, 0x01100010#32⟩,
  ⟨0x0FF00000#32, 0x03300000#32⟩,
  ⟨0x0FF00010#32, 0x01300000#32⟩,
  ⟨0x0FF00090#32, 0x01300010#32⟩,
  ⟨0x0FF00000#32, 0x03500000#32⟩,
  ⟨0x0FF00010#32, 0x01500000#32⟩,
  ⟨0x0FF00090#32, 0x01500010#32⟩,
  ⟨0x0FF00000#32, 0x03700000#32⟩,
  ⟨0x0FF00010#32, 0x01700000#32⟩,
  ⟨0x0FF00090#32, 0x01700010#32⟩,
  ⟨0x0FE00000#32, 0x03800000#32⟩,
  ⟨0x0FE00010#32, 0x01800000#32⟩,
  ⟨0x0FE00090#32, 0x01800010#32⟩,
  ⟨0x0FE00000#32, 0x03A00000#32⟩,
  ⟨0x0FE00010#32, 0x01A00000#32⟩,
  ⟨0x0FE00090#32, 0x01A00010#32⟩,
  ⟨0x0FE00000#32, 0x03C00000#32⟩,
  ⟨0x0FE00010#32, 0x01C00000#32⟩,
  ⟨0x0FE00090#32, 0x01C00010#32⟩,
  ⟨0x0FE00000#32, 0x03E00000#32⟩,
  ⟨0x0FE00010#32, 0x01E00000#32⟩,
  ⟨0x0FE00090#32, 0x01E00010#32⟩,
  ⟨0x0FBF0FFF#32, 0x010F0000#32⟩,
  ⟨0x0FBFFFF0#32, 0x0129F000#32⟩,
  ⟨0x0FBFFFF0#32, 0x0128F000#32⟩,
  ⟨0x0FBFF000#32, 0x0328F000#32⟩,
  ⟨0x0E500000#32, 0x04100000#32⟩,
  ⟨0x0E500010#32, 0x06100000#32⟩,
  ⟨0x0E500000#32, 0x04000000#32⟩,
  ⟨0x0E500010#32, 0x06000000#32⟩,
  ⟨0x0E100000#32, 0x08100000#32⟩,
  ⟨0x0E100000#32, 0x08000000#32⟩,
  ⟨0x0F000000#32, 0x0A000000#32⟩,
  ⟨0x0F000000#32, 0x0B000000#32⟩,
  ⟨0x0F000000#32, 0x0F000000#32⟩,
  ⟨0x0E000010#32, 0x06000010#32⟩,
  ⟨0x0F000010#32, 0x0E000000#32⟩,
  ⟨0x0E100000#32, 0x0C100000#32⟩,
  ⟨0x0E100000#32, 0x0C000000#32⟩,
  ⟨0x0F100010#32, 0x0E100010#32⟩,
  ⟨0x0F100010#32, 0x0E000010#32⟩]

end Sys2Proof
end

