-- ==== Sys2Proof/Machine/State.lean ====
section
/-! DEFINITION. The state of Our ARM (10_state.md), how a step can stop, and the state after reset. -/

namespace Sys2Proof.Machine

/-- The six modes of Table (3-1) (10_state.md R36). No other value is ever in CPSR.M (R37). -/
inductive Mode where
  | usr | fiq | irq | svc | abt | und
deriving DecidableEq, Repr

/-- The condition code flags (R33). -/
structure Flags where
  n : Bool
  z : Bool
  c : Bool
  v : Bool
deriving DecidableEq, Repr

/-- The Current Program Status Register: its eleven defined bits (R32, R40). -/
structure Cpsr where
  flags : Flags
  /-- IRQ disabled when set (R34). -/
  i : Bool
  /-- FIQ disabled when set (R35). -/
  f : Bool
  mode : Mode
deriving DecidableEq, Repr

/-- A Saved Program Status Register: its eleven defined bits; M may be any five bits (R37, R39). -/
structure Psr where
  flags : Flags
  i : Bool
  f : Bool
  m : BitVec 5
deriving DecidableEq, Repr

/-- The five SPSRs (R31). -/
structure Spsrs where
  fiq : Psr
  svc : Psr
  abt : Psr
  irq : Psr
  und : Psr
deriving DecidableEq, Repr

/-- The names of the physical general registers other than R15 (R21, Figure (3-1)). -/
inductive PhysReg where
  | r0 | r1 | r2 | r3 | r4 | r5 | r6 | r7
  | r8 | r9 | r10 | r11 | r12
  | r8_fiq | r9_fiq | r10_fiq | r11_fiq | r12_fiq
  | r13_usr | r14_usr | r13_fiq | r14_fiq | r13_svc | r14_svc
  | r13_abt | r14_abt | r13_irq | r14_irq | r13_und | r14_und
deriving DecidableEq, Repr

/-- The 30 physical general registers other than R15 (R21). -/
structure GenRegs where
  r0 : Word
  r1 : Word
  r2 : Word
  r3 : Word
  r4 : Word
  r5 : Word
  r6 : Word
  r7 : Word
  r8 : Word
  r9 : Word
  r10 : Word
  r11 : Word
  r12 : Word
  r8_fiq : Word
  r9_fiq : Word
  r10_fiq : Word
  r11_fiq : Word
  r12_fiq : Word
  r13_usr : Word
  r14_usr : Word
  r13_fiq : Word
  r14_fiq : Word
  r13_svc : Word
  r14_svc : Word
  r13_abt : Word
  r14_abt : Word
  r13_irq : Word
  r14_irq : Word
  r13_und : Word
  r14_und : Word
deriving DecidableEq, Repr

/-- Memory (R42): the populated bytes as (address, byte) pairs, addresses strictly rising and below 2^32.
An address that is not listed has no value (log 4). -/
abbrev Memory := List Host.Cell

/-- What an access is for; the ABORT input answers each access by itself (60_exceptions.md R245). -/
inductive AccessKind where
  | fetch | read | write
deriving DecidableEq, Repr

/-- An access that the environment answers with ABORT. -/
structure Abort where
  kind : AccessKind
  addr : WordAddr
deriving DecidableEq, Repr

/-- The levels of the external inputs at an instruction boundary and during the instruction after it: the
synchroniser outputs (`FiqLine`, `IrqLine`, R44) and the accesses that ABORT strikes (`AbortOracle`). Log 9, 10. -/
structure Lines where
  fiqLow : Bool
  irqLow : Bool
  aborts : List Abort
deriving DecidableEq, Repr

/-- What the environment does at one instruction boundary: a completed nRESET pulse, the new levels of
the lines, and the words other bus masters have stored since the last data access (20_memory.md R77). Log 9, 11, 12. -/
structure Boundary where
  reset : Bool
  lines : Lines
  stores : List (WordAddr × Word)
deriving DecidableEq, Repr

/-- The whole machine: every register of R20, memory, the hazard bit of 70_reset_and_hazards.md R290, the
external inputs, and the count of free values drawn. -/
structure State where
  /-- The general registers of every bank (R21). -/
  gpr : GenRegs
  /-- Bits [31:2] of R15: the word address of the instruction to execute (R27). -/
  pcBits : WordAddr
  /-- The CPSR (R31). -/
  cpsr : Cpsr
  /-- The five SPSRs (R31, R39). -/
  spsrs : Spsrs
  /-- Memory (R42). -/
  mem : Memory
  /-- The instruction executed last was an LDM of User-bank registers (70_reset_and_hazards.md R290). -/
  userLdm : Bool
  /-- The present levels of the external inputs. -/
  lines : Lines
  /-- What the environment does at the coming boundaries, the next one first; after the last entry the lines
  keep their levels. The model's own field (log 9). -/
  schedule : List Boundary
  /-- The words that other bus masters store right before each of the coming data accesses of the processor, the next
  access first; past the end of the list they store nothing (20_memory.md R65, R77). The model's own field (log 12). -/
  others : List (List (WordAddr × Word))
  /-- How many values of `Config.draw` have been used. The model's own field (log 19). -/
  draws : Nat
deriving DecidableEq, Repr

/-- How a step faults. The spec's own faults are exceptions, which the machine takes (60_exceptions.md);
this is the one stop of the model's own. -/
inductive Fault where
  /-- `step` raises it: the instruction word at the PC lies in memory that nothing has populated
  (20_memory.md R75, `UnmappedAddress`; log 5). Safe: the machine stops where the hardware may go on. -/
  | unmappedFetch
deriving DecidableEq, Repr

/-- Where the spec gives a situation no meaning (`refuse`, 00_scope.md R11). Every one is safe: the model
stops where the hardware may go on. -/
inductive Refusal where
  /-- An arm of `exec` that has no meaning yet; none does. -/
  | notModelled (mnemonic : String)
  /-- `step` raises it: the fetched word is no instruction of the subset (30_encoding.md R96, R108). -/
  | undecodable (e : DecodeError)
  /-- Data processing with Rs = 15 (41_data_processing.md R165 a). -/
  | r15AsShiftRegister
  /-- TST, TEQ, CMP, CMN with Rd = 15 (R165 b). -/
  | compareWithRd15
  /-- MRS with Rd = 15, MSR with Rm = 15 (42_psr_transfer.md R180 to R182). -/
  | r15AsPsrOperand
  /-- An instruction that names the SPSR in User mode (10_state.md R39): MRS, MSR, S with Rd = 15, LDM with S and R15. -/
  | noSpsr
  /-- MSR, or a return from an exception, would put an undefined mode into CPSR.M (10_state.md R37). -/
  | invalidMode
  /-- LDR or STR with P = 0 and W = 1 (43_single_data_transfer.md R191 b). -/
  | postIndexedT
  /-- LDR or STR with write-back and Rn = 15 (R191 c). -/
  | writebackToR15
  /-- LDR or STR with write-back and Rd = Rn (R191 d). -/
  | writebackBaseIsRd
  /-- LDR or STR with offset register R15 (R191 e). -/
  | r15AsOffset
  /-- LDR or STR with write-back and Rm = Rn (R191 f). -/
  | writebackBaseIsRm
  /-- A data address that is not a multiple of 4 (20_memory.md R62). -/
  | unalignedAddress
  /-- STR or STM to one of the two words after the instruction (20_memory.md R78). -/
  | storeIntoPrefetch
  /-- LDM or STM with an empty list (44_block_data_transfer.md R207 a). -/
  | emptyRegisterList
  /-- LDM or STM with Rn = 15 (R207 b). -/
  | r15AsBase
  /-- LDM, or STM unless Rn is the lowest of the list, with write-back and Rn in the list (R207 c, d). -/
  | writebackBaseInList
  /-- LDM or STM of User-bank registers in User mode (R204, R205). -/
  | userBankInUserMode
  /-- LDM or STM of User-bank registers with write-back (R207 f). -/
  | userBankWriteback
  /-- Any instruction that reads a register number banked in the current mode right after an LDM of
  User-bank registers (70_reset_and_hazards.md R290). -/
  | bankedReadAfterUserLdm
  /-- A coprocessor instruction that a coprocessor would accept (45_swi_coprocessor_undefined.md R217);
  no state raises it while `Config.coprocessors` is empty. -/
  | coprocessorPresent
deriving DecidableEq, Repr

/-- What a meaning answers. -/
abbrev Result := Host.Outcome State Fault Refusal

/-- Inputs at rest: nFIQ and nIRQ HIGH, no access aborted. -/
def Lines.quiet : Lines := ⟨false, false, []⟩

/-- The machine right after reset (10_state.md R46 to R48): Supervisor mode, I = F = 1, PC = 0. The general
registers, the flags and the SPSRs have no reset value in the spec: DESIGN CHOICE zero (log 2). Memory lists
nothing (log 4), the inputs are at rest (log 9). -/
def State.reset : State where
  gpr := ⟨0, 0, 0, 0, 0, 0, 0, 0, 0, 0, 0, 0, 0, 0, 0, 0, 0, 0, 0, 0, 0, 0, 0, 0, 0, 0, 0, 0, 0, 0⟩
  pcBits := 0
  cpsr := ⟨⟨false, false, false, false⟩, true, true, .svc⟩
  spsrs :=
    let zero : Psr := ⟨⟨false, false, false, false⟩, false, false, 0⟩
    ⟨zero, zero, zero, zero, zero⟩
  mem := []
  userLdm := false
  lines := .quiet
  schedule := []
  others := []
  draws := 0

end Sys2Proof.Machine
end

