-- ==== Sys2Proof/Machine/Flags.lean ====
section
/-! DEFINITION. The condition test (30_encoding.md R95) and every flag computation (41_data_processing.md
R140, R147 to R162). -/

namespace Sys2Proof.Machine

/-- `ConditionPassed(cond)` (R95). -/
def conditionPassed (c : Cond) (f : Flags) : Bool :=
  match c with
  | .eq => f.z
  | .ne => !f.z
  | .cs => f.c
  | .cc => !f.c
  | .mi => f.n
  | .pl => !f.n
  | .vs => f.v
  | .vc => !f.v
  | .hi => f.c && !f.z
  | .ls => !f.c || f.z
  | .ge => f.n == f.v
  | .lt => f.n != f.v
  | .gt => !f.z && f.n == f.v
  | .le => f.z || f.n != f.v
  | .al => true

/-- A result with the carry and overflow that go with it. -/
structure AluOut where
  result : Word
  c : Bool
  v : Bool
deriving DecidableEq, Repr

/-- `AddWithCarry(a, b, cin)` (R140): the sum in unbounded integers, then narrowed. -/
def addWithCarry (a b : Word) (cin : Bool) : AluOut :=
  let sum := a.toNat + b.toNat + cin.toNat
  let result := BitVec.ofNat 32 sum
  { result := result
    c := decide (2 ^ 32 ≤ sum)
    v := a.msb == b.msb && result.msb != a.msb }

/-- AND, EOR, TST, TEQ, ORR, MOV, BIC and MVN are logical: C comes from the shifter and V stays (R140). -/
def logicalOut (result : Word) (shifterCarry : Bool) (old : Flags) : AluOut :=
  { result := result, c := shifterCarry, v := old.v }

/-- The sixteen operations (R147 to R162): `a` is the first operand, `b` the second with the shifter's
carry-out `sc`, and `old` the flags before the instruction. -/
def alu (op : DpOp) (a b : Word) (sc : Bool) (old : Flags) : AluOut :=
  match op with
  | .and | .tst => logicalOut (a &&& b) sc old
  | .eor | .teq => logicalOut (a ^^^ b) sc old
  | .sub | .cmp => addWithCarry a (~~~b) true
  | .rsb => addWithCarry (~~~a) b true
  | .add | .cmn => addWithCarry a b false
  | .adc => addWithCarry a b old.c
  | .sbc => addWithCarry a (~~~b) old.c
  | .rsc => addWithCarry (~~~a) b old.c
  | .orr => logicalOut (a ||| b) sc old
  | .mov => logicalOut b sc old
  | .bic => logicalOut (a &&& ~~~b) sc old
  | .mvn => logicalOut (~~~b) sc old

/-- The flags an operation with S = 1 writes (R140). -/
def AluOut.flags (o : AluOut) : Flags :=
  { n := o.result.msb, z := o.result == 0#32, c := o.c, v := o.v }

/-- The operations that write no register (R155 to R158). -/
def isCompare : DpOp → Bool
  | .tst | .teq | .cmp | .cmn => true
  | _ => false

/-- The operations that do not read Rn (R160, R162). -/
def ignoresRn : DpOp → Bool
  | .mov | .mvn => true
  | _ => false

end Sys2Proof.Machine
end

