-- ==== Sys2Proof/Machine/Memory.lean ====
section
/-! DEFINITION. Operations on memory: bytes, words in the configured byte order, and the canonical form
(10_state.md R42; 20_memory.md R60, R61). -/

namespace Sys2Proof.Machine

/-- The byte at an address; none where nothing has populated it (log 4). -/
def Memory.byte : Memory → Nat → Option Byte
  | [], _ => none
  | (k, b) :: rest, a => if k = a then some b else Memory.byte rest a

/-- Store one byte, keeping the addresses rising. -/
def Memory.setByte : Memory → Nat → Byte → Memory
  | [], a, v => [(a, v)]
  | (k, b) :: rest, a, v =>
    if a < k then (a, v) :: (k, b) :: rest
    else if a = k then (a, v) :: rest
    else (k, b) :: Memory.setByte rest a v

/-- Every address listed is above `lo`, below 2^32 and above the one before it. -/
def Memory.risingFrom : Nat → Memory → Bool
  | _, [] => true
  | lo, (k, _) :: rest => decide (lo ≤ k) && decide (k < 2 ^ 32) && Memory.risingFrom (k + 1) rest

/-- The canonical form: addresses strictly rising and inside the 32-bit address space (R42). An unlisted
address has no value, so no entry can equal it. -/
def Memory.wf (m : Memory) : Bool := Memory.risingFrom 0 m

/-- The byte address of a word (R60). -/
def byteAddr (a : WordAddr) : Nat := 4 * a.toNat

/-- The word at a word address, if all four of its bytes are populated. -/
def Memory.word (m : Memory) (a : WordAddr) : Option Word :=
  match m.byte (byteAddr a), m.byte (byteAddr a + 1), m.byte (byteAddr a + 2), m.byte (byteAddr a + 3) with
  | some b0, some b1, some b2, some b3 => some (joinBytes Config.byteOrder b0 b1 b2 b3)
  | _, _, _, _ => none

/-- Store a word, its four bytes in the configured order. -/
def Memory.setWord (m : Memory) (a : WordAddr) (v : Word) : Memory :=
  (((m.setByte (byteAddr a) (splitByte Config.byteOrder v 0)).setByte
    (byteAddr a + 1) (splitByte Config.byteOrder v 1)).setByte
    (byteAddr a + 2) (splitByte Config.byteOrder v 2)).setByte
    (byteAddr a + 3) (splitByte Config.byteOrder v 3)

/-- Store several words, the first first. -/
def Memory.setWords : Memory → List (WordAddr × Word) → Memory
  | m, [] => m
  | m, (a, v) :: rest => (m.setWord a v).setWords rest

end Sys2Proof.Machine
end

