-- ==== Sys2Proof/Machine/Ops.lean ====
section
/-! DEFINITION. The named operations on registers, status registers and memory, taking an exception and
returning from one, and the frame every instruction runs in (condition, hazard). -/

namespace Sys2Proof.Machine

/-! ### Modes and status registers -/

/-- M[4:0] of a mode (10_state.md R36). -/
def Mode.bits : Mode → BitVec 5
  | .usr => 0b10000 | .fiq => 0b10001 | .irq => 0b10010 | .svc => 0b10011 | .abt => 0b10111 | .und => 0b11011

/-- The mode of a value of M[4:0]; the other 26 values are none (R36, R37). -/
def Mode.ofBits (v : BitVec 5) : Option Mode :=
  match v.toNat with
  | 0b10000 => some .usr | 0b10001 => some .fiq | 0b10010 => some .irq
  | 0b10011 => some .svc | 0b10111 => some .abt | 0b11011 => some .und
  | _ => none

/-- The flags of a PSR word: N, Z, C, V at bits 31 to 28 (R32). -/
def Flags.ofWord (w : Word) : Flags := ⟨w.getLsbD 31, w.getLsbD 30, w.getLsbD 29, w.getLsbD 28⟩

/-- The defined bits of a PSR word (R32); the reserved bits are ignored (R40). -/
def Psr.ofWord (w : Word) : Psr := ⟨.ofWord w, w.getLsbD 7, w.getLsbD 6, w.extractLsb' 0 5⟩

/-- A PSR as MRS reads it (42_psr_transfer.md R180), the reserved bits [27:8] and 5 taken from `free`. -/
def Psr.toWord (p : Psr) (free : Word) : Word :=
  flag p.flags.n ++ flag p.flags.z ++ flag p.flags.c ++ flag p.flags.v ++ free.extractLsb' 8 20
    ++ flag p.i ++ flag p.f ++ free.extractLsb' 5 1 ++ p.m

/-- The CPSR as an exception saves it (R39). -/
def Cpsr.save (c : Cpsr) : Psr := ⟨c.flags, c.i, c.f, c.mode.bits⟩

/-- The SPSR of a mode; User mode has none (R31). -/
def Spsrs.get (s : Spsrs) : Mode → Option Psr
  | .usr => none
  | .fiq => some s.fiq
  | .irq => some s.irq
  | .svc => some s.svc
  | .abt => some s.abt
  | .und => some s.und

/-- Write the SPSR of a mode; User mode has none, and nothing is written. -/
def Spsrs.set (s : Spsrs) (m : Mode) (p : Psr) : Spsrs :=
  match m with
  | .usr => s
  | .fiq => { s with fiq := p }
  | .irq => { s with irq := p }
  | .svc => { s with svc := p }
  | .abt => { s with abt := p }
  | .und => { s with und := p }

/-! ### General registers -/

/-- The physical register that number `n` names in mode `m` (R23); none is R15. -/
def phys (m : Mode) (n : Reg) : Option PhysReg :=
  match n.toNat, m with
  | 0, _ => some .r0
  | 1, _ => some .r1
  | 2, _ => some .r2
  | 3, _ => some .r3
  | 4, _ => some .r4
  | 5, _ => some .r5
  | 6, _ => some .r6
  | 7, _ => some .r7
  | 8, .fiq => some .r8_fiq
  | 9, .fiq => some .r9_fiq
  | 10, .fiq => some .r10_fiq
  | 11, .fiq => some .r11_fiq
  | 12, .fiq => some .r12_fiq
  | 8, _ => some .r8
  | 9, _ => some .r9
  | 10, _ => some .r10
  | 11, _ => some .r11
  | 12, _ => some .r12
  | 13, .usr => some .r13_usr
  | 13, .fiq => some .r13_fiq
  | 13, .irq => some .r13_irq
  | 13, .svc => some .r13_svc
  | 13, .abt => some .r13_abt
  | 13, .und => some .r13_und
  | 14, .usr => some .r14_usr
  | 14, .fiq => some .r14_fiq
  | 14, .irq => some .r14_irq
  | 14, .svc => some .r14_svc
  | 14, .abt => some .r14_abt
  | 14, .und => some .r14_und
  | _, _ => none

/-- The link register R14 of a mode, which an exception into it writes (R25). -/
def Mode.link : Mode → PhysReg
  | .usr => .r14_usr | .fiq => .r14_fiq | .irq => .r14_irq
  | .svc => .r14_svc | .abt => .r14_abt | .und => .r14_und

/-- Register number `n` is banked in mode `m`, as 70_reset_and_hazards.md R290 uses the word: R8 to R14 in
FIQ mode, R13 and R14 in the other privileged modes. -/
def bankedIn (m : Mode) (n : Reg) : Bool :=
  match m with
  | .usr => false
  | .fiq => decide (8 ≤ n.toNat) && decide (n.toNat ≤ 14)
  | _ => n == 13#4 || n == 14#4

/-- The value of a physical register. -/
def GenRegs.get (g : GenRegs) : PhysReg → Word
  | .r0 => g.r0
  | .r1 => g.r1
  | .r2 => g.r2
  | .r3 => g.r3
  | .r4 => g.r4
  | .r5 => g.r5
  | .r6 => g.r6
  | .r7 => g.r7
  | .r8 => g.r8
  | .r9 => g.r9
  | .r10 => g.r10
  | .r11 => g.r11
  | .r12 => g.r12
  | .r8_fiq => g.r8_fiq
  | .r9_fiq => g.r9_fiq
  | .r10_fiq => g.r10_fiq
  | .r11_fiq => g.r11_fiq
  | .r12_fiq => g.r12_fiq
  | .r13_usr => g.r13_usr
  | .r14_usr => g.r14_usr
  | .r13_fiq => g.r13_fiq
  | .r14_fiq => g.r14_fiq
  | .r13_svc => g.r13_svc
  | .r14_svc => g.r14_svc
  | .r13_abt => g.r13_abt
  | .r14_abt => g.r14_abt
  | .r13_irq => g.r13_irq
  | .r14_irq => g.r14_irq
  | .r13_und => g.r13_und
  | .r14_und => g.r14_und

/-- Write a physical register. -/
def GenRegs.set (g : GenRegs) (p : PhysReg) (v : Word) : GenRegs :=
  match p with
  | .r0 => { g with r0 := v }
  | .r1 => { g with r1 := v }
  | .r2 => { g with r2 := v }
  | .r3 => { g with r3 := v }
  | .r4 => { g with r4 := v }
  | .r5 => { g with r5 := v }
  | .r6 => { g with r6 := v }
  | .r7 => { g with r7 := v }
  | .r8 => { g with r8 := v }
  | .r9 => { g with r9 := v }
  | .r10 => { g with r10 := v }
  | .r11 => { g with r11 := v }
  | .r12 => { g with r12 := v }
  | .r8_fiq => { g with r8_fiq := v }
  | .r9_fiq => { g with r9_fiq := v }
  | .r10_fiq => { g with r10_fiq := v }
  | .r11_fiq => { g with r11_fiq := v }
  | .r12_fiq => { g with r12_fiq := v }
  | .r13_usr => { g with r13_usr := v }
  | .r14_usr => { g with r14_usr := v }
  | .r13_fiq => { g with r13_fiq := v }
  | .r14_fiq => { g with r14_fiq := v }
  | .r13_svc => { g with r13_svc := v }
  | .r14_svc => { g with r14_svc := v }
  | .r13_abt => { g with r13_abt := v }
  | .r14_abt => { g with r14_abt := v }
  | .r13_irq => { g with r13_irq := v }
  | .r14_irq => { g with r14_irq := v }
  | .r13_und => { g with r13_und := v }
  | .r14_und => { g with r14_und := v }

/-! ### Updates of the state, one field each -/

/-- Write a physical general register. -/
def State.setGpr (s : State) (p : PhysReg) (v : Word) : State := { s with gpr := s.gpr.set p v }

/-- The address of the instruction being executed: the spec's `pc` (R27). -/
def State.pc (s : State) : Word := s.pcBits ++ 0#2

/-- `pc <- v[31:2] :: 00` (R29). -/
def State.setPc (s : State) (v : Word) : State := { s with pcBits := v.extractLsb' 2 30 }

/-- `pc <- pc + 4` (R30), modulo 2^32. -/
def State.advance (s : State) : State := { s with pcBits := s.pcBits + 1 }

/-- Write the four condition code flags. -/
def State.setFlags (s : State) (f : Flags) : State := { s with cpsr := { s.cpsr with flags := f } }

/-- Write the whole CPSR. -/
def State.setCpsr (s : State) (c : Cpsr) : State := { s with cpsr := c }

/-- Write the SPSR of a mode. -/
def State.setSpsr (s : State) (m : Mode) (p : Psr) : State := { s with spsrs := s.spsrs.set m p }

/-- Replace memory. -/
def State.setMem (s : State) (m : Memory) : State := { s with mem := m }

/-- Say whether the instruction executed last was an LDM of User-bank registers (70_reset_and_hazards.md R290). -/
def State.setUserLdm (s : State) (b : Bool) : State := { s with userLdm := b }

/-- Use up `k` free values. -/
def State.useDraws (s : State) (k : Nat) : State := { s with draws := s.draws + k }

/-- The next free value (00_scope.md R11). -/
def State.freeValue (s : State) : Word := Config.draw s.draws

/-! ### Registers as instructions name them -/

/-- `x_m[n]`: register `n` as mode `m` sees it; R15 reads as `pc + off` (R28). -/
def State.readBank (s : State) (m : Mode) (n : Reg) (off : Word) : Word :=
  match phys m n with
  | some p => s.gpr.get p
  | none => s.pc + off

/-- `x[n]` in the current mode (R23). -/
def State.readReg (s : State) (n : Reg) (off : Word) : Word := s.readBank s.cpsr.mode n off

/-- `x_m[n] <- v`; a write of R15 is a jump (R29). -/
def State.writeBank (s : State) (m : Mode) (n : Reg) (v : Word) : State :=
  match phys m n with
  | some p => s.setGpr p v
  | none => s.setPc v

/-- `x[n] <- v` in the current mode. -/
def State.writeReg (s : State) (n : Reg) (v : Word) : State := s.writeBank s.cpsr.mode n v

/-- Write several registers of a bank, the first first. -/
def State.writeBanks (s : State) (m : Mode) : List (Reg × Word) → State
  | [] => s
  | (n, v) :: rest => (s.writeBank m n v).writeBanks m rest

/-! ### Data accesses -/

/-- The environment answers this access with ABORT (60_exceptions.md R245). -/
def State.aborted (s : State) (k : AccessKind) (a : WordAddr) : Bool := s.lines.aborts.contains ⟨k, a⟩

/-- The word address of a byte address, if it is a multiple of 4 (20_memory.md R62). -/
def aligned (v : Word) : Option WordAddr :=
  if v.extractLsb' 0 2 = 0#2 then some (v.extractLsb' 2 30) else none

/-- Other bus masters store their words right before the next data access (20_memory.md R77): they may change any word
between any two accesses of the processor. -/
def State.othersStore (s : State) : State :=
  { s with mem := s.mem.setWords (s.others.headD []), others := s.others.tail }

/-- The same for the next `k` data accesses. -/
def State.othersStores (s : State) : Nat → State
  | 0 => s
  | k + 1 => s.othersStore.othersStores k

/-- The environment's answer to a read (20_memory.md R66): no word if the access is aborted; a free value if the word
is not populated. The state after it has used up the free value, if one was drawn. -/
def answerRead (a : WordAddr) (s : State) : Option Word × State :=
  if s.aborted .read a then (none, s)
  else match s.mem.word a with
    | some w => (some w, s)
    | none => (some s.freeValue, s.useDraws 1)

/-- `MemRead(addr, 4)` (20_memory.md R66): one data access. -/
def memRead (a : WordAddr) (s : State) : Option Word × State := answerRead a s.othersStore

/-- The environment's answer to a write (R67); an aborted write leaves memory unchanged. -/
def answerWrite (a : WordAddr) (v : Word) (s : State) : State :=
  if s.aborted .write a then s else s.setMem (s.mem.setWord a v)

/-- `MemWrite(addr, 4, v)` (R67): one data access. -/
def memWrite (a : WordAddr) (v : Word) (s : State) : State := answerWrite a v s.othersStore

/-- Read words one after the other (R64): the words read before the first aborted access, whether one was aborted, and
the state after. The accesses after an aborted one are still performed and their data is discarded
(44_block_data_transfer.md R206), so no free value is drawn for them. -/
def loadWords : List WordAddr → State → List Word × Bool × State
  | [], s => ([], false, s)
  | a :: rest, s =>
    match memRead a s with
    | (none, s1) => ([], true, s1.othersStores rest.length)
    | (some w, s1) =>
      let (ws, ab, s2) := loadWords rest s1
      (w :: ws, ab, s2)

/-- Write words one after the other (R64); an aborted write does not stop the later ones
(44_block_data_transfer.md R206). -/
def storeWords : List (WordAddr × Word) → State → State
  | [], s => s
  | (a, v) :: rest, s => storeWords rest (memWrite a v s)

/-- The word address is one of the two words after the instruction being executed (20_memory.md R78). -/
def State.inPrefetch (s : State) (a : WordAddr) : Bool := a == s.pcBits + 1 || a == s.pcBits + 2

/-! ### Exceptions -/

/-- The exceptions that save a return address (60_exceptions.md R222); Reset is `takeReset`. -/
inductive Exc where
  | undefinedInstruction | softwareInterrupt | prefetchAbort | dataAbort | irq | fiq
deriving DecidableEq, Repr

/-- The mode an exception enters (R222). -/
def Exc.mode : Exc → Mode
  | .undefinedInstruction => .und
  | .softwareInterrupt => .svc
  | .prefetchAbort | .dataAbort => .abt
  | .irq => .irq
  | .fiq => .fiq

/-- The vector address of an exception (20_memory.md R71). -/
def Exc.vector : Exc → Word
  | .undefinedInstruction => 0x04
  | .softwareInterrupt => 0x08
  | .prefetchAbort => 0x0c
  | .dataAbort => 0x10
  | .irq => 0x18
  | .fiq => 0x1c

/-- What the exception's R14 receives, as an offset from `pc` (R222). -/
def Exc.returnOffset : Exc → Word
  | .dataAbort => 8
  | _ => 4

/-- The exception sets F (R222): FIQ alone among these. -/
def Exc.setsF : Exc → Bool
  | .fiq => true
  | _ => false

/-- `ExceptionEntry(e, ret)` (R230), with `ret` the offset of R222 from the `pc` of the state. The four writes
happen together; the flags stay; the entry ends the hazard of R290. -/
def takeException (e : Exc) (s : State) : State :=
  ((((s.setGpr e.mode.link (s.pc + e.returnOffset)).setSpsr e.mode s.cpsr.save).setCpsr
    { s.cpsr with mode := e.mode, i := true, f := s.cpsr.f || e.setsF }).setPc e.vector).setUserLdm false

/-- Return from an exception (41_data_processing.md R164; 44_block_data_transfer.md R203): the PC gets `target`
and the CPSR the SPSR of the current mode, with the two refusals of those rules. -/
def returnFromException (target : Word) (s : State) : Result :=
  match s.spsrs.get s.cpsr.mode with
  | none => .refused .noSpsr
  | some p =>
    match Mode.ofBits p.m with
    | none => .refused .invalidMode
    | some m => .next ((s.setPc target).setCpsr ⟨p.flags, p.i, p.f, m⟩)

/-- The registers after a reset: free values (70_reset_and_hazards.md R281, R282), from the `k`-th on. -/
def freeRegs (k : Nat) : GenRegs where
  r0 := Config.draw (k + 0)
  r1 := Config.draw (k + 1)
  r2 := Config.draw (k + 2)
  r3 := Config.draw (k + 3)
  r4 := Config.draw (k + 4)
  r5 := Config.draw (k + 5)
  r6 := Config.draw (k + 6)
  r7 := Config.draw (k + 7)
  r8 := Config.draw (k + 8)
  r9 := Config.draw (k + 9)
  r10 := Config.draw (k + 10)
  r11 := Config.draw (k + 11)
  r12 := Config.draw (k + 12)
  r8_fiq := Config.draw (k + 13)
  r9_fiq := Config.draw (k + 14)
  r10_fiq := Config.draw (k + 15)
  r11_fiq := Config.draw (k + 16)
  r12_fiq := Config.draw (k + 17)
  r13_usr := Config.draw (k + 18)
  r14_usr := Config.draw (k + 19)
  r13_fiq := Config.draw (k + 20)
  r14_fiq := Config.draw (k + 21)
  r13_svc := Config.draw (k + 22)
  r14_svc := Config.draw (k + 23)
  r13_abt := Config.draw (k + 24)
  r14_abt := Config.draw (k + 25)
  r13_irq := Config.draw (k + 26)
  r14_irq := Config.draw (k + 27)
  r13_und := Config.draw (k + 28)
  r14_und := Config.draw (k + 29)

/-- Reset (70_reset_and_hazards.md R281): M, I, F and the PC are forced; every other register, the flags and
the SPSRs are free values (R282; log 3); memory is unchanged. -/
def takeReset (s : State) : State :=
  { s with
    gpr := freeRegs s.draws
    pcBits := 0
    cpsr := ⟨.ofWord (Config.draw (s.draws + 30)), true, true, .svc⟩
    spsrs :=
      { fiq := .ofWord (Config.draw (s.draws + 31))
        svc := .ofWord (Config.draw (s.draws + 32))
        abt := .ofWord (Config.draw (s.draws + 33))
        irq := .ofWord (Config.draw (s.draws + 34))
        und := .ofWord (Config.draw (s.draws + 35)) }
    userLdm := false
    draws := s.draws + 36 }

/-! ### The frame of an instruction -/

/-- The hazard of 70_reset_and_hazards.md R290: the last instruction was an LDM of User-bank registers, and
this one reads a register number that is banked in the current mode. -/
def State.hazard (s : State) (reads : List Reg) : Bool := s.userLdm && reads.any (bankedIn s.cpsr.mode)

/-- Every instruction (30_encoding.md R95): if its condition fails it only advances the PC; otherwise, unless the
hazard of R290 stops it, it has its effect. Either way it is no longer the instruction after an LDM (log 15). -/
def conditional (c : Cond) (reads : List Reg) (effect : State → Result) (s : State) : Result :=
  if conditionPassed c s.cpsr.flags then
    if s.hazard reads then .refused .bankedReadAfterUserLdm
    else effect (s.setUserLdm false)
  else .next (s.setUserLdm false).advance

end Sys2Proof.Machine
end

