-- ==== Sys2Proof/Machine/Operands.lean ====
section
/-! DEFINITION. Operand forms: the shifter (41_data_processing.md R141 to R146), the addresses of single data
transfers (43_single_data_transfer.md R190, R191) and of block data transfers (44_block_data_transfer.md
R200, R207). -/

namespace Sys2Proof.Machine

/-! ### The shifter: a value and a carry-out -/

/-- The value of a rotated immediate (30_encoding.md R102). -/
def ImmOp.value (o : ImmOp) : Word := (o.imm8.zeroExtend 32).rotateRight (2 * o.rotate.toNat)

/-- The carry-out of a rotated immediate (R141). -/
def ImmOp.carry (o : ImmOp) (cin : Bool) : Bool := if o.rotate = 0#4 then cin else (ImmOp.value o).msb

/-- Shift by an immediate amount 0 to 31, with the special readings of 0 (R142 to R145). -/
def shiftByImm (t : ShiftType) (n : Nat) (m : Word) (cin : Bool) : Word × Bool :=
  match t with
  | .lsl => if n = 0 then (m, cin) else (m <<< n, m.getLsbD (32 - n))
  | .lsr => if n = 0 then (0, m.msb) else (m >>> n, m.getLsbD (n - 1))
  | .asr =>
    if n = 0 then (if m.msb then 0xffffffff else 0, m.msb) else (m.sshiftRight n, m.getLsbD (n - 1))
  | .ror =>
    if n = 0 then (flag cin ++ m.extractLsb' 1 31, m.getLsbD 0) else (m.rotateRight n, m.getLsbD (n - 1))

/-- Shift by a register amount 0 to 255 (R146). -/
def shiftByReg (t : ShiftType) (n : Nat) (m : Word) (cin : Bool) : Word × Bool :=
  if n = 0 then (m, cin)
  else match t with
    | .lsl =>
      if n < 32 then (m <<< n, m.getLsbD (32 - n)) else if n = 32 then (0, m.getLsbD 0) else (0, false)
    | .lsr =>
      if n < 32 then (m >>> n, m.getLsbD (n - 1)) else if n = 32 then (0, m.msb) else (0, false)
    | .asr =>
      if n < 32 then (m.sshiftRight n, m.getLsbD (n - 1))
      else (if m.msb then 0xffffffff else 0, m.msb)
    | .ror =>
      if n % 32 = 0 then (m, m.msb) else (m.rotateRight (n % 32), m.getLsbD (n % 32 - 1))

/-- What R15 reads as in a data-processing instruction, beyond `pc` (10_state.md R28). -/
def pcOffset : Operand2 → Word
  | .shReg _ => 12
  | _ => 8

/-- The second operand and the shifter carry-out (R141 to R146). -/
def shifter (o2 : Operand2) (s : State) : Word × Bool :=
  match o2 with
  | .imm o => (ImmOp.value o, ImmOp.carry o s.cpsr.flags.c)
  | .shImm o => shiftByImm o.type o.amount.toNat (s.readReg o.rm 8) s.cpsr.flags.c
  | .shReg o =>
    shiftByReg o.type ((s.readReg o.rs 12).extractLsb' 0 8).toNat (s.readReg o.rm 12) s.cpsr.flags.c

/-- The registers a second operand reads. -/
def operandReads : Operand2 → List Reg
  | .imm _ => []
  | .shImm o => [o.rm]
  | .shReg o => [o.rm, o.rs]

/-! ### Single data transfers -/

/-- The offset of a single data transfer (30_encoding.md R104). -/
inductive Offset where
  | imm (v : BitVec 12)
  | reg (o : ShImm)
deriving DecidableEq, Repr

/-- The offset's value; the carry-out of the shift is discarded (R104, R190). -/
def Offset.value (o : Offset) (s : State) : Word :=
  match o with
  | .imm v => v.zeroExtend 32
  | .reg o => (shiftByImm o.type o.amount.toNat (s.readReg o.rm 8) s.cpsr.flags.c).1

/-- The register an offset reads. -/
def Offset.reads : Offset → List Reg
  | .imm _ => []
  | .reg o => [o.rm]

/-- Post-indexed transfers always write back, pre-indexed ones with W = 1 (R190). -/
def writesBack (ix : Index) : Bool := !ix.p || ix.w

/-- `target` of R190: the base plus or minus the offset, modulo 2^32. -/
def transferTarget (ix : Index) (rn : Reg) (off : Offset) (s : State) : Word :=
  if ix.u then s.readReg rn 8 + off.value s else s.readReg rn 8 - off.value s

/-- `addr` of R190: the modified address if pre-indexed, else the base. -/
def transferAddr (ix : Index) (rn : Reg) (off : Offset) (s : State) : Word :=
  if ix.p then transferTarget ix rn off s else s.readReg rn 8

/-- The write-back of R190. -/
def State.transferWriteback (s : State) (ix : Index) (rn : Reg) (target : Word) : State :=
  if writesBack ix then s.writeReg rn target else s

/-- The operand combinations of 43_single_data_transfer.md R191 (b) to (f). -/
def transferRefusal (ix : Index) (rn rd : Reg) (off : Offset) : Option Refusal :=
  if !ix.p && ix.w then some .postIndexedT
  else if writesBack ix && rn == 15#4 then some .writebackToR15
  else if writesBack ix && rd == rn then some .writebackBaseIsRd
  else match off with
    | .imm _ => none
    | .reg o =>
      if o.rm == 15#4 then some .r15AsOffset
      else if writesBack ix && o.rm == rn then some .writebackBaseIsRm
      else none

/-! ### Block data transfers -/

/-- The registers of a list in ascending number (44_block_data_transfer.md R200). -/
def regsOf (list : BitVec 16) : List Reg :=
  ((List.range 16).filter fun k => list.getLsbD k).map (BitVec.ofNat 4)

/-- The start address of R200 for `n` registers. -/
def blockStart (bm : BlockMode) (base : Word) (n : Nat) : Word :=
  match bm.p, bm.u with
  | false, true => base
  | true, true => base + 4
  | false, false => base - BitVec.ofNat 32 (4 * n) + 4
  | true, false => base - BitVec.ofNat 32 (4 * n)

/-- The final address of R200. -/
def blockFinal (bm : BlockMode) (base : Word) (n : Nat) : Word :=
  if bm.u then base + BitVec.ofNat 32 (4 * n) else base - BitVec.ofNat 32 (4 * n)

/-- The word addresses of R200, `start + 4k` for k = 0 .. n - 1, in that order. -/
def blockAddrs (bm : BlockMode) (base : Word) (n : Nat) : List WordAddr :=
  (List.range n).map fun k => (blockStart bm base n + BitVec.ofNat 32 (4 * k)).extractLsb' 2 30

/-- What a block data transfer with the S bit does (30_encoding.md R97). -/
inductive BlockForm where
  /-- S = 0: the registers of the current mode (R201, R202). -/
  | plain
  /-- LDM, S = 1, R15 in the list: return from an exception (R203). -/
  | excReturn
  /-- S = 1 otherwise: the User-bank registers (R204, R205). -/
  | userBank
deriving DecidableEq, Repr

/-- The form of an LDM. -/
def ldmForm (bm : BlockMode) (list : BitVec 16) : BlockForm :=
  if !bm.s then .plain else if list.getLsbD 15 then .excReturn else .userBank

/-- The form of an STM. -/
def stmForm (bm : BlockMode) : BlockForm := if bm.s then .userBank else .plain

/-- The bank a form transfers. -/
def BlockForm.bank (f : BlockForm) (s : State) : Mode :=
  match f with
  | .userBank => .usr
  | _ => s.cpsr.mode

/-- What R204 and R205 ask of the User-bank forms, and R203 of the exception return. -/
def formRefusal (f : BlockForm) (bm : BlockMode) (m : Mode) : Option Refusal :=
  match f with
  | .plain => none
  | .excReturn => if m = .usr then some .noSpsr else none
  | .userBank =>
    if m = .usr then some .userBankInUserMode else if bm.w then some .userBankWriteback else none

/-- The operand combinations of R207 (a) to (c), (e), (f) for LDM. -/
def ldmRefusal (bm : BlockMode) (rn : Reg) (list : BitVec 16) (m : Mode) : Option Refusal :=
  if list = 0#16 then some .emptyRegisterList
  else if rn = 15#4 then some .r15AsBase
  else if bm.w && list.getLsbD rn.toNat then some .writebackBaseInList
  else formRefusal (ldmForm bm list) bm m

/-- The operand combinations of R207 (a), (b), (d) to (f) for STM. -/
def stmRefusal (bm : BlockMode) (rn : Reg) (list : BitVec 16) (m : Mode) : Option Refusal :=
  if list = 0#16 then some .emptyRegisterList
  else if rn = 15#4 then some .r15AsBase
  else if bm.w && list.getLsbD rn.toNat && (regsOf list).head? != some rn then some .writebackBaseInList
  else formRefusal (stmForm bm) bm m

end Sys2Proof.Machine
end

