-- ==== Sys2Proof/Machine/BlockTransfer.lean ====
section
/-! DEFINITION. LDM and STM (44_block_data_transfer.md). -/

namespace Sys2Proof.Machine

/-- `Rn <- final` if W = 1 (R201, R202). -/
def State.blockWriteback (s : State) (bm : BlockMode) (rn : Reg) (final : Word) : State :=
  if bm.w then s.writeReg rn final else s

/-- An LDM whose access was aborted (R206): `s` is the state after the reads, `ws` the words read before the
abort. Those registers are loaded, then the base is written back, or put back, and the abort is taken. -/
def ldmAborted (bank : Mode) (bm : BlockMode) (rn : Reg) (base final : Word) (regs : List Reg) (ws : List Word)
    (s : State) : Result :=
  .next (takeException .dataAbort ((s.writeBanks bank (regs.zip ws)).writeReg rn (if bm.w then final else base)))

/-- An LDM whose accesses were all answered (R201, R203, R204): `s` is the state after the reads. -/
def ldmCompleted (form : BlockForm) (bm : BlockMode) (rn : Reg) (final : Word) (regs : List Reg) (ws : List Word)
    (s : State) : Result :=
  match form with
  | .plain => .next ((s.advance.writeBanks s.cpsr.mode (regs.zip ws)).blockWriteback bm rn final)
  | .excReturn =>
    let s1 := (s.writeBanks s.cpsr.mode (regs.zip ws)).blockWriteback bm rn final
    returnFromException s1.pc s1
  | .userBank => .next ((s.advance.writeBanks .usr (regs.zip ws)).setUserLdm true)

/-- The effect of LDM. -/
def ldmEffect (bm : BlockMode) (rn : Reg) (list : BitVec 16) (s : State) : Result :=
  match ldmRefusal bm rn list s.cpsr.mode with
  | some r => .refused r
  | none =>
    let base := s.readReg rn 8
    let regs := regsOf list
    let final := blockFinal bm base regs.length
    match aligned base with
    | none => .refused .unalignedAddress
    | some _ =>
      match loadWords (blockAddrs bm base regs.length) s with
      | (ws, true, s1) => ldmAborted ((ldmForm bm list).bank s) bm rn base final regs ws s1
      | (ws, false, s1) => ldmCompleted (ldmForm bm list) bm rn final regs ws s1

/-- The effect of STM (R202, R205, and R206 if an access is aborted). -/
def stmEffect (bm : BlockMode) (rn : Reg) (list : BitVec 16) (s : State) : Result :=
  match stmRefusal bm rn list s.cpsr.mode with
  | some r => .refused r
  | none =>
    let base := s.readReg rn 8
    let regs := regsOf list
    let final := blockFinal bm base regs.length
    match aligned base with
    | none => .refused .unalignedAddress
    | some _ =>
      let addrs := blockAddrs bm base regs.length
      let values := regs.map fun r => s.readBank ((stmForm bm).bank s) r Config.pcStoreOffset
      if addrs.any s.inPrefetch then .refused .storeIntoPrefetch
      else
        let s1 := (storeWords (addrs.zip values) s).blockWriteback bm rn final
        if addrs.any (s.aborted .write) then .next (takeException .dataAbort s1) else .next s1.advance

/-- LDM. -/
def execLdm (c : Cond) (bm : BlockMode) (rn : Reg) (list : BitVec 16) (s : State) : Result :=
  conditional c [rn] (ldmEffect bm rn list) s

/-- STM. -/
def execStm (c : Cond) (bm : BlockMode) (rn : Reg) (list : BitVec 16) (s : State) : Result :=
  conditional c (rn :: regsOf list) (stmEffect bm rn list) s

end Sys2Proof.Machine
end

