-- ==== Sys2Proof/Machine/Branch.lean ====
section
/-! DEFINITION. B and BL (40_branch.md). -/

namespace Sys2Proof.Machine

/-- The byte offset of a branch (30_encoding.md R105). -/
def branchOffset (off : BitVec 24) : Word := (off ++ 0#2).signExtend 32

/-- B (R130). -/
def execB (c : Cond) (off : BitVec 24) (s : State) : Result :=
  conditional c [] (fun s => .next (s.setPc (s.pc + 8 + branchOffset off))) s

/-- BL (R131). -/
def execBl (c : Cond) (off : BitVec 24) (s : State) : Result :=
  conditional c [] (fun s => .next ((s.writeReg 14 (s.pc + 4)).setPc (s.pc + 8 + branchOffset off))) s

end Sys2Proof.Machine
end

