-- ==== Sys2Proof/Machine/DataProcessing.lean ====
section
/-! DEFINITION. The data-processing instructions (41_data_processing.md). -/

namespace Sys2Proof.Machine

/-- The registers a data-processing instruction reads as operands (R140). -/
def dpReads (op : DpOp) (rn : Reg) (o2 : Operand2) : List Reg :=
  if ignoresRn op then operandReads o2 else rn :: operandReads o2

/-- The operand combinations of R165 (a) and (b). -/
def dpRefusal (op : DpOp) (rd : Reg) (o2 : Operand2) : Option Refusal :=
  match o2 with
  | .shReg o =>
    if o.rs = 15#4 then some .r15AsShiftRegister
    else if isCompare op && rd == 15#4 then some .compareWithRd15 else none
  | _ => if isCompare op && rd == 15#4 then some .compareWithRd15 else none

/-- The result, carry and overflow of a data-processing instruction, every source read first (R140). -/
def dpOut (op : DpOp) (rn : Reg) (o2 : Operand2) (s : State) : AluOut :=
  alu op (s.readReg rn (pcOffset o2)) (shifter o2 s).1 (shifter o2 s).2 s.cpsr.flags

/-- The effect of a data-processing instruction whose condition has passed (R140, R163, R164). -/
def dpEffect (op : DpOp) (sb : Bool) (rn rd : Reg) (o2 : Operand2) (s : State) : Result :=
  match dpRefusal op rd o2 with
  | some r => .refused r
  | none =>
    let out := dpOut op rn o2 s
    if isCompare op then .next (s.setFlags out.flags).advance
    else if rd = 15#4 then
      if sb then returnFromException out.result s else .next (s.setPc out.result)
    else if sb then .next ((s.writeReg rd out.result).setFlags out.flags).advance
    else .next (s.writeReg rd out.result).advance

/-- A data-processing instruction (R140). -/
def dataProcessing (op : DpOp) (c : Cond) (sb : Bool) (rn rd : Reg) (o2 : Operand2) (s : State) : Result :=
  conditional c (dpReads op rn o2) (dpEffect op sb rn rd o2) s

/-- AND (R147). -/
def execAndImm (c : Cond) (sb : Bool) (rn rd : Reg) (o : ImmOp) (s : State) : Result :=
  dataProcessing .and c sb rn rd (.imm o) s

/-- AND (R147). -/
def execAndShImm (c : Cond) (sb : Bool) (rn rd : Reg) (o : ShImm) (s : State) : Result :=
  dataProcessing .and c sb rn rd (.shImm o) s

/-- AND (R147). -/
def execAndShReg (c : Cond) (sb : Bool) (rn rd : Reg) (o : ShReg) (s : State) : Result :=
  dataProcessing .and c sb rn rd (.shReg o) s

/-- EOR (R148). -/
def execEorImm (c : Cond) (sb : Bool) (rn rd : Reg) (o : ImmOp) (s : State) : Result :=
  dataProcessing .eor c sb rn rd (.imm o) s

/-- EOR (R148). -/
def execEorShImm (c : Cond) (sb : Bool) (rn rd : Reg) (o : ShImm) (s : State) : Result :=
  dataProcessing .eor c sb rn rd (.shImm o) s

/-- EOR (R148). -/
def execEorShReg (c : Cond) (sb : Bool) (rn rd : Reg) (o : ShReg) (s : State) : Result :=
  dataProcessing .eor c sb rn rd (.shReg o) s

/-- SUB (R149). -/
def execSubImm (c : Cond) (sb : Bool) (rn rd : Reg) (o : ImmOp) (s : State) : Result :=
  dataProcessing .sub c sb rn rd (.imm o) s

/-- SUB (R149). -/
def execSubShImm (c : Cond) (sb : Bool) (rn rd : Reg) (o : ShImm) (s : State) : Result :=
  dataProcessing .sub c sb rn rd (.shImm o) s

/-- SUB (R149). -/
def execSubShReg (c : Cond) (sb : Bool) (rn rd : Reg) (o : ShReg) (s : State) : Result :=
  dataProcessing .sub c sb rn rd (.shReg o) s

/-- RSB (R150). -/
def execRsbImm (c : Cond) (sb : Bool) (rn rd : Reg) (o : ImmOp) (s : State) : Result :=
  dataProcessing .rsb c sb rn rd (.imm o) s

/-- RSB (R150). -/
def execRsbShImm (c : Cond) (sb : Bool) (rn rd : Reg) (o : ShImm) (s : State) : Result :=
  dataProcessing .rsb c sb rn rd (.shImm o) s

/-- RSB (R150). -/
def execRsbShReg (c : Cond) (sb : Bool) (rn rd : Reg) (o : ShReg) (s : State) : Result :=
  dataProcessing .rsb c sb rn rd (.shReg o) s

/-- ADD (R151). -/
def execAddImm (c : Cond) (sb : Bool) (rn rd : Reg) (o : ImmOp) (s : State) : Result :=
  dataProcessing .add c sb rn rd (.imm o) s

/-- ADD (R151). -/
def execAddShImm (c : Cond) (sb : Bool) (rn rd : Reg) (o : ShImm) (s : State) : Result :=
  dataProcessing .add c sb rn rd (.shImm o) s

/-- ADD (R151). -/
def execAddShReg (c : Cond) (sb : Bool) (rn rd : Reg) (o : ShReg) (s : State) : Result :=
  dataProcessing .add c sb rn rd (.shReg o) s

/-- ADC (R152). -/
def execAdcImm (c : Cond) (sb : Bool) (rn rd : Reg) (o : ImmOp) (s : State) : Result :=
  dataProcessing .adc c sb rn rd (.imm o) s

/-- ADC (R152). -/
def execAdcShImm (c : Cond) (sb : Bool) (rn rd : Reg) (o : ShImm) (s : State) : Result :=
  dataProcessing .adc c sb rn rd (.shImm o) s

/-- ADC (R152). -/
def execAdcShReg (c : Cond) (sb : Bool) (rn rd : Reg) (o : ShReg) (s : State) : Result :=
  dataProcessing .adc c sb rn rd (.shReg o) s

/-- SBC (R153). -/
def execSbcImm (c : Cond) (sb : Bool) (rn rd : Reg) (o : ImmOp) (s : State) : Result :=
  dataProcessing .sbc c sb rn rd (.imm o) s

/-- SBC (R153). -/
def execSbcShImm (c : Cond) (sb : Bool) (rn rd : Reg) (o : ShImm) (s : State) : Result :=
  dataProcessing .sbc c sb rn rd (.shImm o) s

/-- SBC (R153). -/
def execSbcShReg (c : Cond) (sb : Bool) (rn rd : Reg) (o : ShReg) (s : State) : Result :=
  dataProcessing .sbc c sb rn rd (.shReg o) s

/-- RSC (R154). -/
def execRscImm (c : Cond) (sb : Bool) (rn rd : Reg) (o : ImmOp) (s : State) : Result :=
  dataProcessing .rsc c sb rn rd (.imm o) s

/-- RSC (R154). -/
def execRscShImm (c : Cond) (sb : Bool) (rn rd : Reg) (o : ShImm) (s : State) : Result :=
  dataProcessing .rsc c sb rn rd (.shImm o) s

/-- RSC (R154). -/
def execRscShReg (c : Cond) (sb : Bool) (rn rd : Reg) (o : ShReg) (s : State) : Result :=
  dataProcessing .rsc c sb rn rd (.shReg o) s

/-- TST (R155). -/
def execTstImm (c : Cond) (rn rd : Reg) (o : ImmOp) (s : State) : Result :=
  dataProcessing .tst c true rn rd (.imm o) s

/-- TST (R155). -/
def execTstShImm (c : Cond) (rn rd : Reg) (o : ShImm) (s : State) : Result :=
  dataProcessing .tst c true rn rd (.shImm o) s

/-- TST (R155). -/
def execTstShReg (c : Cond) (rn rd : Reg) (o : ShReg) (s : State) : Result :=
  dataProcessing .tst c true rn rd (.shReg o) s

/-- TEQ (R156). -/
def execTeqImm (c : Cond) (rn rd : Reg) (o : ImmOp) (s : State) : Result :=
  dataProcessing .teq c true rn rd (.imm o) s

/-- TEQ (R156). -/
def execTeqShImm (c : Cond) (rn rd : Reg) (o : ShImm) (s : State) : Result :=
  dataProcessing .teq c true rn rd (.shImm o) s

/-- TEQ (R156). -/
def execTeqShReg (c : Cond) (rn rd : Reg) (o : ShReg) (s : State) : Result :=
  dataProcessing .teq c true rn rd (.shReg o) s

/-- CMP (R157). -/
def execCmpImm (c : Cond) (rn rd : Reg) (o : ImmOp) (s : State) : Result :=
  dataProcessing .cmp c true rn rd (.imm o) s

/-- CMP (R157). -/
def execCmpShImm (c : Cond) (rn rd : Reg) (o : ShImm) (s : State) : Result :=
  dataProcessing .cmp c true rn rd (.shImm o) s

/-- CMP (R157). -/
def execCmpShReg (c : Cond) (rn rd : Reg) (o : ShReg) (s : State) : Result :=
  dataProcessing .cmp c true rn rd (.shReg o) s

/-- CMN (R158). -/
def execCmnImm (c : Cond) (rn rd : Reg) (o : ImmOp) (s : State) : Result :=
  dataProcessing .cmn c true rn rd (.imm o) s

/-- CMN (R158). -/
def execCmnShImm (c : Cond) (rn rd : Reg) (o : ShImm) (s : State) : Result :=
  dataProcessing .cmn c true rn rd (.shImm o) s

/-- CMN (R158). -/
def execCmnShReg (c : Cond) (rn rd : Reg) (o : ShReg) (s : State) : Result :=
  dataProcessing .cmn c true rn rd (.shReg o) s

/-- ORR (R159). -/
def execOrrImm (c : Cond) (sb : Bool) (rn rd : Reg) (o : ImmOp) (s : State) : Result :=
  dataProcessing .orr c sb rn rd (.imm o) s

/-- ORR (R159). -/
def execOrrShImm (c : Cond) (sb : Bool) (rn rd : Reg) (o : ShImm) (s : State) : Result :=
  dataProcessing .orr c sb rn rd (.shImm o) s

/-- ORR (R159). -/
def execOrrShReg (c : Cond) (sb : Bool) (rn rd : Reg) (o : ShReg) (s : State) : Result :=
  dataProcessing .orr c sb rn rd (.shReg o) s

/-- MOV (R160). -/
def execMovImm (c : Cond) (sb : Bool) (rn rd : Reg) (o : ImmOp) (s : State) : Result :=
  dataProcessing .mov c sb rn rd (.imm o) s

/-- MOV (R160). -/
def execMovShImm (c : Cond) (sb : Bool) (rn rd : Reg) (o : ShImm) (s : State) : Result :=
  dataProcessing .mov c sb rn rd (.shImm o) s

/-- MOV (R160). -/
def execMovShReg (c : Cond) (sb : Bool) (rn rd : Reg) (o : ShReg) (s : State) : Result :=
  dataProcessing .mov c sb rn rd (.shReg o) s

/-- BIC (R161). -/
def execBicImm (c : Cond) (sb : Bool) (rn rd : Reg) (o : ImmOp) (s : State) : Result :=
  dataProcessing .bic c sb rn rd (.imm o) s

/-- BIC (R161). -/
def execBicShImm (c : Cond) (sb : Bool) (rn rd : Reg) (o : ShImm) (s : State) : Result :=
  dataProcessing .bic c sb rn rd (.shImm o) s

/-- BIC (R161). -/
def execBicShReg (c : Cond) (sb : Bool) (rn rd : Reg) (o : ShReg) (s : State) : Result :=
  dataProcessing .bic c sb rn rd (.shReg o) s

/-- MVN (R162). -/
def execMvnImm (c : Cond) (sb : Bool) (rn rd : Reg) (o : ImmOp) (s : State) : Result :=
  dataProcessing .mvn c sb rn rd (.imm o) s

/-- MVN (R162). -/
def execMvnShImm (c : Cond) (sb : Bool) (rn rd : Reg) (o : ShImm) (s : State) : Result :=
  dataProcessing .mvn c sb rn rd (.shImm o) s

/-- MVN (R162). -/
def execMvnShReg (c : Cond) (sb : Bool) (rn rd : Reg) (o : ShReg) (s : State) : Result :=
  dataProcessing .mvn c sb rn rd (.shReg o) s

end Sys2Proof.Machine
end

