-- ==== Sys2Proof/Machine/PsrTransfer.lean ====
section
/-! DEFINITION. MRS and MSR (42_psr_transfer.md). -/

namespace Sys2Proof.Machine

/-- The PSR that bit P of a PSR transfer names: the CPSR, or the SPSR of the current mode (none in User mode). -/
def State.psr (s : State) (p : Bool) : Option Psr :=
  if p then s.spsrs.get s.cpsr.mode else some s.cpsr.save

/-- Write the flag field of the PSR that bit P names (R182, R183). -/
def State.setPsrFlags (s : State) (p : Bool) (f : Flags) : Result :=
  if p then
    match s.spsrs.get s.cpsr.mode with
    | none => .refused .noSpsr
    | some q => .next (s.setSpsr s.cpsr.mode { q with flags := f })
  else .next (s.setFlags f)

/-- Write the whole PSR that bit P names from a word (R181). In User mode only the flags of the CPSR change. -/
def State.setWholePsr (s : State) (p : Bool) (v : Word) : Result :=
  if p then
    match s.spsrs.get s.cpsr.mode with
    | none => .refused .noSpsr
    | some _ => .next (s.setSpsr s.cpsr.mode (.ofWord v))
  else if s.cpsr.mode = .usr then .next (s.setFlags (.ofWord v))
  else
    match Mode.ofBits (Psr.ofWord v).m with
    | none => .refused .invalidMode
    | some m => .next (s.setCpsr ⟨.ofWord v, (Psr.ofWord v).i, (Psr.ofWord v).f, m⟩)

/-- MRS (R180). The reserved bits are a free value (10_state.md R40; log 6). -/
def execMrs (c : Cond) (p : Bool) (rd : Reg) (s : State) : Result :=
  conditional c [] (fun s =>
    match s.psr p with
    | none => .refused .noSpsr
    | some q =>
      if rd = 15#4 then .refused .r15AsPsrOperand
      else .next ((s.writeReg rd (q.toWord s.freeValue)).useDraws 1).advance) s

/-- MSR, register to whole PSR (R181). -/
def execMsrAll (c : Cond) (p : Bool) (rm : Reg) (s : State) : Result :=
  conditional c [rm] (fun s =>
    if rm = 15#4 then .refused .r15AsPsrOperand
    else s.advance.setWholePsr p (s.readReg rm 8)) s

/-- MSR, register to flag field (R182). -/
def execMsrFlgReg (c : Cond) (p : Bool) (rm : Reg) (s : State) : Result :=
  conditional c [rm] (fun s =>
    if rm = 15#4 then .refused .r15AsPsrOperand
    else s.advance.setPsrFlags p (.ofWord (s.readReg rm 8))) s

/-- MSR, immediate to flag field (R183). -/
def execMsrFlgImm (c : Cond) (p : Bool) (o : ImmOp) (s : State) : Result :=
  conditional c [] (fun s => s.advance.setPsrFlags p (.ofWord (ImmOp.value o))) s

end Sys2Proof.Machine
end

