-- ==== Sys2Proof/Machine/SingleTransfer.lean ====
section
/-! DEFINITION. LDR and STR (43_single_data_transfer.md). -/

namespace Sys2Proof.Machine

/-- The effect of LDR (R192, and R194 if the access is aborted). -/
def loadEffect (ix : Index) (rn rd : Reg) (off : Offset) (s : State) : Result :=
  match transferRefusal ix rn rd off with
  | some r => .refused r
  | none =>
    match aligned (transferAddr ix rn off s) with
    | none => .refused .unalignedAddress
    | some a =>
      let target := transferTarget ix rn off s
      match memRead a s with
      | (none, s1) => .next (takeException .dataAbort (s1.transferWriteback ix rn target))
      | (some v, s1) => .next ((s1.advance.transferWriteback ix rn target).writeReg rd v)

/-- The effect of STR (R193, and R194 if the access is aborted). -/
def storeEffect (ix : Index) (rn rd : Reg) (off : Offset) (s : State) : Result :=
  match transferRefusal ix rn rd off with
  | some r => .refused r
  | none =>
    match aligned (transferAddr ix rn off s) with
    | none => .refused .unalignedAddress
    | some a =>
      let target := transferTarget ix rn off s
      if s.inPrefetch a then .refused .storeIntoPrefetch
      else
        let s1 := (memWrite a (s.readReg rd Config.pcStoreOffset) s).transferWriteback ix rn target
        if s.aborted .write a then .next (takeException .dataAbort s1) else .next s1.advance

/-- LDR with an immediate offset (R192). -/
def execLdrImm (c : Cond) (ix : Index) (rn rd : Reg) (imm : BitVec 12) (s : State) : Result :=
  conditional c [rn] (loadEffect ix rn rd (.imm imm)) s

/-- LDR with a register offset (R192). -/
def execLdrReg (c : Cond) (ix : Index) (rn rd : Reg) (o : ShImm) (s : State) : Result :=
  conditional c [rn, o.rm] (loadEffect ix rn rd (.reg o)) s

/-- STR with an immediate offset (R193). -/
def execStrImm (c : Cond) (ix : Index) (rn rd : Reg) (imm : BitVec 12) (s : State) : Result :=
  conditional c [rn, rd] (storeEffect ix rn rd (.imm imm)) s

/-- STR with a register offset (R193). -/
def execStrReg (c : Cond) (ix : Index) (rn rd : Reg) (o : ShImm) (s : State) : Result :=
  conditional c [rn, o.rm, rd] (storeEffect ix rn rd (.reg o)) s

end Sys2Proof.Machine
end

