-- ==== Sys2Proof/Machine/Trap.lean ====
section
/-! DEFINITION. SWI, the undefined space and the coprocessor instructions
(45_swi_coprocessor_undefined.md). -/

namespace Sys2Proof.Machine

/-- An instruction offered to coprocessor `cp` (R212 to R217): with none present, the undefined instruction
trap; no register and no memory is read or written. -/
def offerToCoprocessor (cp : BitVec 4) (s : State) : Result :=
  if Config.coprocessors.contains cp then .refused .coprocessorPresent
  else .next (takeException .undefinedInstruction s)

/-- SWI (R210); the comment is not examined. -/
def execSwi (c : Cond) (_comment : BitVec 24) (s : State) : Result :=
  conditional c [] (fun s => .next (takeException .softwareInterrupt s)) s

/-- UNDEFINED (R211); no coprocessor accepts this space. -/
def execUndef (c : Cond) (_hi : BitVec 20) (_lo : BitVec 4) (s : State) : Result :=
  conditional c [] (fun s => .next (takeException .undefinedInstruction s)) s

/-- CDP (R212). -/
def execCdp (c : Cond) (cp : BitVec 4) (s : State) : Result :=
  conditional c [] (offerToCoprocessor cp) s

/-- LDC (R213). -/
def execLdc (c : Cond) (cp : BitVec 4) (s : State) : Result :=
  conditional c [] (offerToCoprocessor cp) s

/-- STC (R214). -/
def execStc (c : Cond) (cp : BitVec 4) (s : State) : Result :=
  conditional c [] (offerToCoprocessor cp) s

/-- MRC (R215). -/
def execMrc (c : Cond) (cp : BitVec 4) (s : State) : Result :=
  conditional c [] (offerToCoprocessor cp) s

/-- MCR (R216). -/
def execMcr (c : Cond) (cp : BitVec 4) (s : State) : Result :=
  conditional c [] (offerToCoprocessor cp) s

end Sys2Proof.Machine
end

