-- ==== Sys2Proof/Machine/Dispatch.lean ====
section
/-! DEFINITION. The meaning of every instruction, one arm for each row of spec/opcode_table.json. -/

namespace Sys2Proof.Machine

def exec (i : Instr) (s : State) : Host.Outcome State Fault Refusal :=
  match i with
  | .andImm c sb rn rd o => Sys2Proof.Machine.execAndImm c sb rn rd o s
  | .andShImm c sb rn rd o => Sys2Proof.Machine.execAndShImm c sb rn rd o s
  | .andShReg c sb rn rd o => Sys2Proof.Machine.execAndShReg c sb rn rd o s
  | .eorImm c sb rn rd o => Sys2Proof.Machine.execEorImm c sb rn rd o s
  | .eorShImm c sb rn rd o => Sys2Proof.Machine.execEorShImm c sb rn rd o s
  | .eorShReg c sb rn rd o => Sys2Proof.Machine.execEorShReg c sb rn rd o s
  | .subImm c sb rn rd o => Sys2Proof.Machine.execSubImm c sb rn rd o s
  | .subShImm c sb rn rd o => Sys2Proof.Machine.execSubShImm c sb rn rd o s
  | .subShReg c sb rn rd o => Sys2Proof.Machine.execSubShReg c sb rn rd o s
  | .rsbImm c sb rn rd o => Sys2Proof.Machine.execRsbImm c sb rn rd o s
  | .rsbShImm c sb rn rd o => Sys2Proof.Machine.execRsbShImm c sb rn rd o s
  | .rsbShReg c sb rn rd o => Sys2Proof.Machine.execRsbShReg c sb rn rd o s
  | .addImm c sb rn rd o => Sys2Proof.Machine.execAddImm c sb rn rd o s
  | .addShImm c sb rn rd o => Sys2Proof.Machine.execAddShImm c sb rn rd o s
  | .addShReg c sb rn rd o => Sys2Proof.Machine.execAddShReg c sb rn rd o s
  | .adcImm c sb rn rd o => Sys2Proof.Machine.execAdcImm c sb rn rd o s
  | .adcShImm c sb rn rd o => Sys2Proof.Machine.execAdcShImm c sb rn rd o s
  | .adcShReg c sb rn rd o => Sys2Proof.Machine.execAdcShReg c sb rn rd o s
  | .sbcImm c sb rn rd o => Sys2Proof.Machine.execSbcImm c sb rn rd o s
  | .sbcShImm c sb rn rd o => Sys2Proof.Machine.execSbcShImm c sb rn rd o s
  | .sbcShReg c sb rn rd o => Sys2Proof.Machine.execSbcShReg c sb rn rd o s
  | .rscImm c sb rn rd o => Sys2Proof.Machine.execRscImm c sb rn rd o s
  | .rscShImm c sb rn rd o => Sys2Proof.Machine.execRscShImm c sb rn rd o s
  | .rscShReg c sb rn rd o => Sys2Proof.Machine.execRscShReg c sb rn rd o s
  | .tstImm c rn rd o => Sys2Proof.Machine.execTstImm c rn rd o s
  | .tstShImm c rn rd o => Sys2Proof.Machine.execTstShImm c rn rd o s
  | .tstShReg c rn rd o => Sys2Proof.Machine.execTstShReg c rn rd o s
  | .teqImm c rn rd o => Sys2Proof.Machine.execTeqImm c rn rd o s
  | .teqShImm c rn rd o => Sys2Proof.Machine.execTeqShImm c rn rd o s
  | .teqShReg c rn rd o => Sys2Proof.Machine.execTeqShReg c rn rd o s
  | .cmpImm c rn rd o => Sys2Proof.Machine.execCmpImm c rn rd o s
  | .cmpShImm c rn rd o => Sys2Proof.Machine.execCmpShImm c rn rd o s
  | .cmpShReg c rn rd o => Sys2Proof.Machine.execCmpShReg c rn rd o s
  | .cmnImm c rn rd o => Sys2Proof.Machine.execCmnImm c rn rd o s
  | .cmnShImm c rn rd o => Sys2Proof.Machine.execCmnShImm c rn rd o s
  | .cmnShReg c rn rd o => Sys2Proof.Machine.execCmnShReg c rn rd o s
  | .orrImm c sb rn rd o => Sys2Proof.Machine.execOrrImm c sb rn rd o s
  | .orrShImm c sb rn rd o => Sys2Proof.Machine.execOrrShImm c sb rn rd o s
  | .orrShReg c sb rn rd o => Sys2Proof.Machine.execOrrShReg c sb rn rd o s
  | .movImm c sb rn rd o => Sys2Proof.Machine.execMovImm c sb rn rd o s
  | .movShImm c sb rn rd o => Sys2Proof.Machine.execMovShImm c sb rn rd o s
  | .movShReg c sb rn rd o => Sys2Proof.Machine.execMovShReg c sb rn rd o s
  | .bicImm c sb rn rd o => Sys2Proof.Machine.execBicImm c sb rn rd o s
  | .bicShImm c sb rn rd o => Sys2Proof.Machine.execBicShImm c sb rn rd o s
  | .bicShReg c sb rn rd o => Sys2Proof.Machine.execBicShReg c sb rn rd o s
  | .mvnImm c sb rn rd o => Sys2Proof.Machine.execMvnImm c sb rn rd o s
  | .mvnShImm c sb rn rd o => Sys2Proof.Machine.execMvnShImm c sb rn rd o s
  | .mvnShReg c sb rn rd o => Sys2Proof.Machine.execMvnShReg c sb rn rd o s
  | .mrs c p rd => Sys2Proof.Machine.execMrs c p rd s
  | .msrAll c p rm => Sys2Proof.Machine.execMsrAll c p rm s
  | .msrFlgReg c p rm => Sys2Proof.Machine.execMsrFlgReg c p rm s
  | .msrFlgImm c p o => Sys2Proof.Machine.execMsrFlgImm c p o s
  | .ldrImm c ix rn rd imm => Sys2Proof.Machine.execLdrImm c ix rn rd imm s
  | .ldrReg c ix rn rd o => Sys2Proof.Machine.execLdrReg c ix rn rd o s
  | .strImm c ix rn rd imm => Sys2Proof.Machine.execStrImm c ix rn rd imm s
  | .strReg c ix rn rd o => Sys2Proof.Machine.execStrReg c ix rn rd o s
  | .ldm c bm rn list => Sys2Proof.Machine.execLdm c bm rn list s
  | .stm c bm rn list => Sys2Proof.Machine.execStm c bm rn list s
  | .b c off => Sys2Proof.Machine.execB c off s
  | .bl c off => Sys2Proof.Machine.execBl c off s
  | .swi c comment => Sys2Proof.Machine.execSwi c comment s
  | .undef c hi lo => Sys2Proof.Machine.execUndef c hi lo s
  | .cdp c _ _ _ cp _ _ => Sys2Proof.Machine.execCdp c cp s
  | .ldc c _ _ _ cp _ => Sys2Proof.Machine.execLdc c cp s
  | .stc c _ _ _ cp _ => Sys2Proof.Machine.execStc c cp s
  | .mrc c _ _ _ cp _ _ => Sys2Proof.Machine.execMrc c cp s
  | .mcr c _ _ _ cp _ _ => Sys2Proof.Machine.execMcr c cp s

end Sys2Proof.Machine
end

