-- ==== Sys2Proof/Machine/Boundary.lean ====
section
/-! DEFINITION. What happens at an instruction boundary: the environment, interrupts, and the fetch
(60_exceptions.md R221, R240 to R246; 20_memory.md R68). -/

namespace Sys2Proof.Machine

/-- The environment has completed an nRESET pulse at this boundary (R221 step 1). -/
def resetSeen (s : State) : Bool :=
  match s.schedule with
  | [] => false
  | b :: _ => b.reset

/-- The environment acts at this boundary: the next entry of the schedule sets the lines and the stores of
other bus masters reach memory (20_memory.md R77); with no entry left the lines keep their levels. -/
def sample (s : State) : State :=
  match s.schedule with
  | [] => s
  | b :: rest => { s with mem := s.mem.setWords b.stores, lines := b.lines, schedule := rest }

/-- What `Fetch(pc)` answers (20_memory.md R68). -/
inductive Fetched where
  /-- The access was aborted: the word is marked invalid. -/
  | invalid
  /-- Nothing has populated the word (log 5). -/
  | unpopulated
  | word (w : Word)
deriving DecidableEq, Repr

/-- `Fetch(pc)` (20_memory.md R68). -/
def fetch (s : State) : Fetched :=
  if s.aborted .fetch s.pcBits then .invalid
  else match s.mem.word s.pcBits with
    | none => .unpopulated
    | some w => .word w

/-- An FIQ is taken at this boundary (R241, R242). -/
def fiqTaken (s : State) : Bool := s.lines.fiqLow && !s.cpsr.f

/-- An IRQ is taken at this boundary if no FIQ is (R241, R243). -/
def irqTaken (s : State) : Bool := s.lines.irqLow && !s.cpsr.i

/-- Run the instruction word at the PC (R221 steps 5 and 6). -/
def runWord (w : Word) (s : State) : Result :=
  match decodeWord w with
  | .error e => .refused (.undecodable e)
  | .ok i => exec i s

/-- Steps 2 to 6 of R221. -/
def stepAtBoundary (s : State) : Result :=
  if fiqTaken s then .next (takeException .fiq s)
  else if irqTaken s then .next (takeException .irq s)
  else match fetch s with
    | .invalid => .next (takeException .prefetchAbort s)
    | .unpopulated => .fault .unmappedFetch
    | .word w => runWord w s

/-- The state whose next step runs word `w` at the PC, whatever the environment was doing. -/
def placeInstruction (s : State) (w : Word) : State :=
  { s with
    mem := s.mem.setWord s.pcBits w
    lines :=
      { fiqLow := false, irqLow := false
        aborts := s.lines.aborts.filter (fun x => x != ⟨.fetch, s.pcBits⟩) }
    schedule := [] }

end Sys2Proof.Machine
end

