-- ==== Sys2Proof/Machine/Step.lean ====
section
/-! DEFINITION. One step of the processor (60_exceptions.md R221). -/

namespace Sys2Proof.Machine

/-- One step (R221): the environment acts at the instruction boundary; then a completed nRESET pulse, FIQ, IRQ,
a prefetch abort, or the instruction at the PC, in that order. -/
def step (s : State) : Host.Outcome State Fault Refusal :=
  if resetSeen s then .next (takeReset (sample s)) else stepAtBoundary (sample s)

/-- The state with a row's word as the instruction the next step runs: the word is stored at the PC, the
schedule is emptied, and no interrupt or prefetch abort is pending. At `State.reset` only memory changes. -/
def State.withFetchWord (s : State) (nbits w : Nat) : State := placeInstruction s (BitVec.ofNat 32 (w % 2 ^ nbits))

end Sys2Proof.Machine
end

