-- ==== Sys2Proof/WellFormed.lean ====
section
/-! DEFINITION. The operand rules an instruction must meet whatever the state: the combinations that
41_data_processing.md R165, 42_psr_transfer.md R180 to R182, 43_single_data_transfer.md R191 (b to f) and
44_block_data_transfer.md R207 (a to d, f) refuse. What depends on the state (User mode, an unaligned
address, a store into the prefetched words, R290) is checked by the meanings alone. -/

namespace Sys2Proof

/-- Write-back happens when P = 0 or W = 1 (R190). -/
def Index.writesBack (ix : Index) : Bool := !ix.p || ix.w

/-- R191 (b), (c) and (d): no P = 0 with W = 1, no write-back to R15 or to the transferred register. -/
def Index.wellFormed (ix : Index) (rn rd : Reg) : Bool :=
  !(!ix.p && ix.w) && !(ix.writesBack && (rn == 15#4 || rd == rn))

/-- R191 (e) and (f): an offset register that is not R15, nor the written-back base. -/
def ShImm.wellFormedOffset (o : ShImm) (ix : Index) (rn : Reg) : Bool :=
  o.rm != 15#4 && !(ix.writesBack && o.rm == rn)

/-- Register `r` is in the list (R106). -/
def inList (list : BitVec 16) (r : Reg) : Bool := list.getLsbD r.toNat

/-- No register of the list has a lower number than `r`. -/
def noneBelow (list : BitVec 16) (r : Reg) : Bool :=
  (List.range r.toNat).all fun k => !list.getLsbD k

/-- R207 (a), (b), (c) and (f) for LDM. -/
def wellFormedLdm (bm : BlockMode) (rn : Reg) (list : BitVec 16) : Bool :=
  list != 0#16 && rn != 15#4 && !(bm.w && inList list rn) && !(bm.s && !inList list 15#4 && bm.w)

/-- R207 (a), (b), (d) and (f) for STM. -/
def wellFormedStm (bm : BlockMode) (rn : Reg) (list : BitVec 16) : Bool :=
  list != 0#16 && rn != 15#4 && !(bm.w && inList list rn && !noneBelow list rn) && !(bm.s && bm.w)

/-- The operand rules of every instruction. -/
def Instr.wellFormed : Instr → Bool
  | .andImm _ _ _ _ _ => true
  | .andShImm _ _ _ _ _ => true
  | .andShReg _ _ _ _ o => o.rs != 15#4
  | .eorImm _ _ _ _ _ => true
  | .eorShImm _ _ _ _ _ => true
  | .eorShReg _ _ _ _ o => o.rs != 15#4
  | .subImm _ _ _ _ _ => true
  | .subShImm _ _ _ _ _ => true
  | .subShReg _ _ _ _ o => o.rs != 15#4
  | .rsbImm _ _ _ _ _ => true
  | .rsbShImm _ _ _ _ _ => true
  | .rsbShReg _ _ _ _ o => o.rs != 15#4
  | .addImm _ _ _ _ _ => true
  | .addShImm _ _ _ _ _ => true
  | .addShReg _ _ _ _ o => o.rs != 15#4
  | .adcImm _ _ _ _ _ => true
  | .adcShImm _ _ _ _ _ => true
  | .adcShReg _ _ _ _ o => o.rs != 15#4
  | .sbcImm _ _ _ _ _ => true
  | .sbcShImm _ _ _ _ _ => true
  | .sbcShReg _ _ _ _ o => o.rs != 15#4
  | .rscImm _ _ _ _ _ => true
  | .rscShImm _ _ _ _ _ => true
  | .rscShReg _ _ _ _ o => o.rs != 15#4
  | .tstImm _ _ rd _ => rd != 15#4
  | .tstShImm _ _ rd _ => rd != 15#4
  | .tstShReg _ _ rd o => o.rs != 15#4 && rd != 15#4
  | .teqImm _ _ rd _ => rd != 15#4
  | .teqShImm _ _ rd _ => rd != 15#4
  | .teqShReg _ _ rd o => o.rs != 15#4 && rd != 15#4
  | .cmpImm _ _ rd _ => rd != 15#4
  | .cmpShImm _ _ rd _ => rd != 15#4
  | .cmpShReg _ _ rd o => o.rs != 15#4 && rd != 15#4
  | .cmnImm _ _ rd _ => rd != 15#4
  | .cmnShImm _ _ rd _ => rd != 15#4
  | .cmnShReg _ _ rd o => o.rs != 15#4 && rd != 15#4
  | .orrImm _ _ _ _ _ => true
  | .orrShImm _ _ _ _ _ => true
  | .orrShReg _ _ _ _ o => o.rs != 15#4
  | .movImm _ _ _ _ _ => true
  | .movShImm _ _ _ _ _ => true
  | .movShReg _ _ _ _ o => o.rs != 15#4
  | .bicImm _ _ _ _ _ => true
  | .bicShImm _ _ _ _ _ => true
  | .bicShReg _ _ _ _ o => o.rs != 15#4
  | .mvnImm _ _ _ _ _ => true
  | .mvnShImm _ _ _ _ _ => true
  | .mvnShReg _ _ _ _ o => o.rs != 15#4
  | .mrs _ _ rd => rd != 15#4
  | .msrAll _ _ rm => rm != 15#4
  | .msrFlgReg _ _ rm => rm != 15#4
  | .msrFlgImm _ _ _ => true
  | .ldrImm _ ix rn rd _ => ix.wellFormed rn rd
  | .ldrReg _ ix rn rd o => ix.wellFormed rn rd && o.wellFormedOffset ix rn
  | .strImm _ ix rn rd _ => ix.wellFormed rn rd
  | .strReg _ ix rn rd o => ix.wellFormed rn rd && o.wellFormedOffset ix rn
  | .ldm _ bm rn list => wellFormedLdm bm rn list
  | .stm _ bm rn list => wellFormedStm bm rn list
  | .b _ _ => true
  | .bl _ _ => true
  | .swi _ _ => true
  | .undef _ _ _ => true
  | .cdp _ _ _ _ _ _ _ => true
  | .ldc _ _ _ _ _ _ => true
  | .stc _ _ _ _ _ _ => true
  | .mrc _ _ _ _ _ _ _ => true
  | .mcr _ _ _ _ _ _ _ => true

end Sys2Proof
end

