-- ==== Sys2Proof/Certificates/Slice0/Obligations.lean ====
section
/-! DEFINITION. The statements for the provers. `Sys2Proof.Claims` holds the vocabulary they share: the operands
and results of the rules written out without the machine's own effects, and the next states as updates. -/

namespace Sys2Proof.Claims

open Sys2Proof.Machine

/-! ### Vocabulary -/

/-- The instruction has its effect: its condition holds (30_encoding.md R95), and if the instruction before it
was an LDM of User-bank registers it reads no register banked in the current mode (70_reset_and_hazards.md R290). -/
abbrev executes (c : Cond) (reads : List Reg) (s : State) : Prop :=
  conditionPassed c s.cpsr.flags = true ∧ (s.userLdm = true → ∀ r ∈ reads, bankedIn s.cpsr.mode r = false)

/-- Nothing but `pc <- pc + 4` (10_state.md R30). -/
def advanced (s : State) : State := { s with pcBits := s.pcBits + 1, userLdm := false }

/-- A general register and, with S = 1, the flags are written, and `pc <- pc + 4` (41_data_processing.md R140). -/
def wrote (s : State) (p : PhysReg) (result : Word) (sb : Bool) (f : Flags) : State :=
  { s with
    gpr := s.gpr.set p result
    cpsr := { s.cpsr with flags := if sb then f else s.cpsr.flags }
    pcBits := s.pcBits + 1
    userLdm := false }

/-- Only the flags are written, and `pc <- pc + 4` (R155 to R158). -/
def compared (s : State) (f : Flags) : State :=
  { s with cpsr := { s.cpsr with flags := f }, pcBits := s.pcBits + 1, userLdm := false }

/-- A write of R15: `pc <- target[31:2] :: 00` (10_state.md R29). -/
def jumped (s : State) (target : Word) : State := { s with pcBits := target.extractLsb' 2 30, userLdm := false }

/-- A jump that also restores the CPSR from a saved one (41_data_processing.md R164). -/
def returned (s : State) (target : Word) (q : Psr) (m : Mode) : State :=
  { s with pcBits := target.extractLsb' 2 30, cpsr := ⟨q.flags, q.i, q.f, m⟩, userLdm := false }

/-- The CPSR as an exception saves it (10_state.md R39). -/
def saved (c : Cpsr) : Psr := ⟨c.flags, c.i, c.f, c.mode.bits⟩

/-- The state after a data abort whose instruction left the registers `g` (60_exceptions.md R247). -/
def dataAborted (s : State) (g : GenRegs) : State :=
  { s with
    gpr := g.set .r14_abt (s.pc + 8)
    spsrs := { s.spsrs with abt := saved s.cpsr }
    cpsr := { s.cpsr with mode := .abt, i := true }
    pcBits := 4
    userLdm := false }

/-- The state after the undefined instruction trap (60_exceptions.md R248). -/
def undefinedTrapped (s : State) : State :=
  { s with
    gpr := s.gpr.set .r14_und (s.pc + 4)
    spsrs := { s.spsrs with und := saved s.cpsr }
    cpsr := { s.cpsr with mode := .und, i := true }
    pcBits := 1
    userLdm := false }

/-! ### Data processing -/

/-- The flags of a logical instruction with S = 1 (R140). -/
def logicalFlags (r : Word) (sc : Bool) (old : Flags) : Flags := ⟨r.getLsbD 31, r == 0#32, sc, old.v⟩

/-- An exact result that does not fit in 32 bits as a signed number (R149). -/
def overflows (x : Int) : Bool := decide (x < -2 ^ 31) || decide (2 ^ 31 ≤ x)

/-- The flags of an arithmetic instruction with S = 1: the result, the carry, and the exact signed result. -/
def arithFlags (r : Word) (c : Bool) (exact : Int) : Flags := ⟨r.getLsbD 31, r == 0#32, c, overflows exact⟩

/-- The result of a data-processing operation from its first operand, its second and the old C (R147 to R162). -/
def resultOf (op : DpOp) (a b : Word) (c : Bool) : Word :=
  match op with
  | .and | .tst => a &&& b
  | .eor | .teq => a ^^^ b
  | .sub | .cmp => a - b
  | .rsb => b - a
  | .add | .cmn => a + b
  | .adc => a + b + (if c then 1 else 0)
  | .sbc => a - b - (if c then 0 else 1)
  | .rsc => b - a - (if c then 0 else 1)
  | .orr => a ||| b
  | .mov => b
  | .bic => a &&& ~~~b
  | .mvn => ~~~b

/-- The registers a data-processing instruction reads: MOV and MVN do not read Rn (R160, R162). -/
def sources (op : DpOp) (rn : Reg) (o2 : Operand2) : List Reg :=
  match op with
  | .mov | .mvn => operandReads o2
  | _ => rn :: operandReads o2

/-- A shift by register does not name R15 as the register of its amount (R165 a). -/
def shiftRegisterAllowed : Operand2 → Bool
  | .shReg o => o.rs != 15#4
  | _ => true

/-- The first operand: R15 reads as `pc + 8`, or `pc + 12` in a shift by register (R140). -/
def firstOperand (s : State) (rn : Reg) (o2 : Operand2) : Word :=
  s.readReg rn (match o2 with | .shReg _ => 12 | _ => 8)

/-- The word whose bit k is bit (k + n) mod 32 of `m`, said of a word `r`: `r = ROR(m, n)` (00_scope.md R10). -/
def isRotation (r m : Word) (n : Nat) : Prop := ∀ k, k < 32 → r.getLsbD k = m.getLsbD ((k + n) % 32)

/-! ### Transfers -/

/-- LDR with either form of offset. -/
def ldr (c : Cond) (ix : Index) (rn rd : Reg) : Offset → Instr
  | .imm v => .ldrImm c ix rn rd v
  | .reg o => .ldrReg c ix rn rd o

/-- STR with either form of offset. -/
def str (c : Cond) (ix : Index) (rn rd : Reg) : Offset → Instr
  | .imm v => .strImm c ix rn rd v
  | .reg o => .strReg c ix rn rd o

/-- The offset of R190: the shifter's value without its carry for a register offset. -/
def offsetOf (off : Offset) (s : State) : Word :=
  match off with
  | .imm v => v.zeroExtend 32
  | .reg o => (shifter (.shImm o) s).1

/-- `target` of R190. -/
def targetOf (ix : Index) (rn : Reg) (off : Offset) (s : State) : Word :=
  if ix.u then s.readReg rn 8 + offsetOf off s else s.readReg rn 8 - offsetOf off s

/-- `addr` of R190. -/
def addrOf (ix : Index) (rn : Reg) (off : Offset) (s : State) : Word :=
  if ix.p then targetOf ix rn off s else s.readReg rn 8

/-- The registers after the write-back of `v` to Rn, if there is one. -/
def writtenBack (s : State) (wb : Bool) (rn : Reg) (v : Word) : GenRegs :=
  if wb then
    match phys s.cpsr.mode rn with
    | some p => s.gpr.set p v
    | none => s.gpr
  else s.gpr

/-- The word address of the k-th register of a block data transfer (44_block_data_transfer.md R200). -/
def slot (bm : BlockMode) (base : Word) (n k : Nat) : WordAddr :=
  (blockStart bm base n + BitVec.ofNat 32 (4 * k)).extractLsb' 2 30

/-- The bank a block data transfer names: the User bank for S = 1, but for an LDM that loads R15 (R203 to R205). -/
def bankOf (bm : BlockMode) (load : Bool) (list : BitVec 16) (s : State) : Mode :=
  if bm.s && !(load && list.getLsbD 15) then .usr else s.cpsr.mode

/-- The registers `g` hold the loaded values `v` in the registers of the bank, and everywhere else the value
they had, but for the base register, which holds `base` if it is given (R201, R204, R206). -/
def loaded (s : State) (g : GenRegs) (bank : Mode) (regs : List Reg) (v : Nat → Word) (base : Option (PhysReg × Word)) :
    Prop :=
  (∀ k r p, regs[k]? = some r → phys bank r = some p → (∀ x, base = some x → x.1 ≠ p) → g.get p = v k) ∧
  (∀ x, base = some x → g.get x.1 = x.2) ∧
  (∀ p, (∀ r ∈ regs, phys bank r ≠ some p) → (∀ x, base = some x → x.1 ≠ p) → g.get p = s.gpr.get p)

/-- The word that data access `k` of an instruction finds at `a`: other bus masters have stored theirs before it
(20_memory.md R66, R77; log 12). -/
def found (s : State) (k : Nat) (a : WordAddr) : Option Word := (s.othersStores (k + 1)).mem.word a

/-- How many of the reads before read `k` of an instruction find no word, and so draw a free value (log 4, 19). -/
def drawsBefore (s : State) (addr : Nat → WordAddr) (k : Nat) : Nat :=
  ((List.range k).filter fun j => (found s j (addr j)).isNone).length

/-- What read `k` of an instruction answers when it is not aborted: the word it finds, or the next free value (R66). -/
def valueRead (s : State) (addr : Nat → WordAddr) (k : Nat) : Word :=
  match found s k (addr k) with
  | some w => w
  | none => Config.draw (s.draws + drawsBefore s addr k)

/-- Another bus master stores to `a` after data access `k` of an instruction that makes `n` accesses (R77; log 12). -/
def storedLater (s : State) (n k : Nat) (a : WordAddr) : Prop :=
  ∃ (j : Nat) (ws : List (WordAddr × Word)) (x : WordAddr × Word),
    k < j ∧ j < n ∧ s.others[j]? = some ws ∧ x ∈ ws ∧ x.1 = a

/-- How many data accesses an instruction makes when its condition holds (R64). -/
def accesses : Instr → Nat
  | .ldrImm .. | .ldrReg .. | .strImm .. | .strReg .. => 1
  | .ldm _ _ _ list | .stm _ _ _ list => (regsOf list).length
  | _ => 0

/-- A word address that a byte address does not lie in. -/
def outside (a : WordAddr) (b : Nat) : Prop := b < byteAddr a ∨ byteAddr a + 4 ≤ b

/-- The return instruction of an exception (60_exceptions.md R222, R254). -/
def returnInstr : Exc → Instr
  | .undefinedInstruction | .softwareInterrupt => .movShImm .al true 0 15 ⟨0, .lsl, 14⟩
  | .dataAbort => .subImm .al true 14 15 ⟨0, 8⟩
  | .prefetchAbort | .irq | .fiq => .subImm .al true 14 15 ⟨0, 4⟩

/-- A word that is one of the four PSR transfer encodings (30_encoding.md R93). -/
def isPsrTransfer (w : Word) : Bool :=
  Row.matches ⟨0x0FBF0FFF#32, 0x010F0000#32⟩ w || Row.matches ⟨0x0FBFFFF0#32, 0x0129F000#32⟩ w
    || Row.matches ⟨0x0FBFFFF0#32, 0x0128F000#32⟩ w || Row.matches ⟨0x0FBFF000#32, 0x0328F000#32⟩ w

/-- A store instruction (20_memory.md R64). -/
def isStore : Instr → Bool
  | .strImm .. | .strReg .. | .stm .. => true
  | _ => false

end Sys2Proof.Claims

open Sys2Proof Sys2Proof.Machine Sys2Proof.Claims

/-! ### Encoding, and the bank map -/

/-- Decoding an encoded instruction gives the instruction back, for every instruction and every field
(30_encoding.md R91 to R106). -/
def Obligations.DecodeEncodeRoundTrip : Prop := ∀ i : Instr, decodeWord (encode i) = .ok i

/-- Encoding a decoded word gives the word back: no bit of a word is dropped (R91 to R106). -/
def Obligations.EncodeDecodeRoundTrip : Prop := ∀ (w : Word) (i : Instr), decodeWord w = .ok i → encode i = w

/-- A decoded word has the fixed bits of its instruction's row, which is a row of the opcode table, and no word matches
two different rows (R107). -/
def Obligations.DecodedWordMatchesItsRow : Prop :=
  (∀ (w : Word) (i : Instr), decodeWord w = .ok i → i.row ∈ opcodeTable ∧ i.row.matches w = true) ∧
  ∀ r1 ∈ opcodeTable, ∀ r2 ∈ opcodeTable, ∀ w : Word, r1.matches w = true → r2.matches w = true → r1 = r2

/-- The bank map: the physical register of every number in every mode (10_state.md R23), which is the one a read sees and
a write changes; the SPSR of each mode; and the six values of M[4:0] (R36), of which reset leaves Supervisor's, the 26
others being the value of no mode. -/
def Obligations.BankMap : Prop :=
  (∀ m : Mode, phys m 0 = some .r0 ∧ phys m 1 = some .r1 ∧ phys m 2 = some .r2 ∧ phys m 3 = some .r3 ∧
    phys m 4 = some .r4 ∧ phys m 5 = some .r5 ∧ phys m 6 = some .r6 ∧ phys m 7 = some .r7 ∧ phys m 15 = none) ∧
  (∀ m : Mode, m ≠ .fiq → phys m 8 = some .r8 ∧ phys m 9 = some .r9 ∧ phys m 10 = some .r10 ∧
    phys m 11 = some .r11 ∧ phys m 12 = some .r12) ∧
  (phys .fiq 8 = some .r8_fiq ∧ phys .fiq 9 = some .r9_fiq ∧ phys .fiq 10 = some .r10_fiq ∧
    phys .fiq 11 = some .r11_fiq ∧ phys .fiq 12 = some .r12_fiq) ∧
  (phys .usr 13 = some .r13_usr ∧ phys .usr 14 = some .r14_usr ∧ phys .fiq 13 = some .r13_fiq ∧
    phys .fiq 14 = some .r14_fiq ∧ phys .irq 13 = some .r13_irq ∧ phys .irq 14 = some .r14_irq ∧
    phys .svc 13 = some .r13_svc ∧ phys .svc 14 = some .r14_svc ∧ phys .abt 13 = some .r13_abt ∧
    phys .abt 14 = some .r14_abt ∧ phys .und 13 = some .r13_und ∧ phys .und 14 = some .r14_und) ∧
  (∀ (s : State) (n : Reg) (p : PhysReg) (off : Word), phys s.cpsr.mode n = some p → s.readReg n off = s.gpr.get p) ∧
  (∀ (s : State) (off : Word), s.readReg 15 off = s.pc + off) ∧
  (∀ (g : GenRegs) (p q : PhysReg) (v : Word), (g.set p v).get q = if q = p then v else g.get q) ∧
  (∀ q : Spsrs, q.get .usr = none ∧ q.get .fiq = some q.fiq ∧ q.get .irq = some q.irq ∧ q.get .svc = some q.svc ∧
    q.get .abt = some q.abt ∧ q.get .und = some q.und) ∧
  (Mode.usr.bits = 0b10000#5 ∧ Mode.fiq.bits = 0b10001#5 ∧ Mode.irq.bits = 0b10010#5 ∧ Mode.svc.bits = 0b10011#5 ∧
    Mode.abt.bits = 0b10111#5 ∧ Mode.und.bits = 0b11011#5 ∧ State.reset.cpsr.mode = .svc) ∧
  (∀ (b : BitVec 5) (m : Mode), Mode.ofBits b = some m ↔ b = m.bits) ∧
  (∀ b : BitVec 5, Mode.ofBits b = none ↔ ∀ m : Mode, b ≠ m.bits)

/-- Exactly the words of R96 and of the first three rows of R108 are refused at decode, each by its own name, in the
order of R91. (The fourth row of R108, PostIndexedT, matches a row and is refused by R191.) -/
def Obligations.DecodeRefusesExactly : Prop :=
  ∀ (w : Word) (e : DecodeError), decodeWord w = .error e ↔
    (e = .conditionNV ∧ field w 28 4 = 15#4) ∨
    (field w 28 4 ≠ 15#4 ∧
      ((e = .multiplySwapHalfwordSpace ∧ field w 25 3 = 0#3 ∧ bit w 7 = true ∧ bit w 4 = true) ∨
       (e = .psrSpaceOther ∧ field w 26 2 = 0#2 ∧ field w 23 2 = 2#2 ∧ bit w 20 = false ∧
          ¬ (field w 25 3 = 0#3 ∧ bit w 7 = true ∧ bit w 4 = true) ∧ isPsrTransfer w = false) ∨
       (e = .byteTransfer ∧ field w 26 2 = 1#2 ∧ bit w 22 = true ∧ ¬ (bit w 25 = true ∧ bit w 4 = true))))

/-- Words the spec writes out decode to the instructions the spec says (41 to 45, 95_test_vectors.md). -/
def Obligations.SampleWordsDecode : Prop :=
  decodeWord 0xE25EF004#32 = .ok (.subImm .al true 14 15 ⟨0, 4⟩) ∧
  decodeWord 0xE1A0031F#32 = .ok (.movShReg .al false 0 0 ⟨3, .lsl, 15⟩) ∧
  decodeWord 0xE169F002#32 = .ok (.msrAll .al true 2) ∧
  decodeWord 0xE5B10004#32 = .ok (.ldrImm .al ⟨true, true, true⟩ 1 0 4) ∧
  decodeWord 0xE7910102#32 = .ok (.ldrReg .al ⟨true, true, false⟩ 1 0 ⟨2, .lsl, 2⟩) ∧
  decodeWord 0xE8FD8001#32 = .ok (.ldm .al ⟨false, true, true, true⟩ 13 0x8001) ∧
  decodeWord 0xEB000002#32 = .ok (.bl .al 2) ∧
  decodeWord 0xEF123456#32 = .ok (.swi .al 0x123456) ∧
  decodeWord 0xE7F000F0#32 = .ok (.undef .al 0xF8007 0) ∧
  decodeWord 0xEE100110#32 = .ok (.mrc .al 0 0 0 1 0 0)

/-- An instruction that breaks an operand rule (41 R165, 42 R180 to R182, 43 R191, 44 R207) is refused whenever its
condition holds, whatever the state. -/
def Obligations.IllFormedIsRefused : Prop :=
  ∀ (i : Instr) (s : State), i.wellFormed = false → conditionPassed i.cond s.cpsr.flags = true →
    ∃ r : Refusal, exec i s = .refused r

/-! ### The step -/

/-- Without a reset, an interrupt or an aborted fetch, a step is `exec` of the instruction that the word at the PC
decodes to, at the state the environment leaves at the boundary (60_exceptions.md R221). -/
def Obligations.StepRunsDecodedInstruction : Prop :=
  ∀ (s : State) (w : Word) (i : Instr), resetSeen s = false → fiqTaken (sample s) = false →
    irqTaken (sample s) = false → (sample s).aborted .fetch (sample s).pcBits = false →
    (sample s).mem.word (sample s).pcBits = some w → decodeWord w = .ok i → step s = exec i (sample s)

/-- A word placed for the next step runs as the instruction it encodes, in every state (the model's own loader, log
21; for every byte order, log 1). -/
def Obligations.PlacedInstructionRuns : Prop :=
  ∀ (s : State) (i : Instr),
    step (s.withFetchWord 32 (encode i).toNat) = exec i (s.withFetchWord 32 (encode i).toNat)

/-- Reset leaves Supervisor mode, I = F = 1 and pc = 0 (10_state.md R46). -/
def Obligations.ResetState : Prop :=
  State.reset.cpsr.mode.bits = 0b10011#5 ∧ State.reset.cpsr.i = true ∧ State.reset.cpsr.f = true ∧
  State.reset.pc = 0x00000000#32

/-- A reset at a boundary is taken before anything else is looked at: M, I, F and the PC are forced, memory keeps what the
boundary leaves there, and every general register, the flags and each SPSR is a free value, each a different one
(70_reset_and_hazards.md R281, R282). The form of the free values and their count, and what becomes of the environment's
schedule, are the model's (log 3, 9, 11, 12, 19). -/
def Obligations.StepTakesReset : Prop :=
  ∃ (kr : PhysReg → Nat) (ks : Mode → Nat) (kf : Nat),
    (∀ p, kr p < 36 ∧ kr p ≠ kf ∧ ∀ q, kr p = kr q → p = q) ∧ kf < 36 ∧
    (∀ m, m ≠ .usr → ks m < 36 ∧ ks m ≠ kf ∧ (∀ p, kr p ≠ ks m) ∧ ∀ m', m' ≠ .usr → ks m = ks m' → m = m') ∧
    ∀ (s : State) (b : Boundary) (rest : List Boundary), s.schedule = b :: rest → b.reset = true →
      ∃ t : State, step s = .next t ∧ t.cpsr.mode = .svc ∧ t.cpsr.i = true ∧ t.cpsr.f = true ∧ t.pc = 0#32 ∧
        (∀ p, t.gpr.get p = Config.draw (s.draws + kr p)) ∧
        t.cpsr.flags = Flags.ofWord (Config.draw (s.draws + kf)) ∧
        (∀ m, m ≠ .usr → t.spsrs.get m = some (Psr.ofWord (Config.draw (s.draws + ks m)))) ∧
        t.mem = s.mem.setWords b.stores ∧ t.userLdm = false ∧ t.lines = b.lines ∧ t.schedule = rest ∧
        t.others = s.others ∧ t.draws = s.draws + 36

/-- FIQ entry, before IRQ and before the fetch, and `SUBS PC, R14, #4` resumes the interrupted code (60_exceptions.md
R242). -/
def Obligations.FiqEntry : Prop :=
  ∀ s u : State, resetSeen s = false → u = sample s → u.lines.fiqLow = true → u.cpsr.f = false →
    ∃ t : State, step s = .next t ∧ t = { u with
        gpr := u.gpr.set .r14_fiq (u.pc + 4)
        spsrs := { u.spsrs with fiq := saved u.cpsr }
        cpsr := ⟨u.cpsr.flags, true, true, .fiq⟩
        pcBits := 7
        userLdm := false } ∧
      exec (.subImm .al true 14 15 ⟨0, 4⟩) t = .next { t with cpsr := u.cpsr, pcBits := u.pcBits }

/-- IRQ entry when no FIQ is taken, before the fetch; F is unchanged; `SUBS PC, R14, #4` resumes the interrupted code
(R243). -/
def Obligations.IrqEntry : Prop :=
  ∀ s u : State, resetSeen s = false → u = sample s → (u.lines.fiqLow = true → u.cpsr.f = true) →
    u.lines.irqLow = true → u.cpsr.i = false →
    ∃ t : State, step s = .next t ∧ t = { u with
        gpr := u.gpr.set .r14_irq (u.pc + 4)
        spsrs := { u.spsrs with irq := saved u.cpsr }
        cpsr := ⟨u.cpsr.flags, true, u.cpsr.f, .irq⟩
        pcBits := 6
        userLdm := false } ∧
      exec (.subImm .al true 14 15 ⟨0, 4⟩) t = .next { t with cpsr := u.cpsr, pcBits := u.pcBits }

/-- A prefetch abort when no interrupt is taken, whatever the word at the PC; `SUBS PC, R14, #4` goes back to the
aborted instruction (R246). -/
def Obligations.PrefetchAbortEntry : Prop :=
  ∀ s u : State, resetSeen s = false → u = sample s → (u.lines.fiqLow = true → u.cpsr.f = true) →
    (u.lines.irqLow = true → u.cpsr.i = true) → u.aborted .fetch u.pcBits = true →
    ∃ t : State, step s = .next t ∧ t = { u with
        gpr := u.gpr.set .r14_abt (u.pc + 4)
        spsrs := { u.spsrs with abt := saved u.cpsr }
        cpsr := ⟨u.cpsr.flags, true, u.cpsr.f, .abt⟩
        pcBits := 3
        userLdm := false } ∧
      exec (.subImm .al true 14 15 ⟨0, 4⟩) t = .next { t with cpsr := u.cpsr, pcBits := u.pcBits }

/-- A data abort that coincides with a FIQ enters the abort handler and then at once the FIQ handler, whose normal
return resumes at the abort vector; after a data abort entry no IRQ is taken (R253). Both hold at whatever boundary
follows the entry, if it brings no reset and nFIQ is LOW at it. -/
def Obligations.DataAbortThenFiq : Prop :=
  ∀ s : State, resetSeen s = false → (sample s).lines.fiqLow = true → s.cpsr.f = false →
    irqTaken (sample (takeException .dataAbort s)) = false ∧
    ∃ t : State, step (takeException .dataAbort s) = .next t ∧ t.pc = 0x1C#32 ∧ t.cpsr.mode = .fiq ∧
      t.gpr.r14_fiq = 0x00000014#32 ∧ t.spsrs.fiq = saved (takeException .dataAbort s).cpsr ∧
      t.gpr.r14_abt = s.pc + 8 ∧ t.spsrs.abt = saved s.cpsr ∧
      exec (.subImm .al true 14 15 ⟨0, 4⟩) t =
        .next { t with pcBits := 4, cpsr := ⟨s.cpsr.flags, true, false, .abt⟩ }

/-- The return instruction of each exception undoes its entry: the CPSR is the interrupted one, and the PC is the
interrupted instruction, or for SWI and the undefined instruction the one after it (R254). -/
def Obligations.ReturnUndoesEntry : Prop :=
  ∀ (e : Exc) (s : State), exec (returnInstr e) (takeException e s) = .next { takeException e s with
    cpsr := s.cpsr
    pcBits := match e with
      | .undefinedInstruction | .softwareInterrupt => s.pcBits + 1
      | _ => s.pcBits }

/-- A step stops, and does not trap, when the word at the PC is no instruction of the subset (30_encoding.md R108);
it stops when nothing has populated that word (log 5, the model's choice). -/
def Obligations.StepStopsByName : Prop :=
  ∀ s : State, resetSeen s = false → fiqTaken (sample s) = false → irqTaken (sample s) = false →
    (sample s).aborted .fetch (sample s).pcBits = false →
    (∀ (w : Word) (e : DecodeError), (sample s).mem.word (sample s).pcBits = some w → decodeWord w = .error e →
      step s = .refused (.undecodable e)) ∧
    ((sample s).mem.word (sample s).pcBits = none → step s = .fault .unmappedFetch)

/-! ### Condition and hazard -/

/-- The condition field: the tests of R95's table, and an instruction whose condition fails does nothing but
`pc <- pc + 4`, whatever the instruction. That it also ends the hazard of 70_reset_and_hazards.md R290 is the model's
reading (log 15). -/
def Obligations.ConditionField : Prop :=
  (∀ f : Flags, conditionPassed .eq f = f.z ∧ conditionPassed .ne f = !f.z ∧ conditionPassed .cs f = f.c ∧
    conditionPassed .cc f = !f.c ∧ conditionPassed .mi f = f.n ∧ conditionPassed .pl f = !f.n ∧
    conditionPassed .vs f = f.v ∧ conditionPassed .vc f = !f.v ∧ conditionPassed .hi f = (f.c && !f.z) ∧
    conditionPassed .ls f = (!f.c || f.z) ∧ conditionPassed .ge f = decide (f.n = f.v) ∧
    conditionPassed .lt f = decide (f.n ≠ f.v) ∧ conditionPassed .gt f = (!f.z && decide (f.n = f.v)) ∧
    conditionPassed .le f = (f.z || decide (f.n ≠ f.v)) ∧ conditionPassed .al f = true) ∧
  ∀ (i : Instr) (s : State), conditionPassed i.cond s.cpsr.flags = false → exec i s = .next (advanced s)

/-- Right after an LDM of User-bank registers, an instruction that reads a register number banked in the current
mode is refused (70_reset_and_hazards.md R290); nothing else leaves that mark, and an exception entry clears it. That the
mark lasts for one instruction and that an STM of the User bank is held to it by its register numbers are the model's
reading (log 15); that this refusal is named before any other that applies is the model's order (log 17). -/
def Obligations.BankedReadHazard : Prop :=
  (∀ (s : State) (c : Cond) (r : Reg), s.userLdm = true → conditionPassed c s.cpsr.flags = true →
    bankedIn s.cpsr.mode r = true →
    (∀ op sb rn rd o2, r ∈ operandReads o2 ∨ (r = rn ∧ op ≠ .mov ∧ op ≠ .mvn) →
      exec (.dp op c sb rn rd o2) s = .refused .bankedReadAfterUserLdm) ∧
    (∀ p, exec (.msrAll c p r) s = .refused .bankedReadAfterUserLdm ∧
      exec (.msrFlgReg c p r) s = .refused .bankedReadAfterUserLdm) ∧
    (∀ ix rn rd off, r = rn ∨ r ∈ off.reads → exec (ldr c ix rn rd off) s = .refused .bankedReadAfterUserLdm) ∧
    (∀ ix rn rd off, r = rn ∨ r = rd ∨ r ∈ off.reads →
      exec (str c ix rn rd off) s = .refused .bankedReadAfterUserLdm) ∧
    (∀ bm list, exec (.ldm c bm r list) s = .refused .bankedReadAfterUserLdm) ∧
    (∀ bm rn list, r = rn ∨ list.getLsbD r.toNat = true →
      exec (.stm c bm rn list) s = .refused .bankedReadAfterUserLdm)) ∧
  (∀ (i : Instr) (s t : State), exec i s = .next t → t.userLdm = true →
    ∃ c bm rn list, i = .ldm c bm rn list ∧ bm.s = true ∧ list.getLsbD 15 = false) ∧
  (∀ (e : Exc) (s : State), (takeException e s).userLdm = false)

/-! ### The shifter -/

/-- R141: a rotated immediate and its carry. -/
def Obligations.ShifterImmediate : Prop :=
  ∀ (s : State) (rotate : BitVec 4) (imm8 : BitVec 8),
    isRotation (shifter (.imm ⟨rotate, imm8⟩) s).1 (imm8.zeroExtend 32) (2 * rotate.toNat) ∧
    (shifter (.imm ⟨rotate, imm8⟩) s).2 =
      if rotate = 0#4 then s.cpsr.flags.c else (shifter (.imm ⟨rotate, imm8⟩) s).1.getLsbD 31

/-- R142: LSL by an immediate. -/
def Obligations.ShifterLslImmediate : Prop :=
  ∀ (s : State) (rm : Reg) (n : BitVec 5) (m : Word), m = s.readReg rm 8 →
    (n = 0#5 → shifter (.shImm ⟨n, .lsl, rm⟩) s = (m, s.cpsr.flags.c)) ∧
    (n ≠ 0#5 → shifter (.shImm ⟨n, .lsl, rm⟩) s = (BitVec.ofNat 32 (m.toNat * 2 ^ n.toNat), m.getLsbD (32 - n.toNat)))

/-- R143: LSR by an immediate; amount 0 means 32. -/
def Obligations.ShifterLsrImmediate : Prop :=
  ∀ (s : State) (rm : Reg) (n : BitVec 5) (m : Word), m = s.readReg rm 8 →
    (n = 0#5 → shifter (.shImm ⟨n, .lsr, rm⟩) s = (0, m.getLsbD 31)) ∧
    (n ≠ 0#5 → shifter (.shImm ⟨n, .lsr, rm⟩) s = (BitVec.ofNat 32 (m.toNat / 2 ^ n.toNat), m.getLsbD (n.toNat - 1)))

/-- R144: ASR by an immediate; amount 0 means 32. -/
def Obligations.ShifterAsrImmediate : Prop :=
  ∀ (s : State) (rm : Reg) (n : BitVec 5) (m : Word), m = s.readReg rm 8 →
    (n = 0#5 → shifter (.shImm ⟨n, .asr, rm⟩) s =
      (if m.getLsbD 31 then 0xFFFFFFFF#32 else 0#32, m.getLsbD 31)) ∧
    (n ≠ 0#5 → shifter (.shImm ⟨n, .asr, rm⟩) s = (BitVec.ofInt 32 (m.toInt / 2 ^ n.toNat), m.getLsbD (n.toNat - 1)))

/-- R145: ROR by an immediate; amount 0 means RRX. -/
def Obligations.ShifterRorImmediate : Prop :=
  ∀ (s : State) (rm : Reg) (n : BitVec 5) (m : Word), m = s.readReg rm 8 →
    (n = 0#5 →
      (shifter (.shImm ⟨n, .ror, rm⟩) s).1.toNat = s.cpsr.flags.c.toNat * 2 ^ 31 + m.toNat / 2 ∧
      (shifter (.shImm ⟨n, .ror, rm⟩) s).2 = m.getLsbD 0) ∧
    (n ≠ 0#5 →
      isRotation (shifter (.shImm ⟨n, .ror, rm⟩) s).1 m n.toNat ∧
      (shifter (.shImm ⟨n, .ror, rm⟩) s).2 = m.getLsbD (n.toNat - 1) ∧
      (shifter (.shImm ⟨n, .ror, rm⟩) s).2 = (shifter (.shImm ⟨n, .ror, rm⟩) s).1.getLsbD 31)

/-- R146: shift by the low byte of a register. -/
def Obligations.ShifterByRegister : Prop :=
  ∀ (s : State) (rm rs : Reg) (m : Word) (n : Nat), m = s.readReg rm 12 → n = (s.readReg rs 12).toNat % 256 →
    (n = 0 → ∀ ty, shifter (.shReg ⟨rs, ty, rm⟩) s = (m, s.cpsr.flags.c)) ∧
    (0 < n ∧ n < 32 →
      shifter (.shReg ⟨rs, .lsl, rm⟩) s = (BitVec.ofNat 32 (m.toNat * 2 ^ n), m.getLsbD (32 - n)) ∧
      shifter (.shReg ⟨rs, .lsr, rm⟩) s = (BitVec.ofNat 32 (m.toNat / 2 ^ n), m.getLsbD (n - 1)) ∧
      shifter (.shReg ⟨rs, .asr, rm⟩) s = (BitVec.ofInt 32 (m.toInt / 2 ^ n), m.getLsbD (n - 1))) ∧
    (n = 32 →
      shifter (.shReg ⟨rs, .lsl, rm⟩) s = (0, m.getLsbD 0) ∧
      shifter (.shReg ⟨rs, .lsr, rm⟩) s = (0, m.getLsbD 31)) ∧
    (32 < n →
      shifter (.shReg ⟨rs, .lsl, rm⟩) s = (0, false) ∧ shifter (.shReg ⟨rs, .lsr, rm⟩) s = (0, false)) ∧
    (32 ≤ n → shifter (.shReg ⟨rs, .asr, rm⟩) s = (if m.getLsbD 31 then 0xFFFFFFFF#32 else 0#32, m.getLsbD 31)) ∧
    (0 < n ∧ n % 32 = 0 → shifter (.shReg ⟨rs, .ror, rm⟩) s = (m, m.getLsbD 31)) ∧
    (n % 32 ≠ 0 →
      isRotation (shifter (.shReg ⟨rs, .ror, rm⟩) s).1 m (n % 32) ∧
      (shifter (.shReg ⟨rs, .ror, rm⟩) s).2 = m.getLsbD (n % 32 - 1))

/-! ### Data processing -/

/-- AND, EOR, ORR, BIC, MOV and MVN into a register other than R15, in every operand form, with S = 0 or 1: the
whole next state (R147, R148, R159, R161, R160, R162). -/
def Obligations.LogicalResults : Prop :=
  ∀ (s : State) (c : Cond) (sb : Bool) (rn rd : Reg) (o2 : Operand2) (p : PhysReg) (a b : Word) (sc : Bool),
    phys s.cpsr.mode rd = some p → shiftRegisterAllowed o2 = true → a = firstOperand s rn o2 →
    b = (shifter o2 s).1 → sc = (shifter o2 s).2 →
    (executes c (rn :: operandReads o2) s →
      exec (.dp .and c sb rn rd o2) s = .next (wrote s p (a &&& b) sb (logicalFlags (a &&& b) sc s.cpsr.flags)) ∧
      exec (.dp .eor c sb rn rd o2) s = .next (wrote s p (a ^^^ b) sb (logicalFlags (a ^^^ b) sc s.cpsr.flags)) ∧
      exec (.dp .orr c sb rn rd o2) s = .next (wrote s p (a ||| b) sb (logicalFlags (a ||| b) sc s.cpsr.flags)) ∧
      exec (.dp .bic c sb rn rd o2) s =
        .next (wrote s p (a &&& ~~~b) sb (logicalFlags (a &&& ~~~b) sc s.cpsr.flags))) ∧
    (executes c (operandReads o2) s →
      exec (.dp .mov c sb rn rd o2) s = .next (wrote s p b sb (logicalFlags b sc s.cpsr.flags)) ∧
      exec (.dp .mvn c sb rn rd o2) s = .next (wrote s p (~~~b) sb (logicalFlags (~~~b) sc s.cpsr.flags)))

/-- SUB, RSB and ADD into a register other than R15: the whole next state; C is "no borrow" or the carry out of bit
31, V says that the exact signed result does not fit (R149, R150, R151). -/
def Obligations.AddSubtractResults : Prop :=
  ∀ (s : State) (c : Cond) (sb : Bool) (rn rd : Reg) (o2 : Operand2) (p : PhysReg) (a b : Word),
    phys s.cpsr.mode rd = some p → shiftRegisterAllowed o2 = true → a = firstOperand s rn o2 →
    b = (shifter o2 s).1 → executes c (rn :: operandReads o2) s →
    exec (.dp .sub c sb rn rd o2) s = .next (wrote s p (a - b) sb
      (arithFlags (a - b) (decide (b.toNat ≤ a.toNat)) (a.toInt - b.toInt))) ∧
    exec (.dp .rsb c sb rn rd o2) s = .next (wrote s p (b - a) sb
      (arithFlags (b - a) (decide (a.toNat ≤ b.toNat)) (b.toInt - a.toInt))) ∧
    exec (.dp .add c sb rn rd o2) s = .next (wrote s p (a + b) sb
      (arithFlags (a + b) (decide (2 ^ 32 ≤ a.toNat + b.toNat)) (a.toInt + b.toInt)))

/-- ADC, SBC and RSC into a register other than R15, with the C of before the instruction: the whole next state
(R152, R153, R154). -/
def Obligations.CarryResults : Prop :=
  ∀ (s : State) (c : Cond) (sb : Bool) (rn rd : Reg) (o2 : Operand2) (p : PhysReg) (a b : Word) (k j : Nat),
    phys s.cpsr.mode rd = some p → shiftRegisterAllowed o2 = true → a = firstOperand s rn o2 →
    b = (shifter o2 s).1 → k = (if s.cpsr.flags.c then 1 else 0) → j = 1 - k →
    executes c (rn :: operandReads o2) s →
    exec (.dp .adc c sb rn rd o2) s = .next (wrote s p (a + b + BitVec.ofNat 32 k) sb
      (arithFlags (a + b + BitVec.ofNat 32 k) (decide (2 ^ 32 ≤ a.toNat + b.toNat + k)) (a.toInt + b.toInt + k))) ∧
    exec (.dp .sbc c sb rn rd o2) s = .next (wrote s p (a - b - BitVec.ofNat 32 j) sb
      (arithFlags (a - b - BitVec.ofNat 32 j) (decide (b.toNat + j ≤ a.toNat)) (a.toInt - b.toInt - j))) ∧
    exec (.dp .rsc c sb rn rd o2) s = .next (wrote s p (b - a - BitVec.ofNat 32 j) sb
      (arithFlags (b - a - BitVec.ofNat 32 j) (decide (a.toNat + j ≤ b.toNat)) (b.toInt - a.toInt - j)))

/-- TST, TEQ, CMP and CMN write the four flags and no register (R155 to R158). -/
def Obligations.CompareResults : Prop :=
  ∀ (s : State) (c : Cond) (sb : Bool) (rn rd : Reg) (o2 : Operand2) (a b : Word) (sc : Bool),
    rd ≠ 15#4 → shiftRegisterAllowed o2 = true → a = firstOperand s rn o2 → b = (shifter o2 s).1 →
    sc = (shifter o2 s).2 → executes c (rn :: operandReads o2) s →
    exec (.dp .tst c sb rn rd o2) s = .next (compared s (logicalFlags (a &&& b) sc s.cpsr.flags)) ∧
    exec (.dp .teq c sb rn rd o2) s = .next (compared s (logicalFlags (a ^^^ b) sc s.cpsr.flags)) ∧
    exec (.dp .cmp c sb rn rd o2) s = .next (compared s
      (arithFlags (a - b) (decide (b.toNat ≤ a.toNat)) (a.toInt - b.toInt))) ∧
    exec (.dp .cmn c sb rn rd o2) s = .next (compared s
      (arithFlags (a + b) (decide (2 ^ 32 ≤ a.toNat + b.toNat)) (a.toInt + b.toInt)))

/-- Rd = 15 with S = 0, for each of the twelve writing operations: a jump to the result with its low bits dropped,
and nothing else changes (R163). -/
def Obligations.ResultToPc : Prop :=
  ∀ (s : State) (op : DpOp) (c : Cond) (rn : Reg) (o2 : Operand2), isCompare op = false →
    shiftRegisterAllowed o2 = true → executes c (sources op rn o2) s →
    exec (.dp op c false rn 15 o2) s =
      .next (jumped s (resultOf op (firstOperand s rn o2) (shifter o2 s).1 s.cpsr.flags.c))

/-- Rd = 15 with S = 1, for each of the twelve writing operations: a jump to the result that restores the CPSR from
the SPSR of the current mode; refused in User mode and when the SPSR holds no mode (R164). -/
def Obligations.ExceptionReturn : Prop :=
  ∀ (s : State) (op : DpOp) (c : Cond) (rn : Reg) (o2 : Operand2), isCompare op = false →
    shiftRegisterAllowed o2 = true → executes c (sources op rn o2) s →
    (s.cpsr.mode = .usr → exec (.dp op c true rn 15 o2) s = .refused .noSpsr) ∧
    (∀ q, s.spsrs.get s.cpsr.mode = some q → Mode.ofBits q.m = none →
      exec (.dp op c true rn 15 o2) s = .refused .invalidMode) ∧
    (∀ q m, s.spsrs.get s.cpsr.mode = some q → Mode.ofBits q.m = some m →
      exec (.dp op c true rn 15 o2) s =
        .next (returned s (resultOf op (firstOperand s rn o2) (shifter o2 s).1 s.cpsr.flags.c) q m))

/-- The refused operand combinations of data processing (R165 a, b). Where both apply, that (a) is named is the model's
order (log 17). -/
def Obligations.DataProcessingRefusals : Prop :=
  ∀ (s : State) (op : DpOp) (c : Cond) (sb : Bool) (rn rd : Reg) (o2 : Operand2),
    executes c (sources op rn o2) s →
    (shiftRegisterAllowed o2 = false → exec (.dp op c sb rn rd o2) s = .refused .r15AsShiftRegister) ∧
    (shiftRegisterAllowed o2 = true → op = .tst ∨ op = .teq ∨ op = .cmp ∨ op = .cmn →
      exec (.dp op c sb rn 15 o2) s = .refused .compareWithRd15)

/-! ### PSR transfer -/

/-- MRS: the eleven defined bits of the PSR, the reserved bits free; refused for the SPSR in User mode and for
Rd = 15 (42_psr_transfer.md R180). That the reserved bits come from one draw, which the count follows, is the model's
(log 6, 19), and so is the order of the two refusals (log 17). -/
def Obligations.MrsReadsPsr : Prop :=
  ∀ (s : State) (c : Cond) (p : Bool) (rd : Reg), executes c [] s →
    (∀ r q, phys s.cpsr.mode rd = some r → (p = true → s.spsrs.get s.cpsr.mode = some q) →
      (p = false → q = saved s.cpsr) →
      ∃ v : Word, exec (.mrs c p rd) s = .next { s with
          gpr := s.gpr.set r v, pcBits := s.pcBits + 1, userLdm := false, draws := s.draws + 1 } ∧
        v.getLsbD 31 = q.flags.n ∧ v.getLsbD 30 = q.flags.z ∧ v.getLsbD 29 = q.flags.c ∧ v.getLsbD 28 = q.flags.v ∧
        v.getLsbD 7 = q.i ∧ v.getLsbD 6 = q.f ∧ v.extractLsb' 0 5 = q.m ∧
        v.extractLsb' 8 20 = (Config.draw s.draws).extractLsb' 8 20 ∧
        v.getLsbD 5 = (Config.draw s.draws).getLsbD 5) ∧
    (p = true → s.cpsr.mode = .usr → exec (.mrs c p rd) s = .refused .noSpsr) ∧
    (p = false ∨ s.cpsr.mode ≠ .usr → exec (.mrs c p 15) s = .refused .r15AsPsrOperand)

/-- MSR of a whole PSR: the CPSR in a privileged mode, only its flags in User mode, the SPSR of the current mode; and
its three refusals (R181). -/
def Obligations.MsrWritesPsr : Prop :=
  ∀ (s : State) (c : Cond) (rm : Reg), executes c [rm] s →
    (∀ r v f, phys s.cpsr.mode rm = some r → v = s.gpr.get r →
      f = (⟨v.getLsbD 31, v.getLsbD 30, v.getLsbD 29, v.getLsbD 28⟩ : Flags) →
      (s.cpsr.mode = .usr → exec (.msrAll c false rm) s = .next (compared s f)) ∧
      (∀ m, s.cpsr.mode ≠ .usr → v.extractLsb' 0 5 = m.bits →
        exec (.msrAll c false rm) s = .next { advanced s with cpsr := ⟨f, v.getLsbD 7, v.getLsbD 6, m⟩ }) ∧
      (s.cpsr.mode ≠ .usr → (∀ m : Mode, v.extractLsb' 0 5 ≠ m.bits) →
        exec (.msrAll c false rm) s = .refused .invalidMode) ∧
      (s.cpsr.mode ≠ .usr → exec (.msrAll c true rm) s = .next { advanced s with
        spsrs := s.spsrs.set s.cpsr.mode ⟨f, v.getLsbD 7, v.getLsbD 6, v.extractLsb' 0 5⟩ }) ∧
      (s.cpsr.mode = .usr → exec (.msrAll c true rm) s = .refused .noSpsr)) ∧
    (rm = 15#4 → ∀ p, exec (.msrAll c p rm) s = .refused .r15AsPsrOperand)

/-- MSR of the flag field, from a register and from an immediate: the four flags of the CPSR, or of the SPSR of the
current mode, and nothing else; and the refusals (R182, R183). -/
def Obligations.MsrWritesFlags : Prop :=
  ∀ (s : State) (c : Cond) (rm : Reg) (o : ImmOp) (f : Word → Flags),
    f = (fun v => ⟨v.getLsbD 31, v.getLsbD 30, v.getLsbD 29, v.getLsbD 28⟩) →
    (executes c [rm] s → ∀ r, phys s.cpsr.mode rm = some r →
      exec (.msrFlgReg c false rm) s = .next (compared s (f (s.gpr.get r))) ∧
      (∀ q, s.spsrs.get s.cpsr.mode = some q → exec (.msrFlgReg c true rm) s = .next { advanced s with
        spsrs := s.spsrs.set s.cpsr.mode { q with flags := f (s.gpr.get r) } }) ∧
      (s.cpsr.mode = .usr → exec (.msrFlgReg c true rm) s = .refused .noSpsr)) ∧
    (executes c [] s →
      exec (.msrFlgImm c false o) s = .next (compared s (f (shifter (.imm o) s).1)) ∧
      (∀ q, s.spsrs.get s.cpsr.mode = some q → exec (.msrFlgImm c true o) s = .next { advanced s with
        spsrs := s.spsrs.set s.cpsr.mode { q with flags := f (shifter (.imm o) s).1 } }) ∧
      (s.cpsr.mode = .usr → exec (.msrFlgImm c true o) s = .refused .noSpsr) ∧
      (∀ p, exec (.msrFlgReg c p 15) s = .refused .r15AsPsrOperand))

/-! ### Single data transfer -/

/-- LDR in both offset forms and every addressing mode: the word found at the address goes to Rd, or to the PC if Rd is
R15, after the write-back (43_single_data_transfer.md R190, R192). What other bus masters store before the access is the
model's form of 20_memory.md R77 (log 12). -/
def Obligations.LdrLoadsWord : Prop :=
  ∀ (s u : State) (c : Cond) (ix : Index) (rn rd : Reg) (off : Offset) (a : WordAddr) (v : Word) (g : GenRegs),
    (ldr c ix rn rd off).wellFormed = true → executes c (rn :: off.reads) s →
    (addrOf ix rn off s).extractLsb' 0 2 = 0#2 → a = (addrOf ix rn off s).extractLsb' 2 30 →
    s.aborted .read a = false → u = s.othersStore → u.mem.word a = some v →
    g = writtenBack s (!ix.p || ix.w) rn (targetOf ix rn off s) →
    (∀ p, phys s.cpsr.mode rd = some p →
      exec (ldr c ix rn rd off) s = .next { advanced u with gpr := g.set p v }) ∧
    (rd = 15#4 → exec (ldr c ix rn rd off) s = .next { jumped u v with gpr := g })

/-- LDR from a word that nothing has populated completes with a free value (20_memory.md R66; that memory is
unpopulated at reset is the model's choice, log 4; the count of free values is the model's, log 19; what other bus masters
store before the access is the model's form of R77, log 12). -/
def Obligations.LdrOfUnpopulatedWord : Prop :=
  ∀ (s u : State) (c : Cond) (ix : Index) (rn rd : Reg) (off : Offset) (a : WordAddr) (g : GenRegs),
    (ldr c ix rn rd off).wellFormed = true → executes c (rn :: off.reads) s →
    (addrOf ix rn off s).extractLsb' 0 2 = 0#2 → a = (addrOf ix rn off s).extractLsb' 2 30 →
    s.aborted .read a = false → u = s.othersStore → u.mem.word a = none →
    g = writtenBack s (!ix.p || ix.w) rn (targetOf ix rn off s) →
    ∃ v : Word, v = Config.draw s.draws ∧
      (∀ p, phys s.cpsr.mode rd = some p →
        exec (ldr c ix rn rd off) s = .next { advanced u with gpr := g.set p v, draws := s.draws + 1 }) ∧
      (rd = 15#4 → exec (ldr c ix rn rd off) s = .next { jumped u v with gpr := g, draws := s.draws + 1 })

/-- STR in both offset forms and every addressing mode: the word of Rd (R15: `pc + PC_STORE_OFFSET`) is stored at the
address of R190, every byte outside that word holds what it held at the access, and the write-back follows (R193). What
other bus masters store before the access is the model's form of 20_memory.md R77 (log 12). -/
def Obligations.StrStoresWord : Prop :=
  ∀ (s u : State) (c : Cond) (ix : Index) (rn rd : Reg) (off : Offset) (a : WordAddr),
    (str c ix rn rd off).wellFormed = true → executes c (rn :: rd :: off.reads) s →
    (addrOf ix rn off s).extractLsb' 0 2 = 0#2 → a = (addrOf ix rn off s).extractLsb' 2 30 →
    a ≠ s.pcBits + 1 → a ≠ s.pcBits + 2 → s.aborted .write a = false → u = s.othersStore →
    ∃ m : Memory, exec (str c ix rn rd off) s = .next { advanced u with
        gpr := writtenBack s (!ix.p || ix.w) rn (targetOf ix rn off s), mem := m } ∧
      m.word a = some (s.readReg rd Config.pcStoreOffset) ∧ ∀ b, outside a b → m.byte b = u.mem.byte b

/-- An aborted LDR or STR writes back a modified base, loads nothing and stores nothing, and takes the data abort
(R194). What other bus masters store before the access is the model's form of 20_memory.md R77 (log 12). -/
def Obligations.TransferAborted : Prop :=
  ∀ (s u : State) (c : Cond) (ix : Index) (rn rd : Reg) (off : Offset) (a : WordAddr) (g : GenRegs),
    (addrOf ix rn off s).extractLsb' 0 2 = 0#2 → a = (addrOf ix rn off s).extractLsb' 2 30 → u = s.othersStore →
    g = writtenBack s (!ix.p || ix.w) rn (targetOf ix rn off s) →
    ((ldr c ix rn rd off).wellFormed = true → executes c (rn :: off.reads) s → s.aborted .read a = true →
      exec (ldr c ix rn rd off) s = .next (dataAborted u g)) ∧
    ((str c ix rn rd off).wellFormed = true → executes c (rn :: rd :: off.reads) s → s.aborted .write a = true →
      a ≠ s.pcBits + 1 → a ≠ s.pcBits + 2 → exec (str c ix rn rd off) s = .next (dataAborted u g))

/-- The refused operand combinations and addresses of LDR and STR, each by its name (R191 b to h). Where several apply, the
one named is the model's order (log 17). -/
def Obligations.TransferRefusals : Prop :=
  ∀ (s : State) (c : Cond) (ix : Index) (rn rd : Reg) (off : Offset) (i : Instr) (wb : Bool),
    (i = ldr c ix rn rd off ∧ executes c (rn :: off.reads) s) ∨
      (i = str c ix rn rd off ∧ executes c (rn :: rd :: off.reads) s) → wb = (!ix.p || ix.w) →
    (ix.p = false ∧ ix.w = true → exec i s = .refused .postIndexedT) ∧
    (ix.p = true ∨ ix.w = false →
      (wb = true ∧ rn = 15#4 → exec i s = .refused .writebackToR15) ∧
      (wb = true ∧ rn ≠ 15#4 ∧ rd = rn → exec i s = .refused .writebackBaseIsRd) ∧
      (wb = false ∨ (rn ≠ 15#4 ∧ rd ≠ rn) → ∀ o, off = .reg o →
        (o.rm = 15#4 → exec i s = .refused .r15AsOffset) ∧
        (wb = true ∧ o.rm = rn → exec i s = .refused .writebackBaseIsRm))) ∧
    (i.wellFormed = true → (addrOf ix rn off s).extractLsb' 0 2 ≠ 0#2 → exec i s = .refused .unalignedAddress) ∧
    (i.wellFormed = true → i = str c ix rn rd off →
      addrOf ix rn off s = s.pc + 4 ∨ addrOf ix rn off s = s.pc + 8 → exec i s = .refused .storeIntoPrefetch)

/-! ### Block data transfer -/

/-- The registers of a list are those whose bit is set, in ascending number; the start address, the final address
and the address of each register are those of the table of R200. -/
def Obligations.BlockAddresses : Prop :=
  (∀ (list : BitVec 16) (r : Reg), r ∈ regsOf list ↔ list.getLsbD r.toNat = true) ∧
  (∀ list : BitVec 16, (regsOf list).Pairwise fun r k => r.toNat < k.toNat) ∧
  (∀ (s w : Bool) (base : Word) (n : Nat),
    blockStart ⟨false, true, s, w⟩ base n = base ∧
    blockStart ⟨true, true, s, w⟩ base n = base + 4 ∧
    blockStart ⟨false, false, s, w⟩ base n = base - BitVec.ofNat 32 (4 * n) + 4 ∧
    blockStart ⟨true, false, s, w⟩ base n = base - BitVec.ofNat 32 (4 * n) ∧
    (∀ p, blockFinal ⟨p, true, s, w⟩ base n = base + BitVec.ofNat 32 (4 * n)) ∧
    (∀ p, blockFinal ⟨p, false, s, w⟩ base n = base - BitVec.ofNat 32 (4 * n))) ∧
  (∀ (bm : BlockMode) (base : Word) (n k : Nat), k < n →
    (blockAddrs bm base n)[k]? = some ((blockStart bm base n + BitVec.ofNat 32 (4 * k)).extractLsb' 2 30))

/-- LDM with S = 0 each of whose accesses finds a word: each register of the list receives its word, R15 is a jump, the
base is written back if W = 1, and nothing else changes (R201). What other bus masters store before each access is the
model's form of 20_memory.md R77 (log 12). -/
def Obligations.LdmLoadsRegisters : Prop :=
  ∀ (s : State) (c : Cond) (bm : BlockMode) (rn : Reg) (list : BitVec 16) (base : Word) (n : Nat) (v : Nat → Word)
    (pr : PhysReg),
    (Instr.ldm c bm rn list).wellFormed = true → bm.s = false → executes c [rn] s → base = s.readReg rn 8 →
    n = (regsOf list).length → base.extractLsb' 0 2 = 0#2 → phys s.cpsr.mode rn = some pr →
    (∀ k, k < n → s.aborted .read (slot bm base n k) = false ∧ found s k (slot bm base n k) = some (v k)) →
    ∃ (g : GenRegs) (pcb : WordAddr),
      exec (.ldm c bm rn list) s = .next { s.othersStores n with gpr := g, pcBits := pcb, userLdm := false } ∧
      loaded s g s.cpsr.mode (regsOf list) v (if bm.w then some (pr, blockFinal bm base n) else none) ∧
      (∀ k, (regsOf list)[k]? = some 15#4 → pcb = (v k).extractLsb' 2 30) ∧
      (list.getLsbD 15 = false → pcb = s.pcBits + 1)

/-- LDM with S = 1 and R15 in the list: as R201 in the old mode's bank, and the CPSR is restored from the SPSR of the
current mode; refused in User mode and when the SPSR holds no mode (R203). What other bus masters store before each access
is the model's form of 20_memory.md R77 (log 12). -/
def Obligations.LdmReturns : Prop :=
  ∀ (s : State) (c : Cond) (bm : BlockMode) (rn : Reg) (list : BitVec 16) (base : Word) (n : Nat) (v : Nat → Word)
    (pr : PhysReg),
    (Instr.ldm c bm rn list).wellFormed = true → bm.s = true → list.getLsbD 15 = true → executes c [rn] s →
    base = s.readReg rn 8 → n = (regsOf list).length → base.extractLsb' 0 2 = 0#2 →
    phys s.cpsr.mode rn = some pr →
    (∀ k, k < n → s.aborted .read (slot bm base n k) = false ∧ found s k (slot bm base n k) = some (v k)) →
    (s.cpsr.mode = .usr → exec (.ldm c bm rn list) s = .refused .noSpsr) ∧
    (∀ q, s.spsrs.get s.cpsr.mode = some q → Mode.ofBits q.m = none →
      exec (.ldm c bm rn list) s = .refused .invalidMode) ∧
    (∀ q m, s.spsrs.get s.cpsr.mode = some q → Mode.ofBits q.m = some m →
      ∃ g : GenRegs,
        exec (.ldm c bm rn list) s = .next { returned (s.othersStores n) (v (n - 1)) q m with gpr := g } ∧
        loaded s g s.cpsr.mode (regsOf list) v (if bm.w then some (pr, blockFinal bm base n) else none))

/-- LDM with S = 1 and R15 not in the list, in a privileged mode: the User-bank registers of the list receive their
words, nothing else changes, and the next instruction is under the hazard of 70_reset_and_hazards.md R290 (R204). Where
another refusal applies beside the two stated, that these are named is the model's order (log 17); what other bus masters
store before each access is the model's form of 20_memory.md R77 (log 12). -/
def Obligations.LdmLoadsUserBank : Prop :=
  ∀ (s : State) (c : Cond) (bm : BlockMode) (rn : Reg) (list : BitVec 16) (base : Word) (n : Nat) (v : Nat → Word),
    bm.s = true → list.getLsbD 15 = false → list ≠ 0#16 → rn ≠ 15#4 → executes c [rn] s →
    (s.cpsr.mode = .usr → (bm.w = true → list.getLsbD rn.toNat = false) →
      exec (.ldm c bm rn list) s = .refused .userBankInUserMode) ∧
    (s.cpsr.mode ≠ .usr → bm.w = true → list.getLsbD rn.toNat = false →
      exec (.ldm c bm rn list) s = .refused .userBankWriteback) ∧
    (s.cpsr.mode ≠ .usr → bm.w = false → base = s.readReg rn 8 → n = (regsOf list).length →
      base.extractLsb' 0 2 = 0#2 →
      (∀ k, k < n → s.aborted .read (slot bm base n k) = false ∧ found s k (slot bm base n k) = some (v k)) →
      ∃ g : GenRegs,
        exec (.ldm c bm rn list) s =
            .next { s.othersStores n with gpr := g, pcBits := s.pcBits + 1, userLdm := true } ∧
        loaded s g .usr (regsOf list) v none)

/-- LDM completes whatever memory holds, as R201, R203 and R204 say of each form, with a free value of its own for each word
that nothing has populated (20_memory.md R66): the whole next state. That memory is unpopulated at reset, the count of free
values, and what other bus masters store before each access are the model's choice (log 4, 19, 12). -/
def Obligations.LdmOfUnpopulatedWords : Prop :=
  ∀ (s : State) (c : Cond) (bm : BlockMode) (rn : Reg) (list : BitVec 16) (base : Word) (n : Nat) (pr : PhysReg)
    (v : Nat → Word) (cp : Cpsr),
    (Instr.ldm c bm rn list).wellFormed = true → (bm.s = true → s.cpsr.mode ≠ .usr) →
    executes c [rn] s → base = s.readReg rn 8 → n = (regsOf list).length → base.extractLsb' 0 2 = 0#2 →
    phys s.cpsr.mode rn = some pr → (∀ k, k < n → s.aborted .read (slot bm base n k) = false) →
    v = valueRead s (slot bm base n) →
    (bm.s = true ∧ list.getLsbD 15 = true → ∃ q m, s.spsrs.get s.cpsr.mode = some q ∧ Mode.ofBits q.m = some m ∧
      cp = ⟨q.flags, q.i, q.f, m⟩) →
    (bm.s = false ∨ list.getLsbD 15 = false → cp = s.cpsr) →
    ∃ g : GenRegs, exec (.ldm c bm rn list) s = .next { s.othersStores n with
        gpr := g
        pcBits := if list.getLsbD 15 then (v (n - 1)).extractLsb' 2 30 else s.pcBits + 1
        cpsr := cp
        userLdm := bm.s && !list.getLsbD 15
        draws := s.draws + drawsBefore s (slot bm base n) n } ∧
      loaded s g (bankOf bm true list s) (regsOf list) v (if bm.w then some (pr, blockFinal bm base n) else none)

/-- LDM whose access `j` is the first to be aborted: the registers before it receive what was read, populated or not, those
from it on are not written, the base holds the final address or what it held, and the data abort is taken (R206). The
count of free values, unpopulated memory, and what other bus masters store before each of the `n` accesses are the model's
(log 4, 19, 12, 20). -/
def Obligations.LdmAborted : Prop :=
  ∀ (s : State) (c : Cond) (bm : BlockMode) (rn : Reg) (list : BitVec 16) (base : Word) (n j : Nat) (v : Nat → Word)
    (pr : PhysReg),
    (Instr.ldm c bm rn list).wellFormed = true → (bm.s = true → s.cpsr.mode ≠ .usr) → executes c [rn] s →
    base = s.readReg rn 8 → n = (regsOf list).length → base.extractLsb' 0 2 = 0#2 →
    phys s.cpsr.mode rn = some pr → j < n → s.aborted .read (slot bm base n j) = true →
    (∀ k, k < j → s.aborted .read (slot bm base n k) = false) → v = valueRead s (slot bm base n) →
    ∃ g : GenRegs, exec (.ldm c bm rn list) s = .next { dataAborted (s.othersStores n) g with
        draws := s.draws + drawsBefore s (slot bm base n) j } ∧
      loaded s g (bankOf bm true list s) ((regsOf list).take j) v
        (some (pr, if bm.w then blockFinal bm base n else base))

/-- STM, of the registers of the current mode or with S = 1 of the User bank: each register of the list is stored at
its address (R15: `pc + PC_STORE_OFFSET`), every byte outside those words is as other bus masters leave it, and the base
is written back if W = 1 (R202, R205). What other bus masters store before each access, a word just stored among it, is
the model's form of 20_memory.md R77 (log 12). -/
def Obligations.StmStoresRegisters : Prop :=
  ∀ (s u : State) (c : Cond) (bm : BlockMode) (rn : Reg) (list : BitVec 16) (base : Word) (n : Nat),
    (Instr.stm c bm rn list).wellFormed = true → (bm.s = true → s.cpsr.mode ≠ .usr) →
    executes c (rn :: regsOf list) s → base = s.readReg rn 8 → n = (regsOf list).length →
    base.extractLsb' 0 2 = 0#2 → u = s.othersStores n →
    (∀ k, k < n → slot bm base n k ≠ s.pcBits + 1 ∧ slot bm base n k ≠ s.pcBits + 2 ∧
      s.aborted .write (slot bm base n k) = false) →
    ∃ m : Memory, exec (.stm c bm rn list) s = .next { advanced u with
        gpr := writtenBack s bm.w rn (blockFinal bm base n), mem := m } ∧
      (∀ k r, (regsOf list)[k]? = some r →
        (¬ storedLater s n k (slot bm base n k) →
          m.word (slot bm base n k) = some (s.readBank (bankOf bm false list s) r Config.pcStoreOffset)) ∧
        (storedLater s n k (slot bm base n k) → m.word (slot bm base n k) = u.mem.word (slot bm base n k))) ∧
      ∀ b, (∀ k, k < n → outside (slot bm base n k) b) → m.byte b = u.mem.byte b

/-- STM with an aborted access: every access is performed, the aborted ones leave memory unchanged, the base is
written back if W = 1, and the data abort is taken once (R206). What other bus masters store before each access is the
model's form of 20_memory.md R77 (log 12). -/
def Obligations.StmAborted : Prop :=
  ∀ (s u : State) (c : Cond) (bm : BlockMode) (rn : Reg) (list : BitVec 16) (base : Word) (n j : Nat),
    (Instr.stm c bm rn list).wellFormed = true → (bm.s = true → s.cpsr.mode ≠ .usr) →
    executes c (rn :: regsOf list) s → base = s.readReg rn 8 → n = (regsOf list).length →
    base.extractLsb' 0 2 = 0#2 → u = s.othersStores n → j < n → s.aborted .write (slot bm base n j) = true →
    (∀ k, k < n → slot bm base n k ≠ s.pcBits + 1 ∧ slot bm base n k ≠ s.pcBits + 2) →
    ∃ m : Memory, exec (.stm c bm rn list) s = .next { dataAborted u
        (writtenBack s bm.w rn (blockFinal bm base n)) with mem := m } ∧
      (∀ k r, (regsOf list)[k]? = some r → s.aborted .write (slot bm base n k) = false →
        (¬ storedLater s n k (slot bm base n k) →
          m.word (slot bm base n k) = some (s.readBank (bankOf bm false list s) r Config.pcStoreOffset)) ∧
        (storedLater s n k (slot bm base n k) → m.word (slot bm base n k) = u.mem.word (slot bm base n k))) ∧
      ∀ b, (∀ k, k < n → s.aborted .write (slot bm base n k) = false → outside (slot bm base n k) b) →
        m.byte b = u.mem.byte b

/-- The refused combinations of LDM and STM, each by its name (R207). Where several apply, the one named is the model's
order (log 17), and that an STM with S = 1 in User mode is refused with UserBankInUserMode is its reading (log 18). -/
def Obligations.BlockRefusals : Prop :=
  ∀ (s : State) (c : Cond) (bm : BlockMode) (rn : Reg) (list : BitVec 16) (base : Word) (n : Nat),
    base = s.readReg rn 8 → n = (regsOf list).length →
    (executes c [rn] s →
      (list = 0#16 → exec (.ldm c bm rn list) s = .refused .emptyRegisterList) ∧
      (list ≠ 0#16 → rn = 15#4 → exec (.ldm c bm rn list) s = .refused .r15AsBase) ∧
      (rn ≠ 15#4 → bm.w = true → list.getLsbD rn.toNat = true →
        exec (.ldm c bm rn list) s = .refused .writebackBaseInList) ∧
      (list ≠ 0#16 → rn ≠ 15#4 → bm.s = true → (bm.w = true → list.getLsbD rn.toNat = false) →
        (s.cpsr.mode = .usr → list.getLsbD 15 = true → exec (.ldm c bm rn list) s = .refused .noSpsr) ∧
        (s.cpsr.mode = .usr → list.getLsbD 15 = false →
          exec (.ldm c bm rn list) s = .refused .userBankInUserMode) ∧
        (s.cpsr.mode ≠ .usr → bm.w = true → list.getLsbD 15 = false →
          exec (.ldm c bm rn list) s = .refused .userBankWriteback)) ∧
      ((bm.s = true → s.cpsr.mode ≠ .usr) → (Instr.ldm c bm rn list).wellFormed = true → base.extractLsb' 0 2 ≠ 0#2 →
        exec (.ldm c bm rn list) s = .refused .unalignedAddress)) ∧
    (executes c (rn :: regsOf list) s →
      (list = 0#16 → exec (.stm c bm rn list) s = .refused .emptyRegisterList) ∧
      (list ≠ 0#16 → rn = 15#4 → exec (.stm c bm rn list) s = .refused .r15AsBase) ∧
      (rn ≠ 15#4 → bm.w = true → list.getLsbD rn.toNat = true →
        (∃ k : Reg, k.toNat < rn.toNat ∧ list.getLsbD k.toNat = true) →
        exec (.stm c bm rn list) s = .refused .writebackBaseInList) ∧
      (list ≠ 0#16 → rn ≠ 15#4 → bm.s = true →
        (bm.w = true → list.getLsbD rn.toNat = true → ∀ k : Reg, k.toNat < rn.toNat → list.getLsbD k.toNat = false) →
        (s.cpsr.mode = .usr → exec (.stm c bm rn list) s = .refused .userBankInUserMode) ∧
        (s.cpsr.mode ≠ .usr → bm.w = true → exec (.stm c bm rn list) s = .refused .userBankWriteback)) ∧
      ((bm.s = true → s.cpsr.mode ≠ .usr) → (Instr.stm c bm rn list).wellFormed = true →
        (base.extractLsb' 0 2 ≠ 0#2 → exec (.stm c bm rn list) s = .refused .unalignedAddress) ∧
        (base.extractLsb' 0 2 = 0#2 →
          (∃ k, k < n ∧ (slot bm base n k = s.pcBits + 1 ∨ slot bm base n k = s.pcBits + 2)) →
          exec (.stm c bm rn list) s = .refused .storeIntoPrefetch)))

/-! ### Branches and traps -/

/-- B: `pc <- pc + 8 + sext_32(offset24 :: 00)`, and nothing else changes (40_branch.md R130). -/
def Obligations.BranchTarget : Prop :=
  ∀ (s : State) (c : Cond) (off : BitVec 24), conditionPassed c s.cpsr.flags = true →
    ∃ t : State, exec (.b c off) s = .next t ∧ t = { s with pcBits := t.pcBits, userLdm := false } ∧
      t.pcBits = s.pcBits + 2 + off.signExtend 30 ∧ t.pc = s.pc + 8 + (off.signExtend 32 <<< 2)

/-- BL: as B, and R14 of the current mode receives `pc + 4` (R131). -/
def Obligations.BranchWithLink : Prop :=
  ∀ (s : State) (c : Cond) (off : BitVec 24) (p : PhysReg), conditionPassed c s.cpsr.flags = true →
    phys s.cpsr.mode 14 = some p →
    ∃ t : State, exec (.bl c off) s = .next t ∧
      t = { s with gpr := s.gpr.set p (s.pc + 4), pcBits := t.pcBits, userLdm := false } ∧
      t.pcBits = s.pcBits + 2 + off.signExtend 30 ∧ t.pc = s.pc + 8 + (off.signExtend 32 <<< 2)

/-- SWI enters Supervisor mode (45_swi_coprocessor_undefined.md R210; 60_exceptions.md R249). -/
def Obligations.SwiEntry : Prop :=
  ∀ (s : State) (c : Cond) (comment : BitVec 24), conditionPassed c s.cpsr.flags = true →
    exec (.swi c comment) s = .next { s with
      gpr := s.gpr.set .r14_svc (s.pc + 4)
      spsrs := { s.spsrs with svc := saved s.cpsr }
      cpsr := { s.cpsr with mode := .svc, i := true }
      pcBits := 2
      userLdm := false }

/-- The undefined space and the five coprocessor instructions take the undefined instruction trap, whatever their
fields, and do nothing else (R211 to R216). -/
def Obligations.UndefinedTraps : Prop :=
  ∀ (s : State) (c : Cond), conditionPassed c s.cpsr.flags = true →
    (∀ hi lo, exec (.undef c hi lo) s = .next (undefinedTrapped s)) ∧
    (∀ opc crn crd cp info crm, exec (.cdp c opc crn crd cp info crm) s = .next (undefinedTrapped s)) ∧
    (∀ ix rn crd cp off, exec (.ldc c ix rn crd cp off) s = .next (undefinedTrapped s)) ∧
    (∀ ix rn crd cp off, exec (.stc c ix rn crd cp off) s = .next (undefinedTrapped s)) ∧
    (∀ opc crn rd cp info crm, exec (.mrc c opc crn rd cp info crm) s = .next (undefinedTrapped s)) ∧
    (∀ opc crn rd cp info crm, exec (.mcr c opc crn rd cp info crm) s = .next (undefinedTrapped s))

/-! ### Invariants and whole-machine rules -/

/-- Every step keeps memory in its canonical form: addresses strictly rising and inside the 32-bit address space
(10_state.md R42). -/
def Obligations.StepKeepsMemoryCanonical : Prop :=
  ∀ s t : State, s.mem.wf = true → step s = .next t → t.mem.wf = true

/-- Memory at reset is in its canonical form. -/
def Obligations.ResetMemoryCanonical : Prop := State.reset.mem.wf = true

/-- Only STR and STM change memory (20_memory.md R64), but for what other bus masters store before each of the data
accesses an instruction makes, and without other bus masters nothing else does; no instruction changes the external
inputs. The list of what other bus masters store is the model's form of R77 (log 12). -/
def Obligations.OnlyStoresChangeMemory : Prop :=
  ∀ (i : Instr) (s t : State) (k : Nat), exec i s = .next t →
    k = (if conditionPassed i.cond s.cpsr.flags then accesses i else 0) →
    (isStore i = false → t.mem = (s.othersStores k).mem) ∧ (isStore i = false → s.others = [] → t.mem = s.mem) ∧
    t.others = s.others.drop k ∧ t.lines = s.lines ∧ t.schedule = s.schedule

/-- In User mode no step changes I, F or M but an exception entry or a reset: the state stays in User mode with the
same I and F, or the PC is at the vector of an exception, in its mode, with I set (10_state.md R38; 60_exceptions.md
R260). -/
def Obligations.UserModeKeepsControlBits : Prop :=
  ∀ s t : State, s.cpsr.mode = .usr → step s = .next t →
    (t.cpsr.mode = .usr ∧ t.cpsr.i = s.cpsr.i ∧ t.cpsr.f = s.cpsr.f) ∨
    (∃ e : Exc, t.cpsr.mode = e.mode ∧ t.pc = e.vector ∧ t.cpsr.i = true ∧
      t.cpsr.f = (s.cpsr.f || decide (e = .fiq)) ∧ t.spsrs.get e.mode = some (saved s.cpsr)) ∨
    (resetSeen s = true ∧ t.cpsr.mode = .svc ∧ t.cpsr.i = true ∧ t.cpsr.f = true ∧ t.pc = 0#32)

/-- A general register that the current mode does not see keeps its value, unless it is the link register of an
exception the instruction enters, or a User-bank register that an LDM with the S bit loads (10_state.md R24, R26). -/
def Obligations.OtherBanksKeepTheirValues : Prop :=
  ∀ (i : Instr) (s t : State) (p : PhysReg), exec i s = .next t → (∀ n : Reg, phys s.cpsr.mode n ≠ some p) →
    t.gpr.get p = s.gpr.get p ∨
    (∃ e : Exc, p = e.mode.link ∧ t.cpsr.mode = e.mode ∧ t.pc = e.vector) ∨
    (∃ c bm rn list, i = .ldm c bm rn list ∧ bm.s = true ∧ list.getLsbD 15 = false ∧
      ∃ n : Reg, list.getLsbD n.toNat = true ∧ phys .usr n = some p)

/-- An SPSR changes only when an exception enters its mode, or by an MSR to the SPSR in its own mode (R39). -/
def Obligations.SpsrChangesOnlyByEntryOrMsr : Prop :=
  ∀ (i : Instr) (s t : State) (m : Mode), exec i s = .next t →
    t.spsrs.get m = s.spsrs.get m ∨
    (t.cpsr.mode = m ∧ t.spsrs.get m = some (saved s.cpsr) ∧ t.cpsr.i = true) ∨
    (m = s.cpsr.mode ∧ ((∃ c rm, i = .msrAll c true rm) ∨ (∃ c rm, i = .msrFlgReg c true rm) ∨
      ∃ c o, i = .msrFlgImm c true o))

/-- No instruction ends in a fault: the only faults of the machine are of the fetch. -/
def Obligations.ExecNeverFaults : Prop := ∀ (i : Instr) (s : State) (f : Fault), exec i s ≠ .fault f
end

