-- ==== Sys2Proof/Laws/Bits.lean ====
section
/-! SUPPORT. Bit fields as numbers: a word built from fields, and a field taken out of a word, so that facts
about formats are facts of linear arithmetic. -/

namespace Sys2Proof

/-- Two bit fields side by side, as a number. -/
theorem toNat_cat {n m : Nat} (x : BitVec n) (y : BitVec m) : (x ++ y).toNat = x.toNat * 2 ^ m + y.toNat := by
  rw [BitVec.toNat_append, ← Nat.shiftLeft_add_eq_or_of_lt y.isLt, Nat.shiftLeft_eq]

/-- A field of a word, as a number. -/
theorem toNat_field (w : Word) (lo len : Nat) : (field w lo len).toNat = w.toNat / 2 ^ lo % 2 ^ len := by
  simp [field, BitVec.extractLsb'_toNat, Nat.shiftRight_eq_div_pow]

/-- A one-bit field, as a number. -/
theorem toNat_flag (b : Bool) : (flag b).toNat = b.toNat := by
  cases b <;> rfl

/-- A bit of a word, as a number. -/
theorem toNat_bit (w : Word) (k : Nat) : (bit w k).toNat = w.toNat / 2 ^ k % 2 := by
  simp only [bit, BitVec.getLsbD, Nat.testBit_eq_decide_div_mod_eq]
  rcases Nat.mod_two_eq_zero_or_one (w.toNat / 2 ^ k) with h | h <;> simp [h]

/-- Two bits with the same number are the same. -/
theorem bool_eq_of_toNat {a b : Bool} (h : a.toNat = b.toNat) : a = b := by
  cases a <;> cases b <;> simp_all

/-- A bit is at most 1. -/
theorem bool_toNat_lt (b : Bool) : b.toNat < 2 := by
  cases b <;> decide

/-- The bits a mask of one field selects are those of a value exactly when the field is the value. -/
theorem and_mask_field (w : Word) (lo len : Nat) (v : BitVec len) (hw : field w lo len = v) :
    w &&& (((BitVec.allOnes len).setWidth 32) <<< lo) = (v.setWidth 32) <<< lo := by
  subst hw
  apply BitVec.eq_of_getLsbD_eq
  intro k hk
  simp only [field, BitVec.getLsbD_and, BitVec.getLsbD_shiftLeft, BitVec.getLsbD_setWidth,
    BitVec.getLsbD_extractLsb', BitVec.getLsbD_allOnes]
  by_cases h1 : k < lo
  · simp [h1]
  · have h2 : lo + (k - lo) = k := by omega
    simp [h1, h2, hk]
    by_cases h3 : k - lo < len <;> simp [h3, Bool.and_comm]

end Sys2Proof
end

