-- ==== Sys2Proof/Laws/Memory.lean ====
section
/-! SUPPORT. Memory: reading after writing, the bytes a write leaves alone, and the canonical form, which
every operation keeps. -/

namespace Sys2Proof.Machine

/-- A byte holds what was stored to it, and every other byte keeps its value. -/
theorem byte_setByte (m : Memory) (a b : Nat) (v : Byte) :
    (m.setByte a v).byte b = if b = a then some v else m.byte b := by
  induction m with
  | nil => simp [Memory.setByte, Memory.byte, eq_comm]
  | cons x rest ih =>
    obtain ⟨k, w⟩ := x
    simp only [Memory.setByte]
    split
    · simp [Memory.byte, eq_comm]
    · split
      · rename_i h
        subst h
        simp only [Memory.byte]
        by_cases hb : a = b <;> simp [hb, eq_comm]
      · rename_i h1 h2
        simp only [Memory.byte, ih]
        by_cases hk : k = b
        · subst hk
          simp [Ne.symm h2]
        · simp [hk]

theorem byte_setByte_other (m : Memory) {a b : Nat} (v : Byte) (h : b ≠ a) : (m.setByte a v).byte b = m.byte b := by
  simp [byte_setByte, h]

/-- The byte address of a word, and the three after it, stay inside the 32-bit address space. -/
theorem byteAddr_lt (a : WordAddr) : byteAddr a + 3 < 2 ^ 32 := by
  have := a.isLt
  simp only [byteAddr]
  omega

/-- Two words share no byte. -/
theorem byteAddr_disjoint {a b : WordAddr} (h : a ≠ b) (i j : Nat) (hi : i < 4) (hj : j < 4) :
    byteAddr a + i ≠ byteAddr b + j := by
  intro e
  apply h
  apply BitVec.eq_of_toNat_eq
  simp only [byteAddr] at e
  omega

/-- A byte that lies outside a word keeps its value when the word is stored. -/
theorem byte_setWord_other (m : Memory) (a : WordAddr) (v : Word) (b : Nat)
    (h : b < byteAddr a ∨ byteAddr a + 4 ≤ b) : (m.setWord a v).byte b = m.byte b := by
  simp only [Memory.setWord, byte_setByte]
  have h0 : b ≠ byteAddr a := by omega
  have h1 : b ≠ byteAddr a + 1 := by omega
  have h2 : b ≠ byteAddr a + 2 := by omega
  have h3 : b ≠ byteAddr a + 3 := by omega
  simp [h0, h1, h2, h3]

/-- The bytes of a stored word. -/
theorem byte_setWord_same (m : Memory) (a : WordAddr) (v : Word) (k : Nat) (h : k < 4) :
    (m.setWord a v).byte (byteAddr a + k) = some (splitByte Config.byteOrder v k) := by
  simp only [Memory.setWord, byte_setByte]
  obtain rfl | rfl | rfl | rfl : k = 0 ∨ k = 1 ∨ k = 2 ∨ k = 3 := by omega
  all_goals simp

/-- The four bytes of a word, joined again, are the word, in either byte order. -/
theorem joinBytes_splitByte (o : ByteOrder) (w : Word) :
    joinBytes o (splitByte o w 0) (splitByte o w 1) (splitByte o w 2) (splitByte o w 3) = w := by
  apply BitVec.eq_of_toNat_eq
  have h := w.isLt
  cases o <;> simp only [joinBytes, splitByte] <;> rw [toNat_cat, toNat_cat, toNat_cat] <;>
    simp only [BitVec.extractLsb'_toNat, Nat.shiftRight_eq_div_pow] <;> omega

/-- A stored word reads back (20_memory.md R66, R67). -/
@[simp] theorem word_setWord_same (m : Memory) (a : WordAddr) (v : Word) : (m.setWord a v).word a = some v := by
  have h0 := byte_setWord_same m a v 0 (by omega)
  have h1 := byte_setWord_same m a v 1 (by omega)
  have h2 := byte_setWord_same m a v 2 (by omega)
  have h3 := byte_setWord_same m a v 3 (by omega)
  simp only [Nat.add_zero] at h0
  simp only [Memory.word, h0, h1, h2, h3, joinBytes_splitByte]

/-- Two memories that agree on the bytes of a word agree on the word. -/
theorem word_congr {m n : Memory} {a : WordAddr} (h : ∀ k, k < 4 → m.byte (byteAddr a + k) = n.byte (byteAddr a + k)) :
    m.word a = n.word a := by
  have h0 := h 0 (by omega)
  have h1 := h 1 (by omega)
  have h2 := h 2 (by omega)
  have h3 := h 3 (by omega)
  simp only [Nat.add_zero] at h0
  simp only [Memory.word, h0, h1, h2, h3]

/-- Every other word keeps its value. -/
theorem word_setWord_other (m : Memory) {a b : WordAddr} (v : Word) (h : b ≠ a) :
    (m.setWord a v).word b = m.word b := by
  apply word_congr
  intro k hk
  apply byte_setWord_other
  have := byteAddr_disjoint h
  by_cases hlt : byteAddr b + k < byteAddr a
  · exact .inl hlt
  · right
    by_contra hge
    exact byteAddr_disjoint h k (byteAddr b + k - byteAddr a) hk (by omega) (by omega)

/-! ### The canonical form -/

theorem risingFrom_mono {m : Memory} {lo lo' : Nat} (h : m.risingFrom lo = true) (hlo : lo' ≤ lo) :
    m.risingFrom lo' = true := by
  cases m with
  | nil => rfl
  | cons x rest =>
    obtain ⟨k, b⟩ := x
    simp only [Memory.risingFrom, Bool.and_eq_true, decide_eq_true_eq] at h ⊢
    exact ⟨⟨by omega, h.1.2⟩, h.2⟩

theorem risingFrom_setByte {m : Memory} {lo a : Nat} (v : Byte) (h : m.risingFrom lo = true) (ha : lo ≤ a)
    (hb : a < 2 ^ 32) : (m.setByte a v).risingFrom lo = true := by
  induction m generalizing lo with
  | nil => simp [Memory.setByte, Memory.risingFrom]; omega
  | cons x rest ih =>
    obtain ⟨k, w⟩ := x
    simp only [Memory.risingFrom, Bool.and_eq_true, decide_eq_true_eq] at h
    simp only [Memory.setByte]
    split
    · simp only [Memory.risingFrom, Bool.and_eq_true, decide_eq_true_eq]
      exact ⟨⟨ha, hb⟩, ⟨by omega, h.1.2⟩, h.2⟩
    · split
      · subst_vars
        simp only [Memory.risingFrom, Bool.and_eq_true, decide_eq_true_eq]
        exact ⟨⟨ha, hb⟩, h.2⟩
      · simp only [Memory.risingFrom, Bool.and_eq_true, decide_eq_true_eq]
        exact ⟨h.1, ih h.2 (by omega)⟩

/-- Storing a byte keeps the canonical form. -/
theorem wf_setByte {m : Memory} {a : Nat} (v : Byte) (h : m.wf = true) (ha : a < 2 ^ 32) :
    (m.setByte a v).wf = true :=
  risingFrom_setByte v h (Nat.zero_le a) ha

/-- Storing a word keeps the canonical form. -/
theorem wf_setWord {m : Memory} (a : WordAddr) (v : Word) (h : m.wf = true) : (m.setWord a v).wf = true := by
  have := byteAddr_lt a
  exact wf_setByte _ (wf_setByte _ (wf_setByte _ (wf_setByte _ h (by omega)) (by omega)) (by omega)) (by omega)

/-- Storing several words keeps the canonical form. -/
theorem wf_setWords {m : Memory} (l : List (WordAddr × Word)) (h : m.wf = true) : (m.setWords l).wf = true := by
  induction l generalizing m with
  | nil => exact h
  | cons x l ih => exact ih (wf_setWord x.1 x.2 h)

/-- A word that is not in the list keeps its bytes when the words of the list are stored. -/
theorem byte_setWords_other (l : List (WordAddr × Word)) (m : Memory) (b : Nat)
    (h : ∀ x ∈ l, b < byteAddr x.1 ∨ byteAddr x.1 + 4 ≤ b) : (m.setWords l).byte b = m.byte b := by
  induction l generalizing m with
  | nil => rfl
  | cons x l ih =>
    rw [Memory.setWords, ih _ fun y hy => h y (List.mem_cons_of_mem _ hy)]
    exact byte_setWord_other m x.1 x.2 b (h x List.mem_cons_self)

/-- What a byte holds after a store depends on what it held before and on nothing else. -/
theorem byte_setWord_congr {m n : Memory} {b : Nat} (a : WordAddr) (v : Word) (h : m.byte b = n.byte b) :
    (m.setWord a v).byte b = (n.setWord a v).byte b := by
  simp only [Memory.setWord, byte_setByte, h]

theorem byte_setWords_congr {m n : Memory} {b : Nat} (l : List (WordAddr × Word)) (h : m.byte b = n.byte b) :
    (m.setWords l).byte b = (n.setWords l).byte b := by
  induction l generalizing m n with
  | nil => exact h
  | cons x l ih => exact ih (byte_setWord_congr x.1 x.2 h)

/-- The bytes of a word that is among the words stored do not depend on what memory held before. -/
theorem byte_setWords_mem (l : List (WordAddr × Word)) (m n : Memory) (a : WordAddr) (k : Nat) (hk : k < 4)
    (h : ∃ x ∈ l, x.1 = a) : (m.setWords l).byte (byteAddr a + k) = (n.setWords l).byte (byteAddr a + k) := by
  induction l generalizing m n with
  | nil => simp at h
  | cons x l ih =>
    by_cases hx : x.1 = a
    · subst hx
      exact byte_setWords_congr l ((byte_setWord_same m x.1 x.2 k hk).trans (byte_setWord_same n x.1 x.2 k hk).symm)
    · obtain ⟨y, hy, rfl⟩ := h
      rcases List.mem_cons.mp hy with rfl | hy
      · exact absurd rfl hx
      · exact ih _ _ ⟨y, hy, rfl⟩

/-- Stores in two groups. -/
theorem setWords_append (m : Memory) (l1 l2 : List (WordAddr × Word)) :
    m.setWords (l1 ++ l2) = (m.setWords l1).setWords l2 := by
  induction l1 generalizing m with
  | nil => rfl
  | cons x l ih => exact ih (m.setWord x.1 x.2)

/-- A word that is stored once reads back after all the stores. -/
theorem word_setWords_mem (l : List (WordAddr × Word)) (m : Memory) (a : WordAddr) (v : Word)
    (hn : (l.map Prod.fst).Nodup) (h : (a, v) ∈ l) : (m.setWords l).word a = some v := by
  induction l generalizing m with
  | nil => cases h
  | cons x l ih =>
    rw [List.map_cons, List.nodup_cons] at hn
    rw [Memory.setWords]
    rcases List.mem_cons.mp h with rfl | h
    · rw [← word_setWord_same m a v]
      apply word_congr
      intro k hk
      apply byte_setWords_other
      intro y hy
      have hne : a ≠ y.1 := fun e => hn.1 (List.mem_map.mpr ⟨y, hy, e.symm⟩)
      by_contra hc
      exact byteAddr_disjoint hne k (byteAddr a + k - byteAddr y.1) hk (by omega) (by omega)
    · exact ih _ hn.2 h

/-- A word that none of the stores names keeps its value. -/
theorem word_setWords_other (l : List (WordAddr × Word)) (m : Memory) (a : WordAddr) (h : ∀ x ∈ l, x.1 ≠ a) :
    (m.setWords l).word a = m.word a := by
  induction l generalizing m with
  | nil => rfl
  | cons x l ih =>
    rw [Memory.setWords, ih _ fun y hy => h y (List.mem_cons_of_mem _ hy)]
    exact word_setWord_other m x.2 (Ne.symm (h x List.mem_cons_self))

end Sys2Proof.Machine
end

