-- ==== Sys2Proof/Laws/State.lean ====
section
/-! SUPPORT. One lemma for each field under each update of the state (Machine/Ops.lean), so that no proof
unfolds a record update. -/

namespace Sys2Proof.Machine

@[simp] theorem setGpr_gpr (s : State) (p : PhysReg) (v : Word) : (s.setGpr p v).gpr = s.gpr.set p v := rfl
@[simp] theorem setGpr_pcBits (s : State) (p : PhysReg) (v : Word) : (s.setGpr p v).pcBits = s.pcBits := rfl
@[simp] theorem setGpr_cpsr (s : State) (p : PhysReg) (v : Word) : (s.setGpr p v).cpsr = s.cpsr := rfl
@[simp] theorem setGpr_spsrs (s : State) (p : PhysReg) (v : Word) : (s.setGpr p v).spsrs = s.spsrs := rfl
@[simp] theorem setGpr_mem (s : State) (p : PhysReg) (v : Word) : (s.setGpr p v).mem = s.mem := rfl
@[simp] theorem setGpr_userLdm (s : State) (p : PhysReg) (v : Word) : (s.setGpr p v).userLdm = s.userLdm := rfl
@[simp] theorem setGpr_lines (s : State) (p : PhysReg) (v : Word) : (s.setGpr p v).lines = s.lines := rfl
@[simp] theorem setGpr_schedule (s : State) (p : PhysReg) (v : Word) : (s.setGpr p v).schedule = s.schedule := rfl
@[simp] theorem setGpr_others (s : State) (p : PhysReg) (v : Word) : (s.setGpr p v).others = s.others := rfl
@[simp] theorem setGpr_draws (s : State) (p : PhysReg) (v : Word) : (s.setGpr p v).draws = s.draws := rfl

@[simp] theorem setPc_gpr (s : State) (v : Word) : (s.setPc v).gpr = s.gpr := rfl
@[simp] theorem setPc_pcBits (s : State) (v : Word) : (s.setPc v).pcBits = v.extractLsb' 2 30 := rfl
@[simp] theorem setPc_cpsr (s : State) (v : Word) : (s.setPc v).cpsr = s.cpsr := rfl
@[simp] theorem setPc_spsrs (s : State) (v : Word) : (s.setPc v).spsrs = s.spsrs := rfl
@[simp] theorem setPc_mem (s : State) (v : Word) : (s.setPc v).mem = s.mem := rfl
@[simp] theorem setPc_userLdm (s : State) (v : Word) : (s.setPc v).userLdm = s.userLdm := rfl
@[simp] theorem setPc_lines (s : State) (v : Word) : (s.setPc v).lines = s.lines := rfl
@[simp] theorem setPc_schedule (s : State) (v : Word) : (s.setPc v).schedule = s.schedule := rfl
@[simp] theorem setPc_others (s : State) (v : Word) : (s.setPc v).others = s.others := rfl
@[simp] theorem setPc_draws (s : State) (v : Word) : (s.setPc v).draws = s.draws := rfl

@[simp] theorem advance_gpr (s : State) : s.advance.gpr = s.gpr := rfl
@[simp] theorem advance_pcBits (s : State) : s.advance.pcBits = s.pcBits + 1 := rfl
@[simp] theorem advance_cpsr (s : State) : s.advance.cpsr = s.cpsr := rfl
@[simp] theorem advance_spsrs (s : State) : s.advance.spsrs = s.spsrs := rfl
@[simp] theorem advance_mem (s : State) : s.advance.mem = s.mem := rfl
@[simp] theorem advance_userLdm (s : State) : s.advance.userLdm = s.userLdm := rfl
@[simp] theorem advance_lines (s : State) : s.advance.lines = s.lines := rfl
@[simp] theorem advance_schedule (s : State) : s.advance.schedule = s.schedule := rfl
@[simp] theorem advance_others (s : State) : s.advance.others = s.others := rfl
@[simp] theorem advance_draws (s : State) : s.advance.draws = s.draws := rfl

@[simp] theorem setFlags_gpr (s : State) (f : Flags) : (s.setFlags f).gpr = s.gpr := rfl
@[simp] theorem setFlags_pcBits (s : State) (f : Flags) : (s.setFlags f).pcBits = s.pcBits := rfl
@[simp] theorem setFlags_cpsr (s : State) (f : Flags) : (s.setFlags f).cpsr = { s.cpsr with flags := f } := rfl
@[simp] theorem setFlags_spsrs (s : State) (f : Flags) : (s.setFlags f).spsrs = s.spsrs := rfl
@[simp] theorem setFlags_mem (s : State) (f : Flags) : (s.setFlags f).mem = s.mem := rfl
@[simp] theorem setFlags_userLdm (s : State) (f : Flags) : (s.setFlags f).userLdm = s.userLdm := rfl
@[simp] theorem setFlags_lines (s : State) (f : Flags) : (s.setFlags f).lines = s.lines := rfl
@[simp] theorem setFlags_schedule (s : State) (f : Flags) : (s.setFlags f).schedule = s.schedule := rfl
@[simp] theorem setFlags_others (s : State) (f : Flags) : (s.setFlags f).others = s.others := rfl
@[simp] theorem setFlags_draws (s : State) (f : Flags) : (s.setFlags f).draws = s.draws := rfl

@[simp] theorem setCpsr_gpr (s : State) (c : Cpsr) : (s.setCpsr c).gpr = s.gpr := rfl
@[simp] theorem setCpsr_pcBits (s : State) (c : Cpsr) : (s.setCpsr c).pcBits = s.pcBits := rfl
@[simp] theorem setCpsr_cpsr (s : State) (c : Cpsr) : (s.setCpsr c).cpsr = c := rfl
@[simp] theorem setCpsr_spsrs (s : State) (c : Cpsr) : (s.setCpsr c).spsrs = s.spsrs := rfl
@[simp] theorem setCpsr_mem (s : State) (c : Cpsr) : (s.setCpsr c).mem = s.mem := rfl
@[simp] theorem setCpsr_userLdm (s : State) (c : Cpsr) : (s.setCpsr c).userLdm = s.userLdm := rfl
@[simp] theorem setCpsr_lines (s : State) (c : Cpsr) : (s.setCpsr c).lines = s.lines := rfl
@[simp] theorem setCpsr_schedule (s : State) (c : Cpsr) : (s.setCpsr c).schedule = s.schedule := rfl
@[simp] theorem setCpsr_others (s : State) (c : Cpsr) : (s.setCpsr c).others = s.others := rfl
@[simp] theorem setCpsr_draws (s : State) (c : Cpsr) : (s.setCpsr c).draws = s.draws := rfl

@[simp] theorem setSpsr_gpr (s : State) (m : Mode) (p : Psr) : (s.setSpsr m p).gpr = s.gpr := rfl
@[simp] theorem setSpsr_pcBits (s : State) (m : Mode) (p : Psr) : (s.setSpsr m p).pcBits = s.pcBits := rfl
@[simp] theorem setSpsr_cpsr (s : State) (m : Mode) (p : Psr) : (s.setSpsr m p).cpsr = s.cpsr := rfl
@[simp] theorem setSpsr_spsrs (s : State) (m : Mode) (p : Psr) : (s.setSpsr m p).spsrs = s.spsrs.set m p := rfl
@[simp] theorem setSpsr_mem (s : State) (m : Mode) (p : Psr) : (s.setSpsr m p).mem = s.mem := rfl
@[simp] theorem setSpsr_userLdm (s : State) (m : Mode) (p : Psr) : (s.setSpsr m p).userLdm = s.userLdm := rfl
@[simp] theorem setSpsr_lines (s : State) (m : Mode) (p : Psr) : (s.setSpsr m p).lines = s.lines := rfl
@[simp] theorem setSpsr_schedule (s : State) (m : Mode) (p : Psr) : (s.setSpsr m p).schedule = s.schedule := rfl
@[simp] theorem setSpsr_others (s : State) (m : Mode) (p : Psr) : (s.setSpsr m p).others = s.others := rfl
@[simp] theorem setSpsr_draws (s : State) (m : Mode) (p : Psr) : (s.setSpsr m p).draws = s.draws := rfl

@[simp] theorem setMem_gpr (s : State) (m : Memory) : (s.setMem m).gpr = s.gpr := rfl
@[simp] theorem setMem_pcBits (s : State) (m : Memory) : (s.setMem m).pcBits = s.pcBits := rfl
@[simp] theorem setMem_cpsr (s : State) (m : Memory) : (s.setMem m).cpsr = s.cpsr := rfl
@[simp] theorem setMem_spsrs (s : State) (m : Memory) : (s.setMem m).spsrs = s.spsrs := rfl
@[simp] theorem setMem_mem (s : State) (m : Memory) : (s.setMem m).mem = m := rfl
@[simp] theorem setMem_userLdm (s : State) (m : Memory) : (s.setMem m).userLdm = s.userLdm := rfl
@[simp] theorem setMem_lines (s : State) (m : Memory) : (s.setMem m).lines = s.lines := rfl
@[simp] theorem setMem_schedule (s : State) (m : Memory) : (s.setMem m).schedule = s.schedule := rfl
@[simp] theorem setMem_others (s : State) (m : Memory) : (s.setMem m).others = s.others := rfl
@[simp] theorem setMem_draws (s : State) (m : Memory) : (s.setMem m).draws = s.draws := rfl

@[simp] theorem setUserLdm_gpr (s : State) (b : Bool) : (s.setUserLdm b).gpr = s.gpr := rfl
@[simp] theorem setUserLdm_pcBits (s : State) (b : Bool) : (s.setUserLdm b).pcBits = s.pcBits := rfl
@[simp] theorem setUserLdm_cpsr (s : State) (b : Bool) : (s.setUserLdm b).cpsr = s.cpsr := rfl
@[simp] theorem setUserLdm_spsrs (s : State) (b : Bool) : (s.setUserLdm b).spsrs = s.spsrs := rfl
@[simp] theorem setUserLdm_mem (s : State) (b : Bool) : (s.setUserLdm b).mem = s.mem := rfl
@[simp] theorem setUserLdm_userLdm (s : State) (b : Bool) : (s.setUserLdm b).userLdm = b := rfl
@[simp] theorem setUserLdm_lines (s : State) (b : Bool) : (s.setUserLdm b).lines = s.lines := rfl
@[simp] theorem setUserLdm_schedule (s : State) (b : Bool) : (s.setUserLdm b).schedule = s.schedule := rfl
@[simp] theorem setUserLdm_others (s : State) (b : Bool) : (s.setUserLdm b).others = s.others := rfl
@[simp] theorem setUserLdm_draws (s : State) (b : Bool) : (s.setUserLdm b).draws = s.draws := rfl

@[simp] theorem useDraws_gpr (s : State) (k : Nat) : (s.useDraws k).gpr = s.gpr := rfl
@[simp] theorem useDraws_pcBits (s : State) (k : Nat) : (s.useDraws k).pcBits = s.pcBits := rfl
@[simp] theorem useDraws_cpsr (s : State) (k : Nat) : (s.useDraws k).cpsr = s.cpsr := rfl
@[simp] theorem useDraws_spsrs (s : State) (k : Nat) : (s.useDraws k).spsrs = s.spsrs := rfl
@[simp] theorem useDraws_mem (s : State) (k : Nat) : (s.useDraws k).mem = s.mem := rfl
@[simp] theorem useDraws_userLdm (s : State) (k : Nat) : (s.useDraws k).userLdm = s.userLdm := rfl
@[simp] theorem useDraws_lines (s : State) (k : Nat) : (s.useDraws k).lines = s.lines := rfl
@[simp] theorem useDraws_schedule (s : State) (k : Nat) : (s.useDraws k).schedule = s.schedule := rfl
@[simp] theorem useDraws_others (s : State) (k : Nat) : (s.useDraws k).others = s.others := rfl
@[simp] theorem useDraws_draws (s : State) (k : Nat) : (s.useDraws k).draws = s.draws + k := rfl

@[simp] theorem othersStore_gpr (s : State) : s.othersStore.gpr = s.gpr := rfl
@[simp] theorem othersStore_pcBits (s : State) : s.othersStore.pcBits = s.pcBits := rfl
@[simp] theorem othersStore_cpsr (s : State) : s.othersStore.cpsr = s.cpsr := rfl
@[simp] theorem othersStore_spsrs (s : State) : s.othersStore.spsrs = s.spsrs := rfl
@[simp] theorem othersStore_userLdm (s : State) : s.othersStore.userLdm = s.userLdm := rfl
@[simp] theorem othersStore_lines (s : State) : s.othersStore.lines = s.lines := rfl
@[simp] theorem othersStore_schedule (s : State) : s.othersStore.schedule = s.schedule := rfl
@[simp] theorem othersStore_draws (s : State) : s.othersStore.draws = s.draws := rfl
@[simp] theorem othersStore_mem (s : State) : s.othersStore.mem = s.mem.setWords (s.others.headD []) := rfl
@[simp] theorem othersStore_others (s : State) : s.othersStore.others = s.others.tail := rfl

/-- What other bus masters store changes memory and the list of what they will store, and nothing else. -/
theorem othersStores_eq (s : State) (k : Nat) :
    s.othersStores k = { s with mem := (s.othersStores k).mem, others := s.others.drop k } := by
  induction k generalizing s with
  | zero => rfl
  | succ k ih =>
    rw [State.othersStores, ih]
    simp [State.othersStore]

@[simp] theorem othersStores_gpr (s : State) (k : Nat) : (s.othersStores k).gpr = s.gpr := by
  rw [othersStores_eq]
@[simp] theorem othersStores_pcBits (s : State) (k : Nat) : (s.othersStores k).pcBits = s.pcBits := by
  rw [othersStores_eq]
@[simp] theorem othersStores_cpsr (s : State) (k : Nat) : (s.othersStores k).cpsr = s.cpsr := by
  rw [othersStores_eq]
@[simp] theorem othersStores_spsrs (s : State) (k : Nat) : (s.othersStores k).spsrs = s.spsrs := by
  rw [othersStores_eq]
@[simp] theorem othersStores_userLdm (s : State) (k : Nat) : (s.othersStores k).userLdm = s.userLdm := by
  rw [othersStores_eq]
@[simp] theorem othersStores_lines (s : State) (k : Nat) : (s.othersStores k).lines = s.lines := by
  rw [othersStores_eq]
@[simp] theorem othersStores_schedule (s : State) (k : Nat) : (s.othersStores k).schedule = s.schedule := by
  rw [othersStores_eq]
@[simp] theorem othersStores_draws (s : State) (k : Nat) : (s.othersStores k).draws = s.draws := by
  rw [othersStores_eq]
@[simp] theorem othersStores_others (s : State) (k : Nat) : (s.othersStores k).others = s.others.drop k := by
  rw [othersStores_eq]

/-- One data access more. -/
theorem othersStores_succ (s : State) (k : Nat) : s.othersStores (k + 1) = (s.othersStores k).othersStore := by
  induction k generalizing s with
  | zero => rfl
  | succ k ih => exact ih s.othersStore

/-- Data accesses in two groups. -/
theorem othersStores_add (s : State) (j k : Nat) : s.othersStores (j + k) = (s.othersStores j).othersStores k := by
  induction j generalizing s with
  | zero => simp [State.othersStores]
  | succ j ih =>
    rw [Nat.succ_add]
    exact ih s.othersStore

/-- Without other bus masters nothing happens between accesses. -/
theorem othersStores_nil {s : State} (h : s.others = []) (k : Nat) : s.othersStores k = s := by
  have h1 : s.othersStore = s := by
    cases s
    simp_all [State.othersStore, Memory.setWords]
  induction k with
  | zero => rfl
  | succ k ih => rw [State.othersStores, h1, ih]

/-- The count of free values and the stores of other bus masters do not touch each other. -/
theorem othersStores_setDraws (s : State) (d k : Nat) :
    ({ s with draws := d } : State).othersStores k = { s.othersStores k with draws := d } := by
  induction k generalizing s with
  | zero => rfl
  | succ k ih => exact ih s.othersStore

theorem othersStores_useDraws (s : State) (d k : Nat) :
    (s.useDraws d).othersStores k = (s.othersStores k).useDraws d := by
  simp [State.useDraws, othersStores_setDraws]

/-- The mark of an LDM of User-bank registers and the stores of other bus masters do not touch each other. -/
theorem othersStores_setUserLdm (s : State) (b : Bool) (k : Nat) :
    (s.setUserLdm b).othersStores k = (s.othersStores k).setUserLdm b := by
  induction k generalizing s with
  | zero => rfl
  | succ k ih => exact ih s.othersStore

/-- The byte address of the PC (10_state.md R27). -/
theorem pc_toNat (s : State) : s.pc.toNat = 4 * s.pcBits.toNat := by
  unfold State.pc
  rw [toNat_cat]
  simp [Nat.mul_comm]

/-- The PC is a multiple of 4 in every state (10_state.md R27). -/
@[simp] theorem pc_low_bits (s : State) : s.pc.extractLsb' 0 2 = 0#2 := by
  apply BitVec.eq_of_toNat_eq
  have h := pc_toNat s
  simp only [BitVec.extractLsb'_toNat, Nat.shiftRight_eq_div_pow]
  rw [h]
  simp

/-- Reading the PC back out of an address made from it. -/
@[simp] theorem pc_word (s : State) : s.pc.extractLsb' 2 30 = s.pcBits := by
  apply BitVec.eq_of_toNat_eq
  have h := pc_toNat s
  have hb := s.pcBits.isLt
  simp only [BitVec.extractLsb'_toNat, Nat.shiftRight_eq_div_pow]
  rw [h]
  omega

/-- `pc + 4` is the address of the next word. -/
theorem pc_add_four (s : State) : (s.pc + 4).extractLsb' 2 30 = s.pcBits + 1 := by
  apply BitVec.eq_of_toNat_eq
  have h := pc_toNat s
  have hb := s.pcBits.isLt
  simp only [BitVec.extractLsb'_toNat, BitVec.toNat_add, Nat.shiftRight_eq_div_pow]
  rw [h]
  simp
  omega

end Sys2Proof.Machine
end

