-- ==== Sys2Proof/Laws/Registers.lean ====
section
/-! SUPPORT. The register banks: reading after writing, which physical register a number names, and the
SPSRs. -/

namespace Sys2Proof.Machine

/-- A physical register holds what was written to it, and the others keep their values. -/
theorem get_set (g : GenRegs) (p q : PhysReg) (v : Word) : (g.set p v).get q = if q = p then v else g.get q := by
  cases p <;> cases q <;> rfl

@[simp] theorem get_set_same (g : GenRegs) (p : PhysReg) (v : Word) : (g.set p v).get p = v := by
  simp [get_set]

theorem get_set_other (g : GenRegs) {p q : PhysReg} (v : Word) (h : q ≠ p) : (g.set p v).get q = g.get q := by
  simp [get_set, h]

/-- Two register files that agree on every register are equal. -/
theorem genRegs_ext {g h : GenRegs} (e : ∀ p, g.get p = h.get p) : g = h := by
  cases g
  cases h
  congr
  all_goals first
    | exact e .r0 | exact e .r1 | exact e .r2 | exact e .r3 | exact e .r4 | exact e .r5 | exact e .r6
    | exact e .r7 | exact e .r8 | exact e .r9 | exact e .r10 | exact e .r11 | exact e .r12
    | exact e .r8_fiq | exact e .r9_fiq | exact e .r10_fiq | exact e .r11_fiq | exact e .r12_fiq
    | exact e .r13_usr | exact e .r14_usr | exact e .r13_fiq | exact e .r14_fiq | exact e .r13_svc
    | exact e .r14_svc | exact e .r13_abt | exact e .r14_abt | exact e .r13_irq | exact e .r14_irq
    | exact e .r13_und | exact e .r14_und

/-- Only R15 is outside the general registers (10_state.md R23). -/
theorem phys_eq_none (m : Mode) (n : Reg) : phys m n = none ↔ n = 15#4 := by
  cases m <;> revert n <;> decide

theorem phys_some {m : Mode} {n : Reg} (h : n ≠ 15#4) : ∃ p, phys m n = some p := by
  cases e : phys m n with
  | none => exact absurd ((phys_eq_none m n).mp e) h
  | some p => exact ⟨p, rfl⟩

/-- Within one mode two numbers name two registers. -/
theorem phys_injective {m : Mode} {n k : Reg} (h : phys m n = phys m k) : n = k := by
  revert n k
  cases m <;> decide

/-- R14 of a mode is its link register. -/
@[simp] theorem phys_link (m : Mode) : phys m 14 = some m.link := by
  cases m <;> rfl

/-- The mode bits of a mode name that mode again (10_state.md R36). -/
@[simp] theorem ofBits_bits (m : Mode) : Mode.ofBits m.bits = some m := by
  cases m <;> rfl

/-- Each of the six values names its own mode (10_state.md R36). -/
theorem bits_of_ofBits {v : BitVec 5} {m : Mode} (h : Mode.ofBits v = some m) : v = m.bits := by
  revert v
  cases m <;> decide

/-- Every privileged mode has an SPSR, User mode none (10_state.md R31). -/
theorem spsrs_get_eq_none (s : Spsrs) (m : Mode) : s.get m = none ↔ m = .usr := by
  cases m <;> simp [Spsrs.get]

theorem spsrs_get_set (s : Spsrs) (m k : Mode) (p : Psr) (h : m ≠ .usr) :
    (s.set m p).get k = if k = m then some p else s.get k := by
  cases m <;> cases k <;> simp_all [Spsrs.get, Spsrs.set]

/-- A PSR as MRS reads it, as a number: the defined bits in their places (10_state.md R32) around the free bits `x`
(bits 27 to 8) and `y` (bit 5). -/
theorem toNat_psrWord (q : Psr) (free : Word) : ∃ x y : Nat, x < 2 ^ 20 ∧ y < 2 ∧ x = free.toNat / 2 ^ 8 % 2 ^ 20 ∧
    y = free.toNat / 2 ^ 5 % 2 ∧ (q.toWord free).toNat =
      q.flags.n.toNat * 2 ^ 31 + q.flags.z.toNat * 2 ^ 30 + q.flags.c.toNat * 2 ^ 29 + q.flags.v.toNat * 2 ^ 28
        + x * 2 ^ 8 + q.i.toNat * 2 ^ 7 + q.f.toNat * 2 ^ 6 + y * 2 ^ 5 + q.m.toNat := by
  refine ⟨_, _, Nat.mod_lt _ (by decide), Nat.mod_lt _ (by decide), rfl, rfl, ?_⟩
  unfold Psr.toWord
  rw [toNat_cat, toNat_cat, toNat_cat, toNat_cat, toNat_cat, toNat_cat, toNat_cat, toNat_cat]
  simp only [toNat_flag, BitVec.extractLsb'_toNat, Nat.shiftRight_eq_div_pow]
  omega

/-! ### Reading and writing by number -/

theorem readBank_of_phys {s : State} {m : Mode} {n : Reg} {p : PhysReg} (off : Word) (h : phys m n = some p) :
    s.readBank m n off = s.gpr.get p := by
  simp [State.readBank, h]

theorem readReg_of_phys {s : State} {n : Reg} {p : PhysReg} (off : Word) (h : phys s.cpsr.mode n = some p) :
    s.readReg n off = s.gpr.get p := readBank_of_phys off h

/-- R15 reads as `pc` plus the offset of the instruction (10_state.md R28). -/
@[simp] theorem readBank_r15 (s : State) (m : Mode) (off : Word) : s.readBank m 15#4 off = s.pc + off := by
  simp [State.readBank, (phys_eq_none m 15#4).mpr rfl]

@[simp] theorem readReg_r15 (s : State) (off : Word) : s.readReg 15#4 off = s.pc + off := readBank_r15 s _ off

theorem writeBank_of_phys {s : State} {m : Mode} {n : Reg} {p : PhysReg} (v : Word) (h : phys m n = some p) :
    s.writeBank m n v = s.setGpr p v := by
  simp [State.writeBank, h]

theorem writeReg_of_phys {s : State} {n : Reg} {p : PhysReg} (v : Word) (h : phys s.cpsr.mode n = some p) :
    s.writeReg n v = s.setGpr p v := writeBank_of_phys v h

/-- A write of R15 is a jump (10_state.md R29). -/
@[simp] theorem writeBank_r15 (s : State) (m : Mode) (v : Word) : s.writeBank m 15#4 v = s.setPc v := by
  simp [State.writeBank, (phys_eq_none m 15#4).mpr rfl]

@[simp] theorem writeReg_r15 (s : State) (v : Word) : s.writeReg 15#4 v = s.setPc v := writeBank_r15 s _ v

/-- Everything a write by number can do: one general register, or the PC. -/
theorem writeBank_cases (s : State) (m : Mode) (n : Reg) (v : Word) :
    (∃ p, phys m n = some p ∧ s.writeBank m n v = s.setGpr p v) ∨ (n = 15#4 ∧ s.writeBank m n v = s.setPc v) := by
  cases h : phys m n with
  | none =>
    obtain rfl := (phys_eq_none m n).mp h
    exact .inr ⟨rfl, writeBank_r15 s m v⟩
  | some p => exact .inl ⟨p, rfl, writeBank_of_phys v h⟩

@[simp] theorem writeBank_cpsr (s : State) (m : Mode) (n : Reg) (v : Word) : (s.writeBank m n v).cpsr = s.cpsr := by
  unfold State.writeBank; split <;> rfl
@[simp] theorem writeBank_spsrs (s : State) (m : Mode) (n : Reg) (v : Word) : (s.writeBank m n v).spsrs = s.spsrs := by
  unfold State.writeBank; split <;> rfl
@[simp] theorem writeBank_mem (s : State) (m : Mode) (n : Reg) (v : Word) : (s.writeBank m n v).mem = s.mem := by
  unfold State.writeBank; split <;> rfl
@[simp] theorem writeBank_userLdm (s : State) (m : Mode) (n : Reg) (v : Word) :
    (s.writeBank m n v).userLdm = s.userLdm := by
  unfold State.writeBank; split <;> rfl
@[simp] theorem writeBank_lines (s : State) (m : Mode) (n : Reg) (v : Word) : (s.writeBank m n v).lines = s.lines := by
  unfold State.writeBank; split <;> rfl
@[simp] theorem writeBank_schedule (s : State) (m : Mode) (n : Reg) (v : Word) :
    (s.writeBank m n v).schedule = s.schedule := by
  unfold State.writeBank; split <;> rfl
@[simp] theorem writeBank_others (s : State) (m : Mode) (n : Reg) (v : Word) :
    (s.writeBank m n v).others = s.others := by
  unfold State.writeBank; split <;> rfl
@[simp] theorem writeBank_draws (s : State) (m : Mode) (n : Reg) (v : Word) : (s.writeBank m n v).draws = s.draws := by
  unfold State.writeBank; split <;> rfl

@[simp] theorem writeReg_cpsr (s : State) (n : Reg) (v : Word) : (s.writeReg n v).cpsr = s.cpsr := writeBank_cpsr ..
@[simp] theorem writeReg_spsrs (s : State) (n : Reg) (v : Word) : (s.writeReg n v).spsrs = s.spsrs := writeBank_spsrs ..
@[simp] theorem writeReg_mem (s : State) (n : Reg) (v : Word) : (s.writeReg n v).mem = s.mem := writeBank_mem ..
@[simp] theorem writeReg_userLdm (s : State) (n : Reg) (v : Word) : (s.writeReg n v).userLdm = s.userLdm :=
  writeBank_userLdm ..
@[simp] theorem writeReg_lines (s : State) (n : Reg) (v : Word) : (s.writeReg n v).lines = s.lines := writeBank_lines ..
@[simp] theorem writeReg_schedule (s : State) (n : Reg) (v : Word) : (s.writeReg n v).schedule = s.schedule :=
  writeBank_schedule ..
@[simp] theorem writeReg_others (s : State) (n : Reg) (v : Word) : (s.writeReg n v).others = s.others :=
  writeBank_others ..
@[simp] theorem writeReg_draws (s : State) (n : Reg) (v : Word) : (s.writeReg n v).draws = s.draws := writeBank_draws ..

/-- A register of the bank after a write by number. -/
theorem writeBank_get (s : State) (m : Mode) (n : Reg) (v : Word) (q : PhysReg) :
    (s.writeBank m n v).gpr.get q = if phys m n = some q then v else s.gpr.get q := by
  unfold State.writeBank
  cases h : phys m n with
  | none => simp
  | some p => simp [get_set, eq_comm]

/-- The PC after a write by number. -/
theorem writeBank_pcBits (s : State) (m : Mode) (n : Reg) (v : Word) :
    (s.writeBank m n v).pcBits = if n = 15#4 then v.extractLsb' 2 30 else s.pcBits := by
  rcases writeBank_cases s m n v with ⟨p, h, e⟩ | ⟨rfl, e⟩
  · have : n ≠ 15#4 := by rintro rfl; simp [(phys_eq_none m 15#4).mpr rfl] at h
    simp [e, this]
  · simp

/-! ### Several writes -/

@[simp] theorem writeBanks_cpsr (l : List (Reg × Word)) (s : State) (m : Mode) : (s.writeBanks m l).cpsr = s.cpsr := by
  induction l generalizing s with
  | nil => rfl
  | cons x l ih => simp [State.writeBanks, ih]
@[simp] theorem writeBanks_spsrs (l : List (Reg × Word)) (s : State) (m : Mode) :
    (s.writeBanks m l).spsrs = s.spsrs := by
  induction l generalizing s with
  | nil => rfl
  | cons x l ih => simp [State.writeBanks, ih]
@[simp] theorem writeBanks_mem (l : List (Reg × Word)) (s : State) (m : Mode) : (s.writeBanks m l).mem = s.mem := by
  induction l generalizing s with
  | nil => rfl
  | cons x l ih => simp [State.writeBanks, ih]
@[simp] theorem writeBanks_userLdm (l : List (Reg × Word)) (s : State) (m : Mode) :
    (s.writeBanks m l).userLdm = s.userLdm := by
  induction l generalizing s with
  | nil => rfl
  | cons x l ih => simp [State.writeBanks, ih]
@[simp] theorem writeBanks_lines (l : List (Reg × Word)) (s : State) (m : Mode) :
    (s.writeBanks m l).lines = s.lines := by
  induction l generalizing s with
  | nil => rfl
  | cons x l ih => simp [State.writeBanks, ih]
@[simp] theorem writeBanks_schedule (l : List (Reg × Word)) (s : State) (m : Mode) :
    (s.writeBanks m l).schedule = s.schedule := by
  induction l generalizing s with
  | nil => rfl
  | cons x l ih => simp [State.writeBanks, ih]
@[simp] theorem writeBanks_others (l : List (Reg × Word)) (s : State) (m : Mode) :
    (s.writeBanks m l).others = s.others := by
  induction l generalizing s with
  | nil => rfl
  | cons x l ih => simp [State.writeBanks, ih]
@[simp] theorem writeBanks_draws (l : List (Reg × Word)) (s : State) (m : Mode) :
    (s.writeBanks m l).draws = s.draws := by
  induction l generalizing s with
  | nil => rfl
  | cons x l ih => simp [State.writeBanks, ih]

/-- A register that no number of the list names keeps its value. -/
theorem writeBanks_get_other (l : List (Reg × Word)) (s : State) (m : Mode) (q : PhysReg)
    (h : ∀ x ∈ l, phys m x.1 ≠ some q) : (s.writeBanks m l).gpr.get q = s.gpr.get q := by
  induction l generalizing s with
  | nil => rfl
  | cons x l ih =>
    rw [State.writeBanks, ih _ fun y hy => h y (List.mem_cons_of_mem _ hy), writeBank_get]
    simp [h x List.mem_cons_self]

/-- A register that the list names once receives the value that stands beside it. -/
theorem writeBanks_get_mem (l : List (Reg × Word)) (s : State) (m : Mode) (q : PhysReg) (n : Reg) (v : Word)
    (hq : phys m n = some q) (hn : (l.map Prod.fst).Nodup) (h : (n, v) ∈ l) :
    (s.writeBanks m l).gpr.get q = v := by
  induction l generalizing s with
  | nil => cases h
  | cons x l ih =>
    rw [List.map_cons, List.nodup_cons] at hn
    rw [State.writeBanks]
    rcases List.mem_cons.mp h with rfl | h
    · rw [writeBanks_get_other, writeBank_get, if_pos hq]
      intro y hy e
      exact hn.1 (List.mem_map.mpr ⟨y, hy, phys_injective (e.trans hq.symm)⟩)
    · exact ih _ hn.2 h

/-- The PC stays if R15 is not among the registers written. -/
theorem writeBanks_pcBits_other (l : List (Reg × Word)) (s : State) (m : Mode) (h : ∀ x ∈ l, x.1 ≠ 15#4) :
    (s.writeBanks m l).pcBits = s.pcBits := by
  induction l generalizing s with
  | nil => rfl
  | cons x l ih =>
    rw [State.writeBanks, ih _ fun y hy => h y (List.mem_cons_of_mem _ hy), writeBank_pcBits]
    simp [h x List.mem_cons_self]

/-- The PC receives the value that stands beside R15. -/
theorem writeBanks_pcBits_mem (l : List (Reg × Word)) (s : State) (m : Mode) (v : Word)
    (hn : (l.map Prod.fst).Nodup) (h : (15#4, v) ∈ l) : (s.writeBanks m l).pcBits = v.extractLsb' 2 30 := by
  induction l generalizing s with
  | nil => cases h
  | cons x l ih =>
    rw [List.map_cons, List.nodup_cons] at hn
    rw [State.writeBanks]
    rcases List.mem_cons.mp h with rfl | h
    · rw [writeBanks_pcBits_other, writeBank_pcBits, if_pos rfl]
      intro y hy e
      exact hn.1 (List.mem_map.mpr ⟨y, hy, e⟩)
    · exact ih _ hn.2 h

end Sys2Proof.Machine
end

