-- ==== Sys2Proof/Laws/Ops.lean ====
section
/-! SUPPORT. What each shared operation of Machine/Ops.lean can do, said once. -/

namespace Sys2Proof.Machine

/-! ### Exceptions -/

/-- Everything an exception entry does (60_exceptions.md R230). -/
theorem takeException_eq (e : Exc) (s : State) : takeException e s =
    { s with
      gpr := s.gpr.set e.mode.link (s.pc + e.returnOffset)
      spsrs := s.spsrs.set e.mode s.cpsr.save
      cpsr := { s.cpsr with mode := e.mode, i := true, f := s.cpsr.f || e.setsF }
      pcBits := e.vector.extractLsb' 2 30
      userLdm := false } := rfl

@[simp] theorem takeException_gpr (e : Exc) (s : State) :
    (takeException e s).gpr = s.gpr.set e.mode.link (s.pc + e.returnOffset) := rfl
@[simp] theorem takeException_pcBits (e : Exc) (s : State) :
    (takeException e s).pcBits = e.vector.extractLsb' 2 30 := rfl
@[simp] theorem takeException_cpsr (e : Exc) (s : State) :
    (takeException e s).cpsr = ⟨s.cpsr.flags, true, s.cpsr.f || e.setsF, e.mode⟩ := rfl
@[simp] theorem takeException_spsrs (e : Exc) (s : State) :
    (takeException e s).spsrs = s.spsrs.set e.mode s.cpsr.save := rfl
@[simp] theorem takeException_mem (e : Exc) (s : State) : (takeException e s).mem = s.mem := rfl
@[simp] theorem takeException_userLdm (e : Exc) (s : State) : (takeException e s).userLdm = false := rfl
@[simp] theorem takeException_lines (e : Exc) (s : State) : (takeException e s).lines = s.lines := rfl
@[simp] theorem takeException_schedule (e : Exc) (s : State) : (takeException e s).schedule = s.schedule := rfl
@[simp] theorem takeException_others (e : Exc) (s : State) : (takeException e s).others = s.others := rfl
@[simp] theorem takeException_draws (e : Exc) (s : State) : (takeException e s).draws = s.draws := rfl

/-- The PC after an exception entry is the vector. -/
theorem takeException_pc (e : Exc) (s : State) : (takeException e s).pc = e.vector := by
  unfold State.pc
  rw [takeException_pcBits]
  cases e <;> decide

/-- Everything a return from an exception can do (41_data_processing.md R164). -/
theorem returnFromException_next {target : Word} {s t : State} (h : returnFromException target s = .next t) :
    ∃ p m, s.spsrs.get s.cpsr.mode = some p ∧ Mode.ofBits p.m = some m ∧
      t = { s with pcBits := target.extractLsb' 2 30, cpsr := ⟨p.flags, p.i, p.f, m⟩ } := by
  unfold returnFromException at h
  split at h
  · cases h
  · rename_i p hp
    split at h
    · cases h
    · rename_i m hm
      cases h
      exact ⟨p, m, hp, hm, rfl⟩

/-- A return with an SPSR that names a mode. -/
theorem returnFromException_ok {target : Word} {s : State} {p : Psr} {m : Mode}
    (hp : s.spsrs.get s.cpsr.mode = some p) (hm : Mode.ofBits p.m = some m) :
    returnFromException target s =
      .next { s with pcBits := target.extractLsb' 2 30, cpsr := ⟨p.flags, p.i, p.f, m⟩ } := by
  simp only [returnFromException, hp, hm]
  rfl

/-! ### The frame of an instruction -/

/-- A failed condition. -/
theorem conditional_failed {c : Cond} {reads : List Reg} {effect : State → Result} {s : State}
    (h : conditionPassed c s.cpsr.flags = false) : conditional c reads effect s = .next (s.setUserLdm false).advance := by
  simp [conditional, h]

/-- A passed condition without the hazard. -/
theorem conditional_passed {c : Cond} {reads : List Reg} {effect : State → Result} {s : State}
    (h : conditionPassed c s.cpsr.flags = true) (hz : s.hazard reads = false) :
    conditional c reads effect s = effect (s.setUserLdm false) := by
  simp [conditional, h, hz]

/-- A passed condition with the hazard. -/
theorem conditional_hazard {c : Cond} {reads : List Reg} {effect : State → Result} {s : State}
    (h : conditionPassed c s.cpsr.flags = true) (hz : s.hazard reads = true) :
    conditional c reads effect s = .refused .bankedReadAfterUserLdm := by
  simp [conditional, h, hz]

/-- Everything an instruction that answers a next state has done. -/
theorem conditional_next {c : Cond} {reads : List Reg} {effect : State → Result} {s t : State}
    (h : conditional c reads effect s = .next t) :
    (conditionPassed c s.cpsr.flags = false ∧ t = (s.setUserLdm false).advance) ∨
    (conditionPassed c s.cpsr.flags = true ∧ s.hazard reads = false ∧ effect (s.setUserLdm false) = .next t) := by
  unfold conditional at h
  split at h
  · split at h
    · cases h
    · exact .inr ⟨‹_›, by simp_all, h⟩
  · cases h
    exact .inl ⟨by simp_all, rfl⟩

/-! ### Data accesses -/

/-- A word-aligned address is four times its word address (20_memory.md R60). -/
theorem aligned_some {v : Word} {a : WordAddr} (h : aligned v = some a) :
    v.extractLsb' 0 2 = 0#2 ∧ a = v.extractLsb' 2 30 := by
  unfold aligned at h
  split at h <;> simp_all

theorem aligned_of_low {v : Word} (h : v.extractLsb' 0 2 = 0#2) : aligned v = some (v.extractLsb' 2 30) := by
  simp [aligned, h]

@[simp] theorem aborted_setUserLdm (s : State) (b : Bool) (k : AccessKind) (a : WordAddr) :
    (s.setUserLdm b).aborted k a = s.aborted k a := rfl
@[simp] theorem aborted_useDraws (s : State) (n : Nat) (k : AccessKind) (a : WordAddr) :
    (s.useDraws n).aborted k a = s.aborted k a := rfl
@[simp] theorem aborted_setMem (s : State) (m : Memory) (k : AccessKind) (a : WordAddr) :
    (s.setMem m).aborted k a = s.aborted k a := rfl
@[simp] theorem readBank_setUserLdm (s : State) (b : Bool) (m : Mode) (n : Reg) (off : Word) :
    (s.setUserLdm b).readBank m n off = s.readBank m n off := rfl
@[simp] theorem readReg_setUserLdm (s : State) (b : Bool) (n : Reg) (off : Word) :
    (s.setUserLdm b).readReg n off = s.readReg n off := rfl

@[simp] theorem aborted_othersStore (s : State) (k : AccessKind) (a : WordAddr) :
    s.othersStore.aborted k a = s.aborted k a := rfl
@[simp] theorem aborted_othersStores (s : State) (n : Nat) (k : AccessKind) (a : WordAddr) :
    (s.othersStores n).aborted k a = s.aborted k a := by
  simp [State.aborted]

/-- Everything a read of a word can do (20_memory.md R66), after what other bus masters store before it (R77). -/
theorem memRead_cases (a : WordAddr) (s : State) :
    (s.aborted .read a = true ∧ memRead a s = (none, s.othersStore)) ∨
    (∃ w, s.aborted .read a = false ∧ s.othersStore.mem.word a = some w ∧ memRead a s = (some w, s.othersStore)) ∨
    (s.aborted .read a = false ∧ s.othersStore.mem.word a = none ∧
      memRead a s = (some (Config.draw s.draws), s.othersStore.useDraws 1)) := by
  unfold memRead answerRead
  rw [aborted_othersStore]
  cases h : s.aborted .read a with
  | true => exact .inl ⟨rfl, by simp⟩
  | false =>
    cases hw : s.othersStore.mem.word a with
    | none => exact .inr (.inr ⟨rfl, rfl, by simp [State.freeValue]⟩)
    | some w => exact .inr (.inl ⟨w, rfl, rfl, by simp⟩)

theorem memRead_aborted {a : WordAddr} {s : State} (h : s.aborted .read a = true) :
    memRead a s = (none, s.othersStore) := by
  simp [memRead, answerRead, h]

theorem memRead_word {a : WordAddr} {s : State} {w : Word} (h : s.aborted .read a = false)
    (hw : s.othersStore.mem.word a = some w) : memRead a s = (some w, s.othersStore) := by
  simp only [memRead, answerRead, aborted_othersStore, h, hw]
  rfl

theorem memRead_unpopulated {a : WordAddr} {s : State} (h : s.aborted .read a = false)
    (hw : s.othersStore.mem.word a = none) : memRead a s = (some (Config.draw s.draws), s.othersStore.useDraws 1) := by
  simp only [memRead, answerRead, aborted_othersStore, h, hw]
  rfl

/-- The state after a read is what other bus masters left, but for the count of free values. -/
theorem memRead_state (a : WordAddr) (s : State) : ∃ k, (memRead a s).2 = s.othersStore.useDraws k := by
  rcases memRead_cases a s with ⟨-, h⟩ | ⟨w, -, -, h⟩ | ⟨-, -, h⟩
  · exact ⟨0, by rw [h]; rfl⟩
  · exact ⟨0, by rw [h]; rfl⟩
  · exact ⟨1, by rw [h]⟩

/-- A write of a word is a change of memory, after what other bus masters store before it (20_memory.md R67, R77). -/
theorem memWrite_eq (a : WordAddr) (v : Word) (s : State) :
    memWrite a v s =
      s.othersStore.setMem (if s.aborted .write a then s.othersStore.mem else s.othersStore.mem.setWord a v) := by
  unfold memWrite answerWrite
  rw [aborted_othersStore]
  split <;> rfl

/-- The state after reading words is what other bus masters left after that many accesses, aborted or not, but for the
count of free values. -/
theorem loadWords_state (l : List WordAddr) (s : State) :
    ∃ d, (loadWords l s).2.2 = (s.othersStores l.length).useDraws d := by
  induction l generalizing s with
  | nil => exact ⟨0, rfl⟩
  | cons a l ih =>
    rcases memRead_cases a s with ⟨-, h⟩ | ⟨w, -, -, h⟩ | ⟨-, -, h⟩
    · exact ⟨0, by simp only [loadWords, h]; rfl⟩
    · obtain ⟨d, hd⟩ := ih s.othersStore
      exact ⟨d, by simp only [loadWords, h]; exact hd⟩
    · obtain ⟨d, hd⟩ := ih (s.othersStore.useDraws 1)
      refine ⟨1 + d, ?_⟩
      simp only [loadWords, h]
      rw [hd, othersStores_useDraws]
      simp [State.useDraws, State.othersStores, Nat.add_assoc]

/-- Reading words without an abort gives one word for each address. -/
theorem loadWords_length (l : List WordAddr) (s : State) (h : (loadWords l s).2.1 = false) :
    (loadWords l s).1.length = l.length := by
  induction l generalizing s with
  | nil => rfl
  | cons a l ih =>
    rcases memRead_cases a s with ⟨-, e⟩ | ⟨w, -, -, e⟩ | ⟨-, -, e⟩
    · simp [loadWords, e] at h
    · simp only [loadWords, e] at h ⊢
      simp [ih _ h]
    · simp only [loadWords, e] at h ⊢
      simp [ih _ h]

/-- Reading words none of which is aborted: each is the word found when its turn comes, or, where nothing is populated
there, the next free value. `c k` is the count of free values drawn before access `k`. -/
theorem loadWords_reads (n : Nat) (a : Nat → WordAddr) (v : Nat → Word) (c : Nat → Nat) (s : State)
    (h0 : c 0 = s.draws) (h : ∀ k, k < n → s.aborted .read (a k) = false ∧
      (((s.othersStores (k + 1)).mem.word (a k) = some (v k) ∧ c (k + 1) = c k) ∨
        ((s.othersStores (k + 1)).mem.word (a k) = none ∧ v k = Config.draw (c k) ∧ c (k + 1) = c k + 1))) :
    loadWords ((List.range n).map a) s = ((List.range n).map v, false, { s.othersStores n with draws := c n }) := by
  induction n generalizing a v c s with
  | zero =>
    simp only [List.range_zero, List.map_nil, loadWords, h0]
    rfl
  | succ n ih =>
    obtain ⟨h1, ⟨h2, h3⟩ | ⟨h2, h3, h4⟩⟩ := h 0 (by omega)
    · have := ih (fun k => a (k + 1)) (fun k => v (k + 1)) (fun k => c (k + 1)) s.othersStore (by simp [h3, h0])
        fun k hk => by simpa [State.othersStores] using h (k + 1) (by omega)
      rw [List.range_succ_eq_map, List.map_cons, List.map_cons, List.map_map, List.map_map, loadWords,
        memRead_word h1 h2]
      simp only [Function.comp_def, Nat.succ_eq_add_one, this]
      rfl
    · have := ih (fun k => a (k + 1)) (fun k => v (k + 1)) (fun k => c (k + 1)) (s.othersStore.useDraws 1)
        (by simp [h4, h0]) fun k hk => by
          rw [othersStores_useDraws]
          simpa [State.othersStores] using h (k + 1) (by omega)
      rw [List.range_succ_eq_map, List.map_cons, List.map_cons, List.map_map, List.map_map, loadWords,
        memRead_unpopulated h1 h2]
      simp only [Function.comp_def, Nat.succ_eq_add_one, this, h3, h0, othersStores_useDraws]
      rfl

/-- Reading words up to an aborted access: the accesses after it are still made. -/
theorem loadWords_upto (l1 : List WordAddr) (a : WordAddr) (rest : List WordAddr) (s : State) (ws : List Word)
    (t : State) (h : loadWords l1 s = (ws, false, t)) (ha : s.aborted .read a = true) :
    loadWords (l1 ++ a :: rest) s = (ws, true, t.othersStores (1 + rest.length)) := by
  induction l1 generalizing s ws with
  | nil =>
    cases h
    rw [List.nil_append, loadWords, memRead_aborted ha, Nat.add_comm]
    rfl
  | cons b l ih =>
    have hb : s.othersStore.aborted .read a = true := by simpa using ha
    rcases memRead_cases b s with ⟨-, e⟩ | ⟨w, -, -, e⟩ | ⟨-, -, e⟩ <;>
      simp only [loadWords, List.cons_append, e, Prod.mk.injEq] at h ⊢
    · simp at h
    · obtain ⟨rfl, h2, h3⟩ := h
      rw [ih _ _ (Prod.ext rfl (Prod.ext h2 h3)) hb]
      exact ⟨rfl, rfl, rfl⟩
    · obtain ⟨rfl, h2, h3⟩ := h
      rw [ih _ _ (Prod.ext rfl (Prod.ext h2 h3)) hb]
      exact ⟨rfl, rfl, rfl⟩

/-- A word that other bus masters do not store to keeps its value. -/
theorem word_othersStores_other (s : State) (n : Nat) (a : WordAddr)
    (h : ∀ j ws, j < n → s.others[j]? = some ws → ∀ x ∈ ws, x.1 ≠ a) :
    (s.othersStores n).mem.word a = s.mem.word a := by
  induction n generalizing s with
  | zero => rfl
  | succ n ih =>
    rw [State.othersStores, ih, othersStore_mem, word_setWords_other]
    · cases ho : s.others with
      | nil => simp
      | cons ws rest => exact h 0 ws (by omega) (by simp [ho])
    · intro j ws hj hws
      rw [othersStore_others, List.getElem?_tail] at hws
      exact h (j + 1) ws (by omega) hws

/-- Writing words changes memory as a list of word stores does, and nothing else but the list of what other bus masters
will store (20_memory.md R64, R67). -/
theorem storeWords_state (l : List (WordAddr × Word)) (s : State) :
    ∃ ws, storeWords l s = (s.othersStores l.length).setMem (s.mem.setWords ws) := by
  induction l generalizing s with
  | nil => exact ⟨[], rfl⟩
  | cons x l ih =>
    obtain ⟨a, v⟩ := x
    obtain ⟨ws, hw⟩ := ih (memWrite a v s)
    have e : ∀ m : Memory, ((s.othersStore.setMem m).othersStores l.length).setMem =
        (s.othersStores (l.length + 1)).setMem := by
      intro m
      funext m'
      rw [State.othersStores, othersStores_eq, othersStores_eq s.othersStore]
      rfl
    rw [storeWords, hw, memWrite_eq]
    cases s.aborted .write a with
    | true =>
      refine ⟨s.others.headD [] ++ ws, ?_⟩
      rw [e, setWords_append]
      rfl
    | false =>
      refine ⟨s.others.headD [] ++ (a, v) :: ws, ?_⟩
      rw [e, setWords_append]
      rfl

/-- A byte that none of the stores reaches holds what other bus masters left in it. -/
theorem storeWords_byte_other (l : List (WordAddr × Word)) (s u : State) (b : Nat) (ho : u.others = s.others)
    (hb : s.mem.byte b = u.mem.byte b)
    (h : ∀ x ∈ l, s.aborted .write x.1 = false → b < byteAddr x.1 ∨ byteAddr x.1 + 4 ≤ b) :
    (storeWords l s).mem.byte b = (u.othersStores l.length).mem.byte b := by
  induction l generalizing s u with
  | nil => exact hb
  | cons x l ih =>
    obtain ⟨a, v⟩ := x
    have h1 : s.othersStore.mem.byte b = u.othersStore.mem.byte b := by
      rw [othersStore_mem, othersStore_mem, ho]
      exact byte_setWords_congr _ hb
    rw [storeWords, List.length_cons, State.othersStores]
    apply ih
    · rw [memWrite_eq, othersStore_others, ho]
      rfl
    · rw [memWrite_eq, setMem_mem]
      cases hab : s.aborted .write a with
      | true => exact h1
      | false =>
        rw [← h1]
        exact byte_setWord_other _ _ _ _ (h (a, v) List.mem_cons_self hab)
    · intro y hy hab
      apply h y (List.mem_cons_of_mem _ hy)
      rw [memWrite_eq] at hab
      simpa using hab

/-- A word that none of the stores reaches is what other bus masters left there. -/
theorem storeWords_word_other (l : List (WordAddr × Word)) (s u : State) (a : WordAddr) (ho : u.others = s.others)
    (hb : ∀ k, k < 4 → s.mem.byte (byteAddr a + k) = u.mem.byte (byteAddr a + k)) (h : ∀ x ∈ l, x.1 ≠ a) :
    (storeWords l s).mem.word a = (u.othersStores l.length).mem.word a := by
  apply word_congr
  intro k hk
  apply storeWords_byte_other l s u _ ho (hb k hk)
  intro x hx _
  by_contra hc
  exact byteAddr_disjoint (h x hx) (byteAddr a + k - byteAddr x.1) k (by omega) hk (by omega)

/-- The k-th word stored is in memory afterwards, unless another bus master stores over it in the meantime. -/
theorem storeWords_word (l : List (WordAddr × Word)) (s : State) (k : Nat) (a : WordAddr) (v : Word)
    (hn : (l.map Prod.fst).Nodup) (hk : l[k]? = some (a, v)) (hab : s.aborted .write a = false)
    (hl : ∀ j ws, k < j → j < l.length → s.others[j]? = some ws → ∀ x ∈ ws, x.1 ≠ a) :
    (storeWords l s).mem.word a = some v := by
  induction l generalizing s k with
  | nil => simp at hk
  | cons x l ih =>
    obtain ⟨b, w⟩ := x
    rw [List.map_cons, List.nodup_cons] at hn
    rw [storeWords]
    cases k with
    | zero =>
      cases Option.some.inj hk
      have hne : ∀ x ∈ l, x.1 ≠ a := fun x hx e => hn.1 (List.mem_map.mpr ⟨x, hx, e⟩)
      rw [storeWords_word_other l _ (memWrite a v s) a rfl (fun _ _ => rfl) hne]
      rw [word_othersStores_other]
      · rw [memWrite_eq, setMem_mem, hab]
        exact word_setWord_same ..
      · intro j ws hj hws
        rw [memWrite_eq, setMem_others, othersStore_others, List.getElem?_tail] at hws
        exact hl (j + 1) ws (by omega) (by simpa using hj) hws
    | succ k =>
      apply ih _ k hn.2 hk
      · rw [memWrite_eq]
        simpa using hab
      · intro j ws hkj hj hws
        rw [memWrite_eq, setMem_others, othersStore_others, List.getElem?_tail] at hws
        exact hl (j + 1) ws (by omega) (by simpa using hj) hws

/-- A word that another bus master stores over at or after the `j`-th access, and that no later store of the processor
reaches, holds what the other bus masters left there. -/
theorem storeWords_word_over (l : List (WordAddr × Word)) (s u : State) (a : WordAddr) (ho : u.others = s.others)
    (j : Nat) (hj : j < l.length) (hs : ∃ ws, s.others[j]? = some ws ∧ ∃ x ∈ ws, x.1 = a)
    (hl : ∀ i x, j ≤ i → l[i]? = some x → x.1 ≠ a) :
    (storeWords l s).mem.word a = (u.othersStores l.length).mem.word a := by
  induction l generalizing s u j with
  | nil => simp at hj
  | cons x l ih =>
    obtain ⟨b, v⟩ := x
    have ho' : u.othersStore.others = (memWrite b v s).others := by
      rw [memWrite_eq, setMem_others, othersStore_others, othersStore_others, ho]
    rw [storeWords, List.length_cons, State.othersStores]
    cases j with
    | zero =>
      apply storeWords_word_other l _ _ a ho'
      · intro k hk
        obtain ⟨ws, hw, hx⟩ := hs
        have hh : s.others.headD [] = ws := by
          cases ho2 : s.others with
          | nil => simp [ho2] at hw
          | cons c r => simpa [ho2] using hw
        have hb := byte_setWords_mem ws s.mem u.mem a k hk hx
        have hne : b ≠ a := hl 0 (b, v) (by omega) rfl
        rw [memWrite_eq, setMem_mem, othersStore_mem, othersStore_mem, ho, hh]
        split
        · exact hb
        · rw [byte_setWord_other, hb]
          by_contra hc
          exact byteAddr_disjoint hne (byteAddr a + k - byteAddr b) k (by omega) hk (by omega)
      · intro y hy
        obtain ⟨i, hi, rfl⟩ := List.mem_iff_getElem.mp hy
        exact hl (i + 1) _ (by omega) (by simp [hi])
    | succ j =>
      apply ih _ _ ho' j (by simpa using hj)
      · obtain ⟨ws, hw, hx⟩ := hs
        exact ⟨ws, by rw [memWrite_eq, setMem_others, othersStore_others, List.getElem?_tail]; exact hw, hx⟩
      · intro i y hij hi
        exact hl (i + 1) y (by omega) (by simpa using hi)

end Sys2Proof.Machine
end

