-- ==== Sys2Proof/Laws/Operands.lean ====
section
/-! SUPPORT. Facts about operand forms: the register list of a block data transfer and its addresses
(44_block_data_transfer.md R200). -/

namespace Sys2Proof.Machine

/-- A register is transferred exactly when its bit is set (30_encoding.md R106). -/
theorem mem_regsOf (list : BitVec 16) (r : Reg) : r ∈ regsOf list ↔ list.getLsbD r.toNat = true := by
  simp only [regsOf, List.mem_map, List.mem_filter, List.mem_range]
  constructor
  · rintro ⟨k, ⟨hk, hb⟩, rfl⟩
    rw [BitVec.toNat_ofNat, Nat.mod_eq_of_lt (by omega)]
    exact hb
  · intro h
    exact ⟨r.toNat, ⟨r.isLt, h⟩, by simp⟩

/-- No register is transferred twice. -/
theorem regsOf_nodup (list : BitVec 16) : (regsOf list).Nodup := by
  apply List.Nodup.map_on
  · intro x hx y hy h
    simp only [List.mem_filter, List.mem_range] at hx hy
    have := congrArg BitVec.toNat h
    simp only [BitVec.toNat_ofNat] at this
    omega
  · exact List.Nodup.filter _ List.nodup_range

/-- At most sixteen registers are transferred. -/
theorem regsOf_length (list : BitVec 16) : (regsOf list).length ≤ 16 := by
  simp only [regsOf, List.length_map]
  exact (List.length_filter_le _ _).trans (by simp)

/-- An empty list is the only one that transfers nothing. -/
theorem regsOf_eq_nil (list : BitVec 16) : regsOf list = [] ↔ list = 0#16 := by
  constructor
  · intro h
    apply BitVec.eq_of_getLsbD_eq
    intro k hk
    by_contra hb
    have : (BitVec.ofNat 4 k) ∈ regsOf list := by
      rw [mem_regsOf, BitVec.toNat_ofNat, Nat.mod_eq_of_lt (by omega)]
      simpa using hb
    simp [h] at this
  · rintro rfl
    decide

/-! ### Addresses -/

/-- Adding 4 to a byte address adds 1 to its word address. -/
theorem word_add_four_mul (x : Word) (k : Nat) :
    (x + BitVec.ofNat 32 (4 * k)).extractLsb' 2 30 = x.extractLsb' 2 30 + BitVec.ofNat 30 k := by
  apply BitVec.eq_of_toNat_eq
  have := x.isLt
  simp only [BitVec.extractLsb'_toNat, BitVec.toNat_add, BitVec.toNat_ofNat, Nat.shiftRight_eq_div_pow]
  omega

@[simp] theorem blockAddrs_length (bm : BlockMode) (base : Word) (n : Nat) : (blockAddrs bm base n).length = n := by
  simp [blockAddrs]

/-- The k-th address of a block data transfer (R200). -/
theorem blockAddrs_getElem (bm : BlockMode) (base : Word) (n k : Nat) (h : k < n) :
    (blockAddrs bm base n)[k]? =
      some ((blockStart bm base n + BitVec.ofNat 32 (4 * k)).extractLsb' 2 30) := by
  simp [blockAddrs, h]

/-- No address of a block data transfer occurs twice. -/
theorem blockAddrs_nodup (bm : BlockMode) (base : Word) (n : Nat) (hn : n ≤ 16) : (blockAddrs bm base n).Nodup := by
  apply List.Nodup.map_on
  · intro x hx y hy h
    simp only [List.mem_range] at hx hy
    rw [word_add_four_mul, word_add_four_mul] at h
    have h2 := (BitVec.add_right_inj _).mp h
    have := congrArg BitVec.toNat h2
    simp only [BitVec.toNat_ofNat] at this
    omega
  · exact List.nodup_range

end Sys2Proof.Machine
end

