-- ==== Sys2Proof/Laws/Exec.lean ====
section
/-! SUPPORT. What the meanings can do: `exec` on each shape of instruction, and for each effect the shapes of
the next state it can answer, so that a proof over all instructions unfolds no meaning. -/

namespace Sys2Proof.Machine

/-- `exec` of a data-processing instruction. -/
theorem exec_dp (op : DpOp) (c : Cond) (sb : Bool) (rn rd : Reg) (o2 : Operand2) (s : State) :
    exec (.dp op c sb rn rd o2) s = dataProcessing op c sb rn rd o2 s := by
  cases op <;> cases o2 <;> rfl

/-- The condition field of a data-processing instruction. -/
@[simp] theorem cond_dp (op : DpOp) (c : Cond) (sb : Bool) (rn rd : Reg) (o2 : Operand2) :
    (Instr.dp op c sb rn rd o2).cond = c := by
  cases op <;> cases o2 <;> rfl

/-- An instruction is a data-processing instruction or one of the nineteen others. -/
theorem instr_cases {P : Instr → Prop} (dp : ∀ op c sb rn rd o2, P (.dp op c sb rn rd o2))
    (mrs : ∀ c p rd, P (.mrs c p rd)) (msrAll : ∀ c p rm, P (.msrAll c p rm))
    (msrFlgReg : ∀ c p rm, P (.msrFlgReg c p rm)) (msrFlgImm : ∀ c p o, P (.msrFlgImm c p o))
    (ldrImm : ∀ c ix rn rd v, P (.ldrImm c ix rn rd v)) (ldrReg : ∀ c ix rn rd o, P (.ldrReg c ix rn rd o))
    (strImm : ∀ c ix rn rd v, P (.strImm c ix rn rd v)) (strReg : ∀ c ix rn rd o, P (.strReg c ix rn rd o))
    (ldm : ∀ c bm rn l, P (.ldm c bm rn l)) (stm : ∀ c bm rn l, P (.stm c bm rn l))
    (b : ∀ c off, P (.b c off)) (bl : ∀ c off, P (.bl c off)) (swi : ∀ c k, P (.swi c k))
    (undef : ∀ c hi lo, P (.undef c hi lo)) (cdp : ∀ c opc crn crd cp info crm, P (.cdp c opc crn crd cp info crm))
    (ldc : ∀ c ix rn crd cp off, P (.ldc c ix rn crd cp off)) (stc : ∀ c ix rn crd cp off, P (.stc c ix rn crd cp off))
    (mrc : ∀ c opc crn rd cp info crm, P (.mrc c opc crn rd cp info crm))
    (mcr : ∀ c opc crn rd cp info crm, P (.mcr c opc crn rd cp info crm)) (i : Instr) : P i := by
  cases i
  case andImm c sb rn rd o => exact dp .and c sb rn rd (.imm o)
  case andShImm c sb rn rd o => exact dp .and c sb rn rd (.shImm o)
  case andShReg c sb rn rd o => exact dp .and c sb rn rd (.shReg o)
  case eorImm c sb rn rd o => exact dp .eor c sb rn rd (.imm o)
  case eorShImm c sb rn rd o => exact dp .eor c sb rn rd (.shImm o)
  case eorShReg c sb rn rd o => exact dp .eor c sb rn rd (.shReg o)
  case subImm c sb rn rd o => exact dp .sub c sb rn rd (.imm o)
  case subShImm c sb rn rd o => exact dp .sub c sb rn rd (.shImm o)
  case subShReg c sb rn rd o => exact dp .sub c sb rn rd (.shReg o)
  case rsbImm c sb rn rd o => exact dp .rsb c sb rn rd (.imm o)
  case rsbShImm c sb rn rd o => exact dp .rsb c sb rn rd (.shImm o)
  case rsbShReg c sb rn rd o => exact dp .rsb c sb rn rd (.shReg o)
  case addImm c sb rn rd o => exact dp .add c sb rn rd (.imm o)
  case addShImm c sb rn rd o => exact dp .add c sb rn rd (.shImm o)
  case addShReg c sb rn rd o => exact dp .add c sb rn rd (.shReg o)
  case adcImm c sb rn rd o => exact dp .adc c sb rn rd (.imm o)
  case adcShImm c sb rn rd o => exact dp .adc c sb rn rd (.shImm o)
  case adcShReg c sb rn rd o => exact dp .adc c sb rn rd (.shReg o)
  case sbcImm c sb rn rd o => exact dp .sbc c sb rn rd (.imm o)
  case sbcShImm c sb rn rd o => exact dp .sbc c sb rn rd (.shImm o)
  case sbcShReg c sb rn rd o => exact dp .sbc c sb rn rd (.shReg o)
  case rscImm c sb rn rd o => exact dp .rsc c sb rn rd (.imm o)
  case rscShImm c sb rn rd o => exact dp .rsc c sb rn rd (.shImm o)
  case rscShReg c sb rn rd o => exact dp .rsc c sb rn rd (.shReg o)
  case tstImm c rn rd o => exact dp .tst c true rn rd (.imm o)
  case tstShImm c rn rd o => exact dp .tst c true rn rd (.shImm o)
  case tstShReg c rn rd o => exact dp .tst c true rn rd (.shReg o)
  case teqImm c rn rd o => exact dp .teq c true rn rd (.imm o)
  case teqShImm c rn rd o => exact dp .teq c true rn rd (.shImm o)
  case teqShReg c rn rd o => exact dp .teq c true rn rd (.shReg o)
  case cmpImm c rn rd o => exact dp .cmp c true rn rd (.imm o)
  case cmpShImm c rn rd o => exact dp .cmp c true rn rd (.shImm o)
  case cmpShReg c rn rd o => exact dp .cmp c true rn rd (.shReg o)
  case cmnImm c rn rd o => exact dp .cmn c true rn rd (.imm o)
  case cmnShImm c rn rd o => exact dp .cmn c true rn rd (.shImm o)
  case cmnShReg c rn rd o => exact dp .cmn c true rn rd (.shReg o)
  case orrImm c sb rn rd o => exact dp .orr c sb rn rd (.imm o)
  case orrShImm c sb rn rd o => exact dp .orr c sb rn rd (.shImm o)
  case orrShReg c sb rn rd o => exact dp .orr c sb rn rd (.shReg o)
  case movImm c sb rn rd o => exact dp .mov c sb rn rd (.imm o)
  case movShImm c sb rn rd o => exact dp .mov c sb rn rd (.shImm o)
  case movShReg c sb rn rd o => exact dp .mov c sb rn rd (.shReg o)
  case bicImm c sb rn rd o => exact dp .bic c sb rn rd (.imm o)
  case bicShImm c sb rn rd o => exact dp .bic c sb rn rd (.shImm o)
  case bicShReg c sb rn rd o => exact dp .bic c sb rn rd (.shReg o)
  case mvnImm c sb rn rd o => exact dp .mvn c sb rn rd (.imm o)
  case mvnShImm c sb rn rd o => exact dp .mvn c sb rn rd (.shImm o)
  case mvnShReg c sb rn rd o => exact dp .mvn c sb rn rd (.shReg o)
  case mrs => exact mrs ..
  case msrAll => exact msrAll ..
  case msrFlgReg => exact msrFlgReg ..
  case msrFlgImm => exact msrFlgImm ..
  case ldrImm => exact ldrImm ..
  case ldrReg => exact ldrReg ..
  case strImm => exact strImm ..
  case strReg => exact strReg ..
  case ldm => exact ldm ..
  case stm => exact stm ..
  case b => exact b ..
  case bl => exact bl ..
  case swi => exact swi ..
  case undef => exact undef ..
  case cdp => exact cdp ..
  case ldc => exact ldc ..
  case stc => exact stc ..
  case mrc => exact mrc ..
  case mcr => exact mcr ..

/-- A data-processing effect without a refusal (R140). -/
theorem dpRefusal_none {op : DpOp} {rd : Reg} {o2 : Operand2}
    (hs : ∀ o, o2 = .shReg o → o.rs ≠ 15#4) (hd : isCompare op = true → rd ≠ 15#4) : dpRefusal op rd o2 = none := by
  have h : (isCompare op && rd == 15#4) = false := by
    cases hc : isCompare op with
    | false => rfl
    | true => simp [hd hc]
  cases o2 with
  | imm o => simp [dpRefusal, h]
  | shImm o => simp [dpRefusal, h]
  | shReg o => simp [dpRefusal, h, hs o rfl]

/-- Everything a data-processing effect can do. -/
theorem dpEffect_next {op : DpOp} {sb : Bool} {rn rd : Reg} {o2 : Operand2} {s t : State}
    (h : dpEffect op sb rn rd o2 s = .next t) :
    (t = (s.setFlags (dpOut op rn o2 s).flags).advance) ∨
    (returnFromException (dpOut op rn o2 s).result s = .next t) ∨
    (t = s.setPc (dpOut op rn o2 s).result) ∨
    (rd ≠ 15#4 ∧ t = ((s.writeReg rd (dpOut op rn o2 s).result).setFlags (dpOut op rn o2 s).flags).advance) ∨
    (rd ≠ 15#4 ∧ t = (s.writeReg rd (dpOut op rn o2 s).result).advance) := by
  unfold dpEffect at h
  split at h
  · cases h
  · dsimp only at h
    split at h
    · cases h
      exact .inl rfl
    · split at h
      · split at h
        · exact .inr (.inl h)
        · cases h
          exact .inr (.inr (.inl rfl))
      · rename_i hd
        split at h
        · cases h
          exact .inr (.inr (.inr (.inl ⟨hd, rfl⟩)))
        · cases h
          exact .inr (.inr (.inr (.inr ⟨hd, rfl⟩)))

/-- Everything LDR can do: an abort entry after the write-back, or a load. -/
theorem loadEffect_next {ix : Index} {rn rd : Reg} {off : Offset} {s t : State}
    (h : loadEffect ix rn rd off s = .next t) :
    transferRefusal ix rn rd off = none ∧ ∃ a, aligned (transferAddr ix rn off s) = some a ∧
      ((s.aborted .read a = true ∧
          t = takeException .dataAbort (s.othersStore.transferWriteback ix rn (transferTarget ix rn off s))) ∨
        (∃ v k, t = (((s.othersStore.useDraws k).advance.transferWriteback ix rn (transferTarget ix rn off s)).writeReg rd v))) := by
  unfold loadEffect at h
  split at h
  · cases h
  · rename_i hr
    split at h
    · cases h
    · rename_i a ha
      refine ⟨hr, a, ha, ?_⟩
      dsimp only at h
      rcases memRead_cases a s with ⟨hab, e⟩ | ⟨w, -, -, e⟩ | ⟨-, -, e⟩
      · rw [e] at h
        cases h
        exact .inl ⟨hab, rfl⟩
      · rw [e] at h
        cases h
        exact .inr ⟨w, 0, rfl⟩
      · rw [e] at h
        cases h
        exact .inr ⟨_, 1, rfl⟩

/-- Everything STR can do: a store and the write-back, then an abort entry or the next instruction. -/
theorem storeEffect_next {ix : Index} {rn rd : Reg} {off : Offset} {s t : State}
    (h : storeEffect ix rn rd off s = .next t) :
    transferRefusal ix rn rd off = none ∧ ∃ a, aligned (transferAddr ix rn off s) = some a ∧ s.inPrefetch a = false ∧
      ((s.aborted .write a = true ∧
          t = takeException .dataAbort (s.othersStore.transferWriteback ix rn (transferTarget ix rn off s))) ∨
        (s.aborted .write a = false ∧
          t = ((s.othersStore.setMem (s.othersStore.mem.setWord a (s.readReg rd Config.pcStoreOffset))).transferWriteback ix rn
            (transferTarget ix rn off s)).advance)) := by
  unfold storeEffect at h
  split at h
  · cases h
  · rename_i hr
    split at h
    · cases h
    · rename_i a ha
      refine ⟨hr, a, ha, ?_⟩
      dsimp only at h
      split at h
      · cases h
      · rename_i hp
        refine ⟨by simpa using hp, ?_⟩
        rw [memWrite_eq] at h
        cases hab : s.aborted .write a with
        | true =>
          simp only [hab, if_true] at h
          cases h
          exact .inl ⟨rfl, rfl⟩
        | false =>
          simp only [hab] at h
          cases h
          exact .inr ⟨rfl, rfl⟩

/-- Everything LDM can do. -/
theorem ldmEffect_next {bm : BlockMode} {rn : Reg} {list : BitVec 16} {s t : State}
    (h : ldmEffect bm rn list s = .next t) :
    ldmRefusal bm rn list s.cpsr.mode = none ∧ ∃ ws k,
      (ldmAborted ((ldmForm bm list).bank s) bm rn (s.readReg rn 8)
          (blockFinal bm (s.readReg rn 8) (regsOf list).length) (regsOf list) ws
          ((s.othersStores (regsOf list).length).useDraws k) = .next t) ∨
      (ws.length = (regsOf list).length ∧
        ldmCompleted (ldmForm bm list) bm rn (blockFinal bm (s.readReg rn 8) (regsOf list).length) (regsOf list) ws
          ((s.othersStores (regsOf list).length).useDraws k) = .next t) := by
  unfold ldmEffect at h
  split at h
  · cases h
  · rename_i hr
    refine ⟨hr, ?_⟩
    dsimp only at h
    split at h
    · cases h
    · obtain ⟨k, hk⟩ := loadWords_state (blockAddrs bm (s.readReg rn 8) (regsOf list).length) s
      have hl := loadWords_length (blockAddrs bm (s.readReg rn 8) (regsOf list).length) s
      rw [blockAddrs_length] at hk hl
      split at h
      · rename_i ws s1 e
        rw [e] at hk
        dsimp only at hk
        subst hk
        exact ⟨ws, k, .inl h⟩
      · rename_i ws s1 e
        rw [e] at hk hl
        dsimp only at hk hl
        subst hk
        exact ⟨ws, k, .inr ⟨hl rfl, h⟩⟩

/-- Everything STM can do. -/
theorem stmEffect_next {bm : BlockMode} {rn : Reg} {list : BitVec 16} {s t : State}
    (h : stmEffect bm rn list s = .next t) :
    stmRefusal bm rn list s.cpsr.mode = none ∧ ∃ m : Memory, (∃ l, m = s.mem.setWords l) ∧
      (t = takeException .dataAbort (((s.othersStores (regsOf list).length).setMem m).blockWriteback bm rn
          (blockFinal bm (s.readReg rn 8) (regsOf list).length)) ∨
        t = (((s.othersStores (regsOf list).length).setMem m).blockWriteback bm rn
          (blockFinal bm (s.readReg rn 8) (regsOf list).length)).advance) := by
  unfold stmEffect at h
  split at h
  · cases h
  · rename_i hr
    refine ⟨hr, ?_⟩
    dsimp only at h
    split at h
    · cases h
    · split at h
      · cases h
      · obtain ⟨l, hl⟩ := storeWords_state ((blockAddrs bm (s.readReg rn 8) (regsOf list).length).zip
          ((regsOf list).map fun r => s.readBank ((stmForm bm).bank s) r Config.pcStoreOffset)) s
        rw [List.length_zip, List.length_map, blockAddrs_length, Nat.min_self] at hl
        rw [hl] at h
        split at h
        · cases h
          exact ⟨_, ⟨_, rfl⟩, .inl rfl⟩
        · cases h
          exact ⟨_, ⟨_, rfl⟩, .inr rfl⟩

/-- An offer to a coprocessor is the undefined instruction trap, since none is present (R212 to R217). -/
@[simp] theorem offerToCoprocessor_eq (cp : BitVec 4) (s : State) :
    offerToCoprocessor cp s = .next (takeException .undefinedInstruction s) := rfl

end Sys2Proof.Machine
end

