-- ==== Sys2Proof/Laws/Block.lean ====
section
/-! SUPPORT. Well-formed transfers are not refused, and what a block data transfer moves, position by position
(44_block_data_transfer.md R200). -/

namespace Sys2Proof.Machine

/-! ### Well-formed operands -/

/-- A well-formed transfer with an immediate offset is not refused (43_single_data_transfer.md R191). -/
theorem transferRefusal_imm {ix : Index} {rn rd : Reg} (v : BitVec 12) (h : ix.wellFormed rn rd = true) :
    transferRefusal ix rn rd (.imm v) = none := by
  obtain ⟨p, u, w⟩ := ix
  cases p <;> cases w <;> simp_all [Index.wellFormed, Index.writesBack, transferRefusal, writesBack]

/-- A well-formed transfer with a register offset is not refused (43_single_data_transfer.md R191). -/
theorem transferRefusal_reg {ix : Index} {rn rd : Reg} {o : ShImm}
    (h : (ix.wellFormed rn rd && o.wellFormedOffset ix rn) = true) : transferRefusal ix rn rd (.reg o) = none := by
  obtain ⟨p, u, w⟩ := ix
  cases p <;> cases w <;>
    simp_all [Index.wellFormed, Index.writesBack, ShImm.wellFormedOffset, transferRefusal, writesBack]

/-- What a well-formed LDM satisfies (44_block_data_transfer.md R207). -/
theorem wellFormedLdm_iff (bm : BlockMode) (rn : Reg) (list : BitVec 16) : wellFormedLdm bm rn list = true ↔
    list ≠ 0#16 ∧ rn ≠ 15#4 ∧ (bm.w = true → list.getLsbD rn.toNat = false) ∧
      (bm.s = true → list.getLsbD 15 = false → bm.w = false) := by
  simp only [wellFormedLdm, inList]
  obtain ⟨p, u, sb, w⟩ := bm
  cases w <;> cases sb <;> simp [and_assoc]

/-- A well-formed LDM is refused only for the mode (R207 e). -/
theorem ldmRefusal_wellFormed {bm : BlockMode} {rn : Reg} {list : BitVec 16} (m : Mode)
    (h : wellFormedLdm bm rn list = true) : ldmRefusal bm rn list m = formRefusal (ldmForm bm list) bm m := by
  obtain ⟨h1, h2, h3, -⟩ := (wellFormedLdm_iff bm rn list).mp h
  have : (bm.w && list.getLsbD rn.toNat) = false := by cases hw : bm.w <;> simp_all
  simp only [ldmRefusal, h1, h2, this]
  simp

/-- The first register of a list is the one with no other below it. -/
theorem regsOf_head (list : BitVec 16) (r : Reg) (h : list.getLsbD r.toNat = true) :
    (regsOf list).head? = some r ↔ noneBelow list r = true := by
  have hr := r.isLt
  have e : List.range 16 = List.range r.toNat ++ (List.range (16 - r.toNat)).map (r.toNat + ·) := by
    have h16 : 16 = r.toNat + (16 - r.toNat) := by omega
    conv => lhs; rw [h16]
    exact List.range_add
  have e2 : 16 - r.toNat = (15 - r.toNat) + 1 := by omega
  have e3 : List.range (15 - r.toNat + 1) = 0 :: List.map Nat.succ (List.range (15 - r.toNat)) :=
    List.range_succ_eq_map
  rw [e2, e3] at e
  have er : regsOf list = ((List.range r.toNat).filter fun k => list.getLsbD k).map (BitVec.ofNat 4) ++
      r :: (((List.map Nat.succ (List.range (15 - r.toNat))).map (r.toNat + ·)).filter fun k => list.getLsbD k).map
        (BitVec.ofNat 4) := by
    unfold regsOf
    rw [e]
    simp [h]
  rw [er]
  constructor
  · intro hh
    simp only [noneBelow, List.all_eq_true, List.mem_range, Bool.not_eq_true']
    intro k hk
    by_contra hb
    have hb' : list.getLsbD k = true := by simpa using hb
    cases hf : (List.range r.toNat).filter fun k => list.getLsbD k with
    | nil =>
      have : k ∈ (List.range r.toNat).filter fun k => list.getLsbD k := by simp [hk, hb']
      rw [hf] at this
      cases this
    | cons x l =>
      have hx : x ∈ (List.range r.toNat).filter fun k => list.getLsbD k := by rw [hf]; exact List.mem_cons_self
      have hlt : x < r.toNat := List.mem_range.mp (List.mem_filter.mp hx).1
      rw [hf] at hh
      have := congrArg BitVec.toNat (Option.some.inj hh)
      simp only [BitVec.toNat_ofNat] at this
      omega
  · intro hn
    have : ((List.range r.toNat).filter fun k => list.getLsbD k) = [] := by
      simp only [noneBelow, List.all_eq_true, List.mem_range, Bool.not_eq_true'] at hn
      rw [List.filter_eq_nil_iff]
      intro k hk
      simp [hn k (List.mem_range.mp hk)]
    rw [this]
    rfl

/-- What a well-formed STM satisfies (44_block_data_transfer.md R207). -/
theorem wellFormedStm_iff (bm : BlockMode) (rn : Reg) (list : BitVec 16) : wellFormedStm bm rn list = true ↔
    list ≠ 0#16 ∧ rn ≠ 15#4 ∧ (bm.w = true → list.getLsbD rn.toNat = true → noneBelow list rn = true) ∧
      (bm.s = true → bm.w = false) := by
  simp only [wellFormedStm, inList]
  obtain ⟨p, u, sb, w⟩ := bm
  cases w <;> cases sb <;> cases list.getLsbD rn.toNat <;> simp [and_assoc]

/-- A well-formed STM is refused only for the mode (R207 e). -/
theorem stmRefusal_wellFormed {bm : BlockMode} {rn : Reg} {list : BitVec 16} (m : Mode)
    (h : wellFormedStm bm rn list = true) : stmRefusal bm rn list m = formRefusal (stmForm bm) bm m := by
  obtain ⟨h1, h2, h3, -⟩ := (wellFormedStm_iff bm rn list).mp h
  have : (bm.w && list.getLsbD rn.toNat && (regsOf list).head? != some rn) = false := by
    cases hw : bm.w with
    | false => rfl
    | true =>
      cases hb : list.getLsbD rn.toNat with
      | false => rfl
      | true => simp [(regsOf_head list rn hb).mpr (h3 hw hb)]
  simp only [stmRefusal, h1, h2, this]
  simp

/-! ### Positions -/

/-- The word address of the k-th register. -/
theorem blockAddrs_eq_map (bm : BlockMode) (base : Word) (n : Nat) : blockAddrs bm base n =
    (List.range n).map fun k => (blockStart bm base n + BitVec.ofNat 32 (4 * k)).extractLsb' 2 30 := rfl

/-- Reading the words of a block data transfer none of whose accesses is aborted; `c k` is the count of free values
drawn before access `k`. -/
theorem loadWords_block (s : State) (bm : BlockMode) (base : Word) (n : Nat) (v : Nat → Word) (c : Nat → Nat)
    (h0 : c 0 = s.draws) (h : ∀ k, k < n →
      s.aborted .read ((blockStart bm base n + BitVec.ofNat 32 (4 * k)).extractLsb' 2 30) = false ∧
      (((s.othersStores (k + 1)).mem.word ((blockStart bm base n + BitVec.ofNat 32 (4 * k)).extractLsb' 2 30) =
          some (v k) ∧ c (k + 1) = c k) ∨
        ((s.othersStores (k + 1)).mem.word ((blockStart bm base n + BitVec.ofNat 32 (4 * k)).extractLsb' 2 30) = none ∧
          v k = Config.draw (c k) ∧ c (k + 1) = c k + 1))) :
    loadWords (blockAddrs bm base n) s = ((List.range n).map v, false, { s.othersStores n with draws := c n }) :=
  loadWords_reads n _ v c s h0 h

/-- Reading the words of a block data transfer whose access `j` is the first to be aborted. -/
theorem loadWords_block_aborted (s : State) (bm : BlockMode) (base : Word) (n j : Nat) (v : Nat → Word) (c : Nat → Nat)
    (hj : j < n) (ha : s.aborted .read ((blockStart bm base n + BitVec.ofNat 32 (4 * j)).extractLsb' 2 30) = true)
    (h0 : c 0 = s.draws) (h : ∀ k, k < j →
      s.aborted .read ((blockStart bm base n + BitVec.ofNat 32 (4 * k)).extractLsb' 2 30) = false ∧
      (((s.othersStores (k + 1)).mem.word ((blockStart bm base n + BitVec.ofNat 32 (4 * k)).extractLsb' 2 30) =
          some (v k) ∧ c (k + 1) = c k) ∨
        ((s.othersStores (k + 1)).mem.word ((blockStart bm base n + BitVec.ofNat 32 (4 * k)).extractLsb' 2 30) = none ∧
          v k = Config.draw (c k) ∧ c (k + 1) = c k + 1))) :
    loadWords (blockAddrs bm base n) s = ((List.range j).map v, true, { s.othersStores n with draws := c j }) := by
  have e : List.range n = List.range j ++ j :: (List.range (n - j - 1)).map (fun k => j + 1 + k) := by
    have h1 : n = j + (1 + (n - j - 1)) := by omega
    conv => lhs; rw [h1, List.range_add, List.range_add]
    simp [List.range_one, Nat.add_assoc]
  have h2 := loadWords_upto _ _ ((List.range (n - j - 1)).map fun k =>
    (blockStart bm base n + BitVec.ofNat 32 (4 * (j + 1 + k))).extractLsb' 2 30) s _ _
    (loadWords_reads j _ v c s h0 h) ha
  rw [blockAddrs_eq_map, e, List.map_append, List.map_cons, List.map_map]
  refine h2.trans ?_
  have h3 : j + (1 + (n - j - 1)) = n := by omega
  have h4 := othersStores_add s j (1 + (n - j - 1))
  rw [h3] at h4
  rw [List.length_map, List.length_range, h4, othersStores_setDraws]

/-- Pairing a list with another keeps its first entries. -/
theorem zip_map_fst {α β : Type} (l : List α) (m : List β) : (l.zip m).map Prod.fst = l.take m.length := by
  induction l generalizing m with
  | nil => simp
  | cons x l ih => cases m <;> simp [ih]

/-- The k-th register stands beside the k-th word. -/
theorem mem_zip_range {regs : List Reg} {v : Nat → Word} {k n : Nat} {r : Reg} (h : regs[k]? = some r) (hk : k < n) :
    (r, v k) ∈ regs.zip ((List.range n).map v) := by
  obtain ⟨hl, he⟩ := List.getElem?_eq_some_iff.mp h
  rw [List.mem_iff_getElem]
  refine ⟨k, by simp; omega, ?_⟩
  simp [he]

/-- Writing several registers changes general registers and the PC, and nothing else. -/
theorem writeBanks_eq (s : State) (m : Mode) (l : List (Reg × Word)) :
    s.writeBanks m l = { s with gpr := (s.writeBanks m l).gpr, pcBits := (s.writeBanks m l).pcBits } := by
  have h1 := writeBanks_cpsr l s m
  have h2 := writeBanks_spsrs l s m
  have h3 := writeBanks_mem l s m
  have h4 := writeBanks_userLdm l s m
  have h5 := writeBanks_lines l s m
  have h6 := writeBanks_schedule l s m
  have h7 := writeBanks_draws l s m
  have h8 := writeBanks_others l s m
  generalize s.writeBanks m l = t at *
  cases t
  simp_all

/-- The write-back of a block data transfer whose base is a general register. -/
theorem blockWriteback_eq {s : State} {bm : BlockMode} {rn : Reg} {p : PhysReg} (f : Word)
    (hp : phys s.cpsr.mode rn = some p) :
    s.blockWriteback bm rn f = { s with gpr := if bm.w then s.gpr.set p f else s.gpr } := by
  unfold State.blockWriteback
  split
  · rw [writeReg_of_phys _ hp]
    rfl
  · rfl

end Sys2Proof.Machine
end

