-- ==== Sys2Proof/Laws/Flags.lean ====
section
/-! SUPPORT. `AddWithCarry` (41_data_processing.md R140) as arithmetic: its result modulo 2^32, its carry as an
unsigned comparison and its overflow as a signed range. -/

namespace Sys2Proof.Machine

/-- The result of an addition with carry. -/
theorem addWithCarry_result (a b : Word) (cin : Bool) :
    (addWithCarry a b cin).result = a + b + BitVec.ofNat 32 cin.toNat := by
  apply BitVec.eq_of_toNat_eq
  simp only [addWithCarry, BitVec.toNat_ofNat, BitVec.toNat_add]
  omega

/-- The result of a subtraction: with carry in, `a - b`; without, one less. -/
theorem addWithCarry_not_result (a b : Word) (cin : Bool) :
    (addWithCarry a (~~~b) cin).result = a - b - BitVec.ofNat 32 (1 - cin.toNat) := by
  apply BitVec.eq_of_toNat_eq
  have := bool_toNat_lt cin
  have := b.isLt
  simp only [addWithCarry, BitVec.toNat_ofNat, BitVec.toNat_sub, BitVec.toNat_not]
  omega

/-- The carry of an addition: the exact unsigned sum needs a 33rd bit. -/
theorem addWithCarry_c (a b : Word) (cin : Bool) :
    (addWithCarry a b cin).c = decide (2 ^ 32 ≤ a.toNat + b.toNat + cin.toNat) := rfl

/-- The carry of a subtraction: no borrow. -/
theorem addWithCarry_not_c (a b : Word) (cin : Bool) :
    (addWithCarry a (~~~b) cin).c = decide (b.toNat + (1 - cin.toNat) ≤ a.toNat) := by
  have := bool_toNat_lt cin
  have := b.isLt
  simp only [addWithCarry, BitVec.toNat_not, decide_eq_decide]
  omega

/-- The complement of a word as a signed number. -/
theorem toInt_not (b : Word) : (~~~b).toInt = -b.toInt - 1 := by
  have := b.isLt
  simp only [BitVec.toInt_eq_toNat_cond, BitVec.toNat_not]
  split <;> split <;> omega

/-- The overflow of an addition: the exact signed sum does not fit in 32 bits. -/
theorem addWithCarry_v (a b : Word) (cin : Bool) : (addWithCarry a b cin).v =
    (decide (a.toInt + b.toInt + cin.toNat < -2 ^ 31) || decide (2 ^ 31 ≤ a.toInt + b.toInt + cin.toNat)) := by
  have e : (addWithCarry a b cin).v = (a.msb == b.msb && (addWithCarry a b cin).result.msb != a.msb) := rfl
  have := a.isLt
  have := b.isLt
  have := bool_toNat_lt cin
  rw [e, Bool.eq_iff_iff]
  simp only [addWithCarry, BitVec.msb_eq_decide, BitVec.toInt_eq_toNat_cond, BitVec.toNat_ofNat, Bool.and_eq_true,
    beq_iff_eq, bne_iff_ne, Bool.or_eq_true, decide_eq_true_eq, decide_eq_decide, ne_eq]
  split <;> split <;> omega

/-- The overflow of a subtraction: the exact signed difference does not fit in 32 bits. -/
theorem addWithCarry_not_v (a b : Word) (cin : Bool) : (addWithCarry a (~~~b) cin).v =
    (decide (a.toInt - b.toInt - (1 - cin.toNat : Nat) < -2 ^ 31)
      || decide (2 ^ 31 ≤ a.toInt - b.toInt - (1 - cin.toNat : Nat))) := by
  have := bool_toNat_lt cin
  rw [addWithCarry_v, toInt_not, Bool.eq_iff_iff]
  simp only [Bool.or_eq_true, decide_eq_true_eq]
  omega

/-- Addition with carry does not mind the order of its operands. -/
theorem addWithCarry_comm (a b : Word) (cin : Bool) : addWithCarry a b cin = addWithCarry b a cin := by
  have hr : (addWithCarry a b cin).result = (addWithCarry b a cin).result := by
    rw [addWithCarry_result, addWithCarry_result, BitVec.add_comm a b]
  have hc : (addWithCarry a b cin).c = (addWithCarry b a cin).c := by
    rw [addWithCarry_c, addWithCarry_c, Nat.add_comm a.toNat]
  have hv : (addWithCarry a b cin).v = (addWithCarry b a cin).v := by
    rw [addWithCarry_v, addWithCarry_v, Int.add_comm a.toInt]
  cases h1 : addWithCarry a b cin
  cases h2 : addWithCarry b a cin
  simp_all

end Sys2Proof.Machine
end

