-- ==== Sys2Proof/Laws/Formats.lean ====
section
/-! SUPPORT. Each instruction format as a number, from which every field of an encoded word follows by
arithmetic, and the codes of conditions, shift types and operations. -/

namespace Sys2Proof

@[simp] theorem ofCode_code (c : Cond) : Cond.ofCode c.code = some c := by
  cases c <;> rfl

theorem code_of_ofCode {v : BitVec 4} {c : Cond} (h : Cond.ofCode v = some c) : v = c.code := by
  revert v
  cases c <;> decide

/-- Only 1111 is no condition (30_encoding.md R95, R96). -/
theorem ofCode_eq_none (v : BitVec 4) : Cond.ofCode v = none ↔ v = 15#4 := by
  revert v
  decide

theorem cond_code_lt (c : Cond) : c.code.toNat < 15 := by
  cases c <;> decide

@[simp] theorem shiftType_ofCode_code (t : ShiftType) : ShiftType.ofCode t.code = t := by
  cases t <;> rfl

@[simp] theorem shiftType_code_ofCode (v : BitVec 2) : (ShiftType.ofCode v).code = v := by
  revert v
  decide

@[simp] theorem dpOp_ofCode_code (op : DpOp) : DpOp.ofCode op.code = op := by
  cases op <;> rfl

@[simp] theorem dpOp_code_ofCode (v : BitVec 4) : (DpOp.ofCode v).code = v := by
  revert v
  decide

/-! ### Operand fields -/

theorem ImmOp.toNat_bits (o : ImmOp) : o.bits.toNat = o.rotate.toNat * 2 ^ 8 + o.imm8.toNat := by
  unfold ImmOp.bits
  rw [toNat_cat]

theorem ShImm.toNat_bits (o : ShImm) :
    o.bits.toNat = o.amount.toNat * 2 ^ 7 + o.type.code.toNat * 2 ^ 5 + o.rm.toNat := by
  unfold ShImm.bits
  rw [toNat_cat, toNat_cat, toNat_cat]
  simp only [BitVec.toNat_ofNat]
  omega

theorem ShReg.toNat_bits (o : ShReg) :
    o.bits.toNat = o.rs.toNat * 2 ^ 8 + o.type.code.toNat * 2 ^ 5 + 2 ^ 4 + o.rm.toNat := by
  unfold ShReg.bits
  rw [toNat_cat, toNat_cat, toNat_cat, toNat_cat]
  simp only [BitVec.toNat_ofNat]
  omega

/-! ### Formats -/

/-- The data-processing format (R92). -/
theorem toNat_dpWord (c : Cond) (imm : Bool) (op : DpOp) (sb : Bool) (rn rd : Reg) (o2 : BitVec 12) :
    (dpWord c imm op sb rn rd o2).toNat =
      c.code.toNat * 2 ^ 28 + imm.toNat * 2 ^ 25 + op.code.toNat * 2 ^ 21 + sb.toNat * 2 ^ 20 + rn.toNat * 2 ^ 16
        + rd.toNat * 2 ^ 12 + o2.toNat := by
  unfold dpWord
  rw [toNat_cat, toNat_cat, toNat_cat, toNat_cat, toNat_cat, toNat_cat, toNat_cat]
  simp only [toNat_flag, BitVec.toNat_ofNat]
  omega

/-- The single data transfer format (R94). -/
theorem toNat_transferWord (c : Cond) (reg : Bool) (ix : Index) (load : Bool) (rn rd : Reg) (off : BitVec 12) :
    (transferWord c reg ix load rn rd off).toNat =
      c.code.toNat * 2 ^ 28 + 2 ^ 26 + reg.toNat * 2 ^ 25 + ix.p.toNat * 2 ^ 24 + ix.u.toNat * 2 ^ 23
        + ix.w.toNat * 2 ^ 21 + load.toNat * 2 ^ 20 + rn.toNat * 2 ^ 16 + rd.toNat * 2 ^ 12 + off.toNat := by
  unfold transferWord
  rw [toNat_cat, toNat_cat, toNat_cat, toNat_cat, toNat_cat, toNat_cat, toNat_cat, toNat_cat, toNat_cat, toNat_cat]
  simp only [toNat_flag, BitVec.toNat_ofNat]
  omega

/-- The block data transfer format (R97). -/
theorem toNat_blockWord (c : Cond) (bm : BlockMode) (load : Bool) (rn : Reg) (list : BitVec 16) :
    (blockWord c bm load rn list).toNat =
      c.code.toNat * 2 ^ 28 + 4 * 2 ^ 25 + bm.p.toNat * 2 ^ 24 + bm.u.toNat * 2 ^ 23 + bm.s.toNat * 2 ^ 22
        + bm.w.toNat * 2 ^ 21 + load.toNat * 2 ^ 20 + rn.toNat * 2 ^ 16 + list.toNat := by
  unfold blockWord
  rw [toNat_cat, toNat_cat, toNat_cat, toNat_cat, toNat_cat, toNat_cat, toNat_cat, toNat_cat]
  simp only [toNat_flag, BitVec.toNat_ofNat]
  omega

/-- The coprocessor data transfer format (R101). -/
theorem toNat_copTransferWord (c : Cond) (ix : CopIndex) (load : Bool) (rn : Reg) (crd cp : BitVec 4)
    (off : BitVec 8) : (copTransferWord c ix load rn crd cp off).toNat =
      c.code.toNat * 2 ^ 28 + 6 * 2 ^ 25 + ix.p.toNat * 2 ^ 24 + ix.u.toNat * 2 ^ 23 + ix.n.toNat * 2 ^ 22
        + ix.w.toNat * 2 ^ 21 + load.toNat * 2 ^ 20 + rn.toNat * 2 ^ 16 + crd.toNat * 2 ^ 12 + cp.toNat * 2 ^ 8
        + off.toNat := by
  unfold copTransferWord
  rw [toNat_cat, toNat_cat, toNat_cat, toNat_cat, toNat_cat, toNat_cat, toNat_cat, toNat_cat, toNat_cat, toNat_cat]
  simp only [toNat_flag, BitVec.toNat_ofNat]
  omega

/-- The coprocessor register transfer format (R101). -/
theorem toNat_copRegWord (c : Cond) (opc : BitVec 3) (load : Bool) (crn : BitVec 4) (rd : Reg) (cp : BitVec 4)
    (info : BitVec 3) (crm : BitVec 4) : (copRegWord c opc load crn rd cp info crm).toNat =
      c.code.toNat * 2 ^ 28 + 14 * 2 ^ 24 + opc.toNat * 2 ^ 21 + load.toNat * 2 ^ 20 + crn.toNat * 2 ^ 16
        + rd.toNat * 2 ^ 12 + cp.toNat * 2 ^ 8 + info.toNat * 2 ^ 5 + 2 ^ 4 + crm.toNat := by
  unfold copRegWord
  rw [toNat_cat, toNat_cat, toNat_cat, toNat_cat, toNat_cat, toNat_cat, toNat_cat, toNat_cat, toNat_cat]
  simp only [toNat_flag, BitVec.toNat_ofNat]
  omega

/-- The encoding of a data-processing instruction. -/
theorem encode_dp (op : DpOp) (c : Cond) (sb : Bool) (rn rd : Reg) (o2 : Operand2) :
    encode (.dp op c sb rn rd o2) =
      match op, o2 with
      | .tst, .imm o | .teq, .imm o | .cmp, .imm o | .cmn, .imm o => dpWord c true op true rn rd o.bits
      | .tst, .shImm o | .teq, .shImm o | .cmp, .shImm o | .cmn, .shImm o => dpWord c false op true rn rd o.bits
      | .tst, .shReg o | .teq, .shReg o | .cmp, .shReg o | .cmn, .shReg o => dpWord c false op true rn rd o.bits
      | _, .imm o => dpWord c true op sb rn rd o.bits
      | _, .shImm o => dpWord c false op sb rn rd o.bits
      | _, .shReg o => dpWord c false op sb rn rd o.bits := by
  cases op <;> cases o2 <;> rfl

theorem toNat_encode_mrs (c : Cond) (p : Bool) (rd : Reg) :
    (encode (.mrs c p rd)).toNat = c.code.toNat * 2 ^ 28 + 2 ^ 24 + p.toNat * 2 ^ 22 + 15 * 2 ^ 16 + rd.toNat * 2 ^ 12 := by
  unfold encode
  rw [toNat_cat, toNat_cat, toNat_cat, toNat_cat, toNat_cat]
  simp only [toNat_flag, BitVec.toNat_ofNat]
  omega

theorem toNat_encode_msrAll (c : Cond) (p : Bool) (rm : Reg) :
    (encode (.msrAll c p rm)).toNat = c.code.toNat * 2 ^ 28 + 2 ^ 24 + p.toNat * 2 ^ 22 + 0x29f00 * 2 ^ 4 + rm.toNat := by
  unfold encode
  rw [toNat_cat, toNat_cat, toNat_cat, toNat_cat]
  simp only [toNat_flag, BitVec.toNat_ofNat]
  omega

theorem toNat_encode_msrFlgReg (c : Cond) (p : Bool) (rm : Reg) :
    (encode (.msrFlgReg c p rm)).toNat =
      c.code.toNat * 2 ^ 28 + 2 ^ 24 + p.toNat * 2 ^ 22 + 0x28f00 * 2 ^ 4 + rm.toNat := by
  unfold encode
  rw [toNat_cat, toNat_cat, toNat_cat, toNat_cat]
  simp only [toNat_flag, BitVec.toNat_ofNat]
  omega

theorem toNat_encode_msrFlgImm (c : Cond) (p : Bool) (o : ImmOp) :
    (encode (.msrFlgImm c p o)).toNat =
      c.code.toNat * 2 ^ 28 + 6 * 2 ^ 23 + p.toNat * 2 ^ 22 + 0x28f * 2 ^ 12 + o.rotate.toNat * 2 ^ 8 + o.imm8.toNat := by
  unfold encode
  rw [toNat_cat, toNat_cat, toNat_cat, toNat_cat, ImmOp.toNat_bits]
  simp only [toNat_flag, BitVec.toNat_ofNat]
  omega

theorem toNat_encode_b (c : Cond) (off : BitVec 24) :
    (encode (.b c off)).toNat = c.code.toNat * 2 ^ 28 + 10 * 2 ^ 24 + off.toNat := by
  unfold encode
  rw [toNat_cat, toNat_cat]
  simp only [BitVec.toNat_ofNat]
  omega

theorem toNat_encode_bl (c : Cond) (off : BitVec 24) :
    (encode (.bl c off)).toNat = c.code.toNat * 2 ^ 28 + 11 * 2 ^ 24 + off.toNat := by
  unfold encode
  rw [toNat_cat, toNat_cat]
  simp only [BitVec.toNat_ofNat]
  omega

theorem toNat_encode_swi (c : Cond) (k : BitVec 24) :
    (encode (.swi c k)).toNat = c.code.toNat * 2 ^ 28 + 15 * 2 ^ 24 + k.toNat := by
  unfold encode
  rw [toNat_cat, toNat_cat]
  simp only [BitVec.toNat_ofNat]
  omega

theorem toNat_encode_undef (c : Cond) (hi : BitVec 20) (lo : BitVec 4) :
    (encode (.undef c hi lo)).toNat = c.code.toNat * 2 ^ 28 + 3 * 2 ^ 25 + hi.toNat * 2 ^ 5 + 2 ^ 4 + lo.toNat := by
  unfold encode
  rw [toNat_cat, toNat_cat, toNat_cat, toNat_cat]
  simp only [BitVec.toNat_ofNat]
  omega

theorem toNat_encode_cdp (c : Cond) (opc crn crd cp : BitVec 4) (info : BitVec 3) (crm : BitVec 4) :
    (encode (.cdp c opc crn crd cp info crm)).toNat =
      c.code.toNat * 2 ^ 28 + 14 * 2 ^ 24 + opc.toNat * 2 ^ 20 + crn.toNat * 2 ^ 16 + crd.toNat * 2 ^ 12
        + cp.toNat * 2 ^ 8 + info.toNat * 2 ^ 5 + crm.toNat := by
  unfold encode
  rw [toNat_cat, toNat_cat, toNat_cat, toNat_cat, toNat_cat, toNat_cat, toNat_cat, toNat_cat]
  simp only [BitVec.toNat_ofNat]
  omega

end Sys2Proof
end

