-- ==== Sys2Proof/Laws/PerInstr.lean ====
section
/-! SUPPORT. One family of statements made for each instruction: the encoding of an instruction has the fixed
bits of its row of spec/opcode_table.json (30_encoding.md R107), whatever its fields. -/

namespace Sys2Proof.Laws

/-- The encoded word has the fixed bits of the instruction's row. -/
def EncodeRow.Statement (i : Instr) : Prop := i.row.matches (encode i) = true

/-- A row whose fixed bits are one field. -/
theorem matches_field {w : Word} (lo len v : Nat) (h : (field w lo len).toNat = v) :
    Row.matches ⟨((BitVec.allOnes len).setWidth 32) <<< lo, (BitVec.ofNat len v).setWidth 32 <<< lo⟩ w = true := by
  subst h
  simp only [Row.matches, beq_iff_eq]
  exact and_mask_field w lo len _ (BitVec.eq_of_toNat_eq (by simp))

/-- A row whose fixed bits are those of two rows. -/
theorem matches_or {w m n v u : Word} (h : Row.matches ⟨m, v⟩ w = true) (k : Row.matches ⟨n, u⟩ w = true) :
    Row.matches ⟨m ||| n, v ||| u⟩ w = true := by
  simp only [Row.matches, beq_iff_eq] at h k ⊢
  rw [← h, ← k]
  ext i
  simp [Bool.and_or_distrib_left]

/-- Data processing, immediate operand. -/
theorem dpImm (c : Cond) (op : DpOp) (sb : Bool) (rn rd : Reg) (o : ImmOp) (v : Nat) (hv : v = 16 + op.code.toNat) :
    Row.matches ⟨0x0FE00000#32, (BitVec.ofNat 7 v).setWidth 32 <<< 21⟩ (dpWord c true op sb rn rd o.bits) = true := by
  apply matches_field 21 7
  rw [toNat_field, toNat_dpWord, ImmOp.toNat_bits]
  have := bool_toNat_lt sb
  simp only [Bool.toNat_true]
  omega

/-- Data processing, register shifted by an immediate. -/
theorem dpShImm (c : Cond) (op : DpOp) (sb : Bool) (rn rd : Reg) (o : ShImm) (v : Nat) (hv : v = op.code.toNat) :
    Row.matches ⟨0x0FE00010#32, ((BitVec.ofNat 7 v).setWidth 32 <<< 21) ||| 0#32⟩
      (dpWord c false op sb rn rd o.bits) = true := by
  have := bool_toNat_lt sb
  apply matches_or (m := 0x0FE00000#32) (n := 0x00000010#32)
  · apply matches_field 21 7
    rw [toNat_field, toNat_dpWord, ShImm.toNat_bits]
    simp only [Bool.toNat_false]
    omega
  · apply matches_field 4 1 0
    rw [toNat_field, toNat_dpWord, ShImm.toNat_bits]
    omega

/-- Data processing, register shifted by a register. -/
theorem dpShReg (c : Cond) (op : DpOp) (sb : Bool) (rn rd : Reg) (o : ShReg) (v : Nat) (hv : v = op.code.toNat) :
    Row.matches ⟨0x0FE00090#32, ((BitVec.ofNat 7 v).setWidth 32 <<< 21) ||| 0x10#32⟩
      (dpWord c false op sb rn rd o.bits) = true := by
  have := bool_toNat_lt sb
  apply matches_or (m := 0x0FE00000#32) (n := 0x00000090#32)
  · apply matches_field 21 7
    rw [toNat_field, toNat_dpWord, ShReg.toNat_bits]
    simp only [Bool.toNat_false]
    omega
  · apply matches_or (m := 0x80#32) (n := 0x10#32) (v := 0#32) (u := 0x10#32)
    · apply matches_field 7 1 0
      rw [toNat_field, toNat_dpWord, ShReg.toNat_bits]
      omega
    · apply matches_field 4 1 1
      rw [toNat_field, toNat_dpWord, ShReg.toNat_bits]
      omega

/-- A data-processing word whose S bit is 1. -/
theorem dpSetsFlags (c : Cond) (imm : Bool) (op : DpOp) (rn rd : Reg) (o : BitVec 12) :
    Row.matches ⟨0x00100000#32, 0x00100000#32⟩ (dpWord c imm op true rn rd o) = true := by
  apply matches_field 20 1 1
  rw [toNat_field, toNat_dpWord]
  simp only [Bool.toNat_true]
  omega

theorem EncodeRow.andImm (c : Cond) (sb : Bool) (rn rd : Reg) (o : ImmOp) :
    EncodeRow.Statement (.andImm c sb rn rd o) := by
  exact dpImm c .and sb rn rd o 16 rfl

theorem EncodeRow.andShImm (c : Cond) (sb : Bool) (rn rd : Reg) (o : ShImm) :
    EncodeRow.Statement (.andShImm c sb rn rd o) := by
  exact dpShImm c .and sb rn rd o 0 rfl

theorem EncodeRow.andShReg (c : Cond) (sb : Bool) (rn rd : Reg) (o : ShReg) :
    EncodeRow.Statement (.andShReg c sb rn rd o) := by
  exact dpShReg c .and sb rn rd o 0 rfl

theorem EncodeRow.eorImm (c : Cond) (sb : Bool) (rn rd : Reg) (o : ImmOp) :
    EncodeRow.Statement (.eorImm c sb rn rd o) := by
  exact dpImm c .eor sb rn rd o 17 rfl

theorem EncodeRow.eorShImm (c : Cond) (sb : Bool) (rn rd : Reg) (o : ShImm) :
    EncodeRow.Statement (.eorShImm c sb rn rd o) := by
  exact dpShImm c .eor sb rn rd o 1 rfl

theorem EncodeRow.eorShReg (c : Cond) (sb : Bool) (rn rd : Reg) (o : ShReg) :
    EncodeRow.Statement (.eorShReg c sb rn rd o) := by
  exact dpShReg c .eor sb rn rd o 1 rfl

theorem EncodeRow.subImm (c : Cond) (sb : Bool) (rn rd : Reg) (o : ImmOp) :
    EncodeRow.Statement (.subImm c sb rn rd o) := by
  exact dpImm c .sub sb rn rd o 18 rfl

theorem EncodeRow.subShImm (c : Cond) (sb : Bool) (rn rd : Reg) (o : ShImm) :
    EncodeRow.Statement (.subShImm c sb rn rd o) := by
  exact dpShImm c .sub sb rn rd o 2 rfl

theorem EncodeRow.subShReg (c : Cond) (sb : Bool) (rn rd : Reg) (o : ShReg) :
    EncodeRow.Statement (.subShReg c sb rn rd o) := by
  exact dpShReg c .sub sb rn rd o 2 rfl

theorem EncodeRow.rsbImm (c : Cond) (sb : Bool) (rn rd : Reg) (o : ImmOp) :
    EncodeRow.Statement (.rsbImm c sb rn rd o) := by
  exact dpImm c .rsb sb rn rd o 19 rfl

theorem EncodeRow.rsbShImm (c : Cond) (sb : Bool) (rn rd : Reg) (o : ShImm) :
    EncodeRow.Statement (.rsbShImm c sb rn rd o) := by
  exact dpShImm c .rsb sb rn rd o 3 rfl

theorem EncodeRow.rsbShReg (c : Cond) (sb : Bool) (rn rd : Reg) (o : ShReg) :
    EncodeRow.Statement (.rsbShReg c sb rn rd o) := by
  exact dpShReg c .rsb sb rn rd o 3 rfl

theorem EncodeRow.addImm (c : Cond) (sb : Bool) (rn rd : Reg) (o : ImmOp) :
    EncodeRow.Statement (.addImm c sb rn rd o) := by
  exact dpImm c .add sb rn rd o 20 rfl

theorem EncodeRow.addShImm (c : Cond) (sb : Bool) (rn rd : Reg) (o : ShImm) :
    EncodeRow.Statement (.addShImm c sb rn rd o) := by
  exact dpShImm c .add sb rn rd o 4 rfl

theorem EncodeRow.addShReg (c : Cond) (sb : Bool) (rn rd : Reg) (o : ShReg) :
    EncodeRow.Statement (.addShReg c sb rn rd o) := by
  exact dpShReg c .add sb rn rd o 4 rfl

theorem EncodeRow.adcImm (c : Cond) (sb : Bool) (rn rd : Reg) (o : ImmOp) :
    EncodeRow.Statement (.adcImm c sb rn rd o) := by
  exact dpImm c .adc sb rn rd o 21 rfl

theorem EncodeRow.adcShImm (c : Cond) (sb : Bool) (rn rd : Reg) (o : ShImm) :
    EncodeRow.Statement (.adcShImm c sb rn rd o) := by
  exact dpShImm c .adc sb rn rd o 5 rfl

theorem EncodeRow.adcShReg (c : Cond) (sb : Bool) (rn rd : Reg) (o : ShReg) :
    EncodeRow.Statement (.adcShReg c sb rn rd o) := by
  exact dpShReg c .adc sb rn rd o 5 rfl

theorem EncodeRow.sbcImm (c : Cond) (sb : Bool) (rn rd : Reg) (o : ImmOp) :
    EncodeRow.Statement (.sbcImm c sb rn rd o) := by
  exact dpImm c .sbc sb rn rd o 22 rfl

theorem EncodeRow.sbcShImm (c : Cond) (sb : Bool) (rn rd : Reg) (o : ShImm) :
    EncodeRow.Statement (.sbcShImm c sb rn rd o) := by
  exact dpShImm c .sbc sb rn rd o 6 rfl

theorem EncodeRow.sbcShReg (c : Cond) (sb : Bool) (rn rd : Reg) (o : ShReg) :
    EncodeRow.Statement (.sbcShReg c sb rn rd o) := by
  exact dpShReg c .sbc sb rn rd o 6 rfl

theorem EncodeRow.rscImm (c : Cond) (sb : Bool) (rn rd : Reg) (o : ImmOp) :
    EncodeRow.Statement (.rscImm c sb rn rd o) := by
  exact dpImm c .rsc sb rn rd o 23 rfl

theorem EncodeRow.rscShImm (c : Cond) (sb : Bool) (rn rd : Reg) (o : ShImm) :
    EncodeRow.Statement (.rscShImm c sb rn rd o) := by
  exact dpShImm c .rsc sb rn rd o 7 rfl

theorem EncodeRow.rscShReg (c : Cond) (sb : Bool) (rn rd : Reg) (o : ShReg) :
    EncodeRow.Statement (.rscShReg c sb rn rd o) := by
  exact dpShReg c .rsc sb rn rd o 7 rfl

theorem EncodeRow.tstImm (c : Cond) (rn rd : Reg) (o : ImmOp) :
    EncodeRow.Statement (.tstImm c rn rd o) := by
  exact matches_or (dpImm c .tst true rn rd o 24 rfl) (dpSetsFlags c true .tst rn rd o.bits)

theorem EncodeRow.tstShImm (c : Cond) (rn rd : Reg) (o : ShImm) :
    EncodeRow.Statement (.tstShImm c rn rd o) := by
  exact matches_or (dpShImm c .tst true rn rd o 8 rfl) (dpSetsFlags c false .tst rn rd o.bits)

theorem EncodeRow.tstShReg (c : Cond) (rn rd : Reg) (o : ShReg) :
    EncodeRow.Statement (.tstShReg c rn rd o) := by
  exact matches_or (dpShReg c .tst true rn rd o 8 rfl) (dpSetsFlags c false .tst rn rd o.bits)

theorem EncodeRow.teqImm (c : Cond) (rn rd : Reg) (o : ImmOp) :
    EncodeRow.Statement (.teqImm c rn rd o) := by
  exact matches_or (dpImm c .teq true rn rd o 25 rfl) (dpSetsFlags c true .teq rn rd o.bits)

theorem EncodeRow.teqShImm (c : Cond) (rn rd : Reg) (o : ShImm) :
    EncodeRow.Statement (.teqShImm c rn rd o) := by
  exact matches_or (dpShImm c .teq true rn rd o 9 rfl) (dpSetsFlags c false .teq rn rd o.bits)

theorem EncodeRow.teqShReg (c : Cond) (rn rd : Reg) (o : ShReg) :
    EncodeRow.Statement (.teqShReg c rn rd o) := by
  exact matches_or (dpShReg c .teq true rn rd o 9 rfl) (dpSetsFlags c false .teq rn rd o.bits)

theorem EncodeRow.cmpImm (c : Cond) (rn rd : Reg) (o : ImmOp) :
    EncodeRow.Statement (.cmpImm c rn rd o) := by
  exact matches_or (dpImm c .cmp true rn rd o 26 rfl) (dpSetsFlags c true .cmp rn rd o.bits)

theorem EncodeRow.cmpShImm (c : Cond) (rn rd : Reg) (o : ShImm) :
    EncodeRow.Statement (.cmpShImm c rn rd o) := by
  exact matches_or (dpShImm c .cmp true rn rd o 10 rfl) (dpSetsFlags c false .cmp rn rd o.bits)

theorem EncodeRow.cmpShReg (c : Cond) (rn rd : Reg) (o : ShReg) :
    EncodeRow.Statement (.cmpShReg c rn rd o) := by
  exact matches_or (dpShReg c .cmp true rn rd o 10 rfl) (dpSetsFlags c false .cmp rn rd o.bits)

theorem EncodeRow.cmnImm (c : Cond) (rn rd : Reg) (o : ImmOp) :
    EncodeRow.Statement (.cmnImm c rn rd o) := by
  exact matches_or (dpImm c .cmn true rn rd o 27 rfl) (dpSetsFlags c true .cmn rn rd o.bits)

theorem EncodeRow.cmnShImm (c : Cond) (rn rd : Reg) (o : ShImm) :
    EncodeRow.Statement (.cmnShImm c rn rd o) := by
  exact matches_or (dpShImm c .cmn true rn rd o 11 rfl) (dpSetsFlags c false .cmn rn rd o.bits)

theorem EncodeRow.cmnShReg (c : Cond) (rn rd : Reg) (o : ShReg) :
    EncodeRow.Statement (.cmnShReg c rn rd o) := by
  exact matches_or (dpShReg c .cmn true rn rd o 11 rfl) (dpSetsFlags c false .cmn rn rd o.bits)

theorem EncodeRow.orrImm (c : Cond) (sb : Bool) (rn rd : Reg) (o : ImmOp) :
    EncodeRow.Statement (.orrImm c sb rn rd o) := by
  exact dpImm c .orr sb rn rd o 28 rfl

theorem EncodeRow.orrShImm (c : Cond) (sb : Bool) (rn rd : Reg) (o : ShImm) :
    EncodeRow.Statement (.orrShImm c sb rn rd o) := by
  exact dpShImm c .orr sb rn rd o 12 rfl

theorem EncodeRow.orrShReg (c : Cond) (sb : Bool) (rn rd : Reg) (o : ShReg) :
    EncodeRow.Statement (.orrShReg c sb rn rd o) := by
  exact dpShReg c .orr sb rn rd o 12 rfl

theorem EncodeRow.movImm (c : Cond) (sb : Bool) (rn rd : Reg) (o : ImmOp) :
    EncodeRow.Statement (.movImm c sb rn rd o) := by
  exact dpImm c .mov sb rn rd o 29 rfl

theorem EncodeRow.movShImm (c : Cond) (sb : Bool) (rn rd : Reg) (o : ShImm) :
    EncodeRow.Statement (.movShImm c sb rn rd o) := by
  exact dpShImm c .mov sb rn rd o 13 rfl

theorem EncodeRow.movShReg (c : Cond) (sb : Bool) (rn rd : Reg) (o : ShReg) :
    EncodeRow.Statement (.movShReg c sb rn rd o) := by
  exact dpShReg c .mov sb rn rd o 13 rfl

theorem EncodeRow.bicImm (c : Cond) (sb : Bool) (rn rd : Reg) (o : ImmOp) :
    EncodeRow.Statement (.bicImm c sb rn rd o) := by
  exact dpImm c .bic sb rn rd o 30 rfl

theorem EncodeRow.bicShImm (c : Cond) (sb : Bool) (rn rd : Reg) (o : ShImm) :
    EncodeRow.Statement (.bicShImm c sb rn rd o) := by
  exact dpShImm c .bic sb rn rd o 14 rfl

theorem EncodeRow.bicShReg (c : Cond) (sb : Bool) (rn rd : Reg) (o : ShReg) :
    EncodeRow.Statement (.bicShReg c sb rn rd o) := by
  exact dpShReg c .bic sb rn rd o 14 rfl

theorem EncodeRow.mvnImm (c : Cond) (sb : Bool) (rn rd : Reg) (o : ImmOp) :
    EncodeRow.Statement (.mvnImm c sb rn rd o) := by
  exact dpImm c .mvn sb rn rd o 31 rfl

theorem EncodeRow.mvnShImm (c : Cond) (sb : Bool) (rn rd : Reg) (o : ShImm) :
    EncodeRow.Statement (.mvnShImm c sb rn rd o) := by
  exact dpShImm c .mvn sb rn rd o 15 rfl

theorem EncodeRow.mvnShReg (c : Cond) (sb : Bool) (rn rd : Reg) (o : ShReg) :
    EncodeRow.Statement (.mvnShReg c sb rn rd o) := by
  exact dpShReg c .mvn sb rn rd o 15 rfl

theorem EncodeRow.mrs (c : Cond) (p : Bool) (rd : Reg) :
    EncodeRow.Statement (.mrs c p rd) := by
  have := bool_toNat_lt p
  apply matches_or (m := 0xf800000#32) (n := 0x3f0fff#32) (v := 0x1000000#32) (u := 0xf0000#32)
  · apply matches_field 23 5 2
    rw [toNat_field, toNat_encode_mrs]
    omega
  · apply matches_or (m := 0x3f0000#32) (n := 0xfff#32) (v := 0xf0000#32) (u := 0x0#32)
    · apply matches_field 16 6 15
      rw [toNat_field, toNat_encode_mrs]
      omega
    · apply matches_field 0 12 0
      rw [toNat_field, toNat_encode_mrs]
      omega

theorem EncodeRow.msrAll (c : Cond) (p : Bool) (rm : Reg) :
    EncodeRow.Statement (.msrAll c p rm) := by
  have := bool_toNat_lt p
  apply matches_or (m := 0xf800000#32) (n := 0x3ffff0#32) (v := 0x1000000#32) (u := 0x29f000#32)
  · apply matches_field 23 5 2
    rw [toNat_field, toNat_encode_msrAll]
    omega
  · apply matches_field 4 18 171776
    rw [toNat_field, toNat_encode_msrAll]
    omega

theorem EncodeRow.msrFlgReg (c : Cond) (p : Bool) (rm : Reg) :
    EncodeRow.Statement (.msrFlgReg c p rm) := by
  have := bool_toNat_lt p
  apply matches_or (m := 0xf800000#32) (n := 0x3ffff0#32) (v := 0x1000000#32) (u := 0x28f000#32)
  · apply matches_field 23 5 2
    rw [toNat_field, toNat_encode_msrFlgReg]
    omega
  · apply matches_field 4 18 167680
    rw [toNat_field, toNat_encode_msrFlgReg]
    omega

theorem EncodeRow.msrFlgImm (c : Cond) (p : Bool) (o : ImmOp) :
    EncodeRow.Statement (.msrFlgImm c p o) := by
  have := bool_toNat_lt p
  apply matches_or (m := 0xf800000#32) (n := 0x3ff000#32) (v := 0x3000000#32) (u := 0x28f000#32)
  · apply matches_field 23 5 6
    rw [toNat_field, toNat_encode_msrFlgImm]
    omega
  · apply matches_field 12 10 655
    rw [toNat_field, toNat_encode_msrFlgImm]
    omega

theorem EncodeRow.ldrImm (c : Cond) (ix : Index) (rn rd : Reg) (imm : BitVec 12) :
    EncodeRow.Statement (.ldrImm c ix rn rd imm) := by
  have := bool_toNat_lt ix.p
  have := bool_toNat_lt ix.u
  have := bool_toNat_lt ix.w
  apply matches_or (m := 0xe000000#32) (n := 0x500000#32) (v := 0x4000000#32) (u := 0x100000#32)
  · apply matches_field 25 3 2
    simp only [encode]
    rw [toNat_field, toNat_transferWord]
    simp only [Bool.toNat_true, Bool.toNat_false]
    omega
  · apply matches_or (m := 0x400000#32) (n := 0x100000#32) (v := 0x0#32) (u := 0x100000#32)
    · apply matches_field 22 1 0
      simp only [encode]
      rw [toNat_field, toNat_transferWord]
      simp only [Bool.toNat_true, Bool.toNat_false]
      omega
    · apply matches_field 20 1 1
      simp only [encode]
      rw [toNat_field, toNat_transferWord]
      simp only [Bool.toNat_true, Bool.toNat_false]
      omega

theorem EncodeRow.ldrReg (c : Cond) (ix : Index) (rn rd : Reg) (o : ShImm) :
    EncodeRow.Statement (.ldrReg c ix rn rd o) := by
  have := bool_toNat_lt ix.p
  have := bool_toNat_lt ix.u
  have := bool_toNat_lt ix.w
  apply matches_or (m := 0xe000000#32) (n := 0x500010#32) (v := 0x6000000#32) (u := 0x100000#32)
  · apply matches_field 25 3 3
    simp only [encode]
    rw [toNat_field, toNat_transferWord, ShImm.toNat_bits]
    simp only [Bool.toNat_true]
    omega
  · apply matches_or (m := 0x400000#32) (n := 0x100010#32) (v := 0x0#32) (u := 0x100000#32)
    · apply matches_field 22 1 0
      simp only [encode]
      rw [toNat_field, toNat_transferWord, ShImm.toNat_bits]
      simp only [Bool.toNat_true]
      omega
    · apply matches_or (m := 0x100000#32) (n := 0x10#32) (v := 0x100000#32) (u := 0x0#32)
      · apply matches_field 20 1 1
        simp only [encode]
        rw [toNat_field, toNat_transferWord, ShImm.toNat_bits]
        simp only [Bool.toNat_true]
        omega
      · apply matches_field 4 1 0
        simp only [encode]
        rw [toNat_field, toNat_transferWord, ShImm.toNat_bits]
        simp only [Bool.toNat_true]
        omega

theorem EncodeRow.strImm (c : Cond) (ix : Index) (rn rd : Reg) (imm : BitVec 12) :
    EncodeRow.Statement (.strImm c ix rn rd imm) := by
  have := bool_toNat_lt ix.p
  have := bool_toNat_lt ix.u
  have := bool_toNat_lt ix.w
  apply matches_or (m := 0xe000000#32) (n := 0x500000#32) (v := 0x4000000#32) (u := 0x0#32)
  · apply matches_field 25 3 2
    simp only [encode]
    rw [toNat_field, toNat_transferWord]
    simp only [Bool.toNat_false]
    omega
  · apply matches_or (m := 0x400000#32) (n := 0x100000#32) (v := 0x0#32) (u := 0x0#32)
    · apply matches_field 22 1 0
      simp only [encode]
      rw [toNat_field, toNat_transferWord]
      simp only [Bool.toNat_false]
      omega
    · apply matches_field 20 1 0
      simp only [encode]
      rw [toNat_field, toNat_transferWord]
      simp only [Bool.toNat_false]
      omega

theorem EncodeRow.strReg (c : Cond) (ix : Index) (rn rd : Reg) (o : ShImm) :
    EncodeRow.Statement (.strReg c ix rn rd o) := by
  have := bool_toNat_lt ix.p
  have := bool_toNat_lt ix.u
  have := bool_toNat_lt ix.w
  apply matches_or (m := 0xe000000#32) (n := 0x500010#32) (v := 0x6000000#32) (u := 0x0#32)
  · apply matches_field 25 3 3
    simp only [encode]
    rw [toNat_field, toNat_transferWord, ShImm.toNat_bits]
    simp only [Bool.toNat_true, Bool.toNat_false]
    omega
  · apply matches_or (m := 0x400000#32) (n := 0x100010#32) (v := 0x0#32) (u := 0x0#32)
    · apply matches_field 22 1 0
      simp only [encode]
      rw [toNat_field, toNat_transferWord, ShImm.toNat_bits]
      simp only [Bool.toNat_true, Bool.toNat_false]
      omega
    · apply matches_or (m := 0x100000#32) (n := 0x10#32) (v := 0x0#32) (u := 0x0#32)
      · apply matches_field 20 1 0
        simp only [encode]
        rw [toNat_field, toNat_transferWord, ShImm.toNat_bits]
        simp only [Bool.toNat_true, Bool.toNat_false]
        omega
      · apply matches_field 4 1 0
        simp only [encode]
        rw [toNat_field, toNat_transferWord, ShImm.toNat_bits]
        simp only [Bool.toNat_true, Bool.toNat_false]
        omega

theorem EncodeRow.ldm (c : Cond) (bm : BlockMode) (rn : Reg) (list : BitVec 16) :
    EncodeRow.Statement (.ldm c bm rn list) := by
  have := bool_toNat_lt bm.p
  have := bool_toNat_lt bm.u
  have := bool_toNat_lt bm.s
  have := bool_toNat_lt bm.w
  apply matches_or (m := 0xe000000#32) (n := 0x100000#32) (v := 0x8000000#32) (u := 0x100000#32)
  · apply matches_field 25 3 4
    simp only [encode]
    rw [toNat_field, toNat_blockWord]
    simp only [Bool.toNat_true]
    omega
  · apply matches_field 20 1 1
    simp only [encode]
    rw [toNat_field, toNat_blockWord]
    simp only [Bool.toNat_true]
    omega

theorem EncodeRow.stm (c : Cond) (bm : BlockMode) (rn : Reg) (list : BitVec 16) :
    EncodeRow.Statement (.stm c bm rn list) := by
  have := bool_toNat_lt bm.p
  have := bool_toNat_lt bm.u
  have := bool_toNat_lt bm.s
  have := bool_toNat_lt bm.w
  apply matches_or (m := 0xe000000#32) (n := 0x100000#32) (v := 0x8000000#32) (u := 0x0#32)
  · apply matches_field 25 3 4
    simp only [encode]
    rw [toNat_field, toNat_blockWord]
    simp only [Bool.toNat_false]
    omega
  · apply matches_field 20 1 0
    simp only [encode]
    rw [toNat_field, toNat_blockWord]
    simp only [Bool.toNat_false]
    omega

theorem EncodeRow.b (c : Cond) (off : BitVec 24) :
    EncodeRow.Statement (.b c off) := by
  apply matches_field 24 4 10
  rw [toNat_field, toNat_encode_b]
  omega

theorem EncodeRow.bl (c : Cond) (off : BitVec 24) :
    EncodeRow.Statement (.bl c off) := by
  apply matches_field 24 4 11
  rw [toNat_field, toNat_encode_bl]
  omega

theorem EncodeRow.swi (c : Cond) (comment : BitVec 24) :
    EncodeRow.Statement (.swi c comment) := by
  apply matches_field 24 4 15
  rw [toNat_field, toNat_encode_swi]
  omega

theorem EncodeRow.undef (c : Cond) (hi : BitVec 20) (lo : BitVec 4) :
    EncodeRow.Statement (.undef c hi lo) := by
  apply matches_or (m := 0xe000000#32) (n := 0x10#32) (v := 0x6000000#32) (u := 0x10#32)
  · apply matches_field 25 3 3
    rw [toNat_field, toNat_encode_undef]
    omega
  · apply matches_field 4 1 1
    rw [toNat_field, toNat_encode_undef]
    omega

theorem EncodeRow.cdp (c : Cond) (opc : BitVec 4) (crn crd cp : BitVec 4) (info : BitVec 3) (crm : BitVec 4) :
    EncodeRow.Statement (.cdp c opc crn crd cp info crm) := by
  apply matches_or (m := 0xf000000#32) (n := 0x10#32) (v := 0xe000000#32) (u := 0x0#32)
  · apply matches_field 24 4 14
    rw [toNat_field, toNat_encode_cdp]
    omega
  · apply matches_field 4 1 0
    rw [toNat_field, toNat_encode_cdp]
    omega

theorem EncodeRow.ldc (c : Cond) (ix : CopIndex) (rn : Reg) (crd cp : BitVec 4) (off : BitVec 8) :
    EncodeRow.Statement (.ldc c ix rn crd cp off) := by
  have := bool_toNat_lt ix.p
  have := bool_toNat_lt ix.u
  have := bool_toNat_lt ix.n
  have := bool_toNat_lt ix.w
  apply matches_or (m := 0xe000000#32) (n := 0x100000#32) (v := 0xc000000#32) (u := 0x100000#32)
  · apply matches_field 25 3 6
    simp only [encode]
    rw [toNat_field, toNat_copTransferWord]
    simp only [Bool.toNat_true]
    omega
  · apply matches_field 20 1 1
    simp only [encode]
    rw [toNat_field, toNat_copTransferWord]
    simp only [Bool.toNat_true]
    omega

theorem EncodeRow.stc (c : Cond) (ix : CopIndex) (rn : Reg) (crd cp : BitVec 4) (off : BitVec 8) :
    EncodeRow.Statement (.stc c ix rn crd cp off) := by
  have := bool_toNat_lt ix.p
  have := bool_toNat_lt ix.u
  have := bool_toNat_lt ix.n
  have := bool_toNat_lt ix.w
  apply matches_or (m := 0xe000000#32) (n := 0x100000#32) (v := 0xc000000#32) (u := 0x0#32)
  · apply matches_field 25 3 6
    simp only [encode]
    rw [toNat_field, toNat_copTransferWord]
    simp only [Bool.toNat_false]
    omega
  · apply matches_field 20 1 0
    simp only [encode]
    rw [toNat_field, toNat_copTransferWord]
    simp only [Bool.toNat_false]
    omega

theorem EncodeRow.mrc (c : Cond) (opc : BitVec 3) (crn : BitVec 4) (rd : Reg) (cp : BitVec 4) (info : BitVec 3) (crm : BitVec 4) :
    EncodeRow.Statement (.mrc c opc crn rd cp info crm) := by
  apply matches_or (m := 0xf000000#32) (n := 0x100010#32) (v := 0xe000000#32) (u := 0x100010#32)
  · apply matches_field 24 4 14
    simp only [encode]
    rw [toNat_field, toNat_copRegWord]
    simp only [Bool.toNat_true]
    omega
  · apply matches_or (m := 0x100000#32) (n := 0x10#32) (v := 0x100000#32) (u := 0x10#32)
    · apply matches_field 20 1 1
      simp only [encode]
      rw [toNat_field, toNat_copRegWord]
      simp only [Bool.toNat_true]
      omega
    · apply matches_field 4 1 1
      simp only [encode]
      rw [toNat_field, toNat_copRegWord]
      simp only [Bool.toNat_true]
      omega

theorem EncodeRow.mcr (c : Cond) (opc : BitVec 3) (crn : BitVec 4) (rd : Reg) (cp : BitVec 4) (info : BitVec 3) (crm : BitVec 4) :
    EncodeRow.Statement (.mcr c opc crn rd cp info crm) := by
  apply matches_or (m := 0xf000000#32) (n := 0x100010#32) (v := 0xe000000#32) (u := 0x10#32)
  · apply matches_field 24 4 14
    simp only [encode]
    rw [toNat_field, toNat_copRegWord]
    simp only [Bool.toNat_false]
    omega
  · apply matches_or (m := 0x100000#32) (n := 0x10#32) (v := 0x0#32) (u := 0x10#32)
    · apply matches_field 20 1 0
      simp only [encode]
      rw [toNat_field, toNat_copRegWord]
      simp only [Bool.toNat_false]
      omega
    · apply matches_field 4 1 1
      simp only [encode]
      rw [toNat_field, toNat_copRegWord]
      simp only [Bool.toNat_false]
      omega

end Sys2Proof.Laws
end

