-- ==== Sys2Proof/Safety.lean ====
section
/-! DEFINITION. What counts as a safe run: one that never stops. The exceptions of 60_exceptions.md are taken
and are no stops; a fault or a refusal is one. -/

namespace Sys2Proof

/-- The outcome is a next state. -/
def Outcome.isNext {σ φ ρ : Type} : Host.Outcome σ φ ρ → Bool
  | .next _ => true
  | _ => false

/-- The machine takes `k` steps from `s` without a fault or a refusal. -/
def safeFor (k : Nat) (s : Machine.State) : Prop := ∃ t, core.run k s = .next t

/-- The machine never stops from `s`. -/
def safe (s : Machine.State) : Prop := ∀ k, safeFor k s

end Sys2Proof
end

