-- ==== Sys2Proof/Tests/Slice0.lean ====
section
/-! SUPPORT. Tests of the model: the operand checks refuse an ill-formed term each, one word of every row written
out bit by bit from the row's encoding in spec/opcode_table.json, one-step tests from the spec's own examples, and
a concrete state for the hypotheses of every obligation that has some. -/

namespace Sys2Proof.Tests

open Sys2Proof.Machine Sys2Proof.Claims

/-! ### Small states -/

/-- A state at address 0x8000 in a mode, NZCV = 0011, both interrupts enabled. -/
def ready (m : Mode) : State :=
  { State.reset with pcBits := 0x2000, cpsr := ⟨⟨false, false, true, true⟩, false, false, m⟩ }

/-- Put values into registers. -/
def withRegs (s : State) (l : List (PhysReg × Word)) : State := l.foldl (fun s x => s.setGpr x.1 x.2) s

/-- Put words into memory. -/
def withWords (s : State) (l : List (WordAddr × Word)) : State := s.setMem (s.mem.setWords l)

/-- Let accesses be aborted. -/
def withAborts (s : State) (l : List Abort) : State := { s with lines := ⟨false, false, l⟩ }

/-- The next state, if there is one. -/
def next? : Result → Option State
  | .next t => some t
  | _ => none

/-- The refusal, if it is one. -/
def stop? : Result → Option Refusal
  | .refused r => some r
  | _ => none

/-- The state after an instruction word. -/
def after (w : Word) (s : State) : Option State := next? (runWord w s)

/-- A data-processing or compare test: R0 and NZCV after word `w` with R1, R2 and NZCV before. -/
def alu012 (w : Word) (r1 r2 : Word) (f : Flags) : Option (Word × Flags) :=
  (after w ((withRegs (ready .usr) [(.r1, r1), (.r2, r2)]).setFlags f)).map fun t => (t.gpr.r0, t.cpsr.flags)

/-- The state of the spec's transfer examples: R1 = R13 = 0x9000 in User mode and five words from 0x8FFC on. -/
def transferState : State :=
  withWords (withRegs (ready .usr) [(.r0, 0x12345678), (.r1, 0x9000), (.r2, 3), (.r13_usr, 0x9000)])
    [(0x23FF, 0xAAAAAAAA), (0x2400, 0x11111111), (0x2401, 0x22222222), (0x2402, 0x33333333), (0x2403, 0x44444444)]

/-- A saved status with mode bits `m`. -/
def psr (m : BitVec 5) : Psr := ⟨⟨true, false, false, false⟩, false, true, m⟩

/-! ### WellFormed refuses an ill-formed term for each check -/

theorem test_wf_shift_register_r15 : (Instr.addShReg .al false 1 0 ⟨15, .lsl, 2⟩).wellFormed = false := by decide
theorem test_wf_shift_register_ok : (Instr.addShReg .al false 15 15 ⟨14, .lsl, 15⟩).wellFormed = true := by decide
theorem test_wf_compare_rd15 : (Instr.tstImm .al 1 15 ⟨0, 1⟩).wellFormed = false := by decide
theorem test_wf_compare_shift_register_r15 : (Instr.cmpShReg .al 1 0 ⟨15, .lsr, 2⟩).wellFormed = false := by decide
theorem test_wf_mrs_r15 : (Instr.mrs .al false 15).wellFormed = false := by decide
theorem test_wf_msr_r15 : (Instr.msrAll .al false 15).wellFormed = false := by decide
theorem test_wf_msr_flg_r15 : (Instr.msrFlgReg .al true 15).wellFormed = false := by decide
theorem test_wf_post_indexed_t : (Instr.ldrImm .al ⟨false, true, true⟩ 1 0 4).wellFormed = false := by decide
theorem test_wf_writeback_r15 : (Instr.ldrImm .al ⟨true, true, true⟩ 15 0 4).wellFormed = false := by decide
theorem test_wf_writeback_rd : (Instr.strImm .al ⟨false, true, false⟩ 1 1 4).wellFormed = false := by decide
theorem test_wf_offset_r15 : (Instr.ldrReg .al ⟨true, true, false⟩ 1 0 ⟨0, .lsl, 15⟩).wellFormed = false := by decide
theorem test_wf_writeback_rm : (Instr.strReg .al ⟨true, true, true⟩ 1 0 ⟨0, .lsl, 1⟩).wellFormed = false := by decide
theorem test_wf_pc_relative_ok : (Instr.ldrImm .al ⟨true, true, false⟩ 15 15 4).wellFormed = true := by decide
theorem test_wf_empty_list : (Instr.ldm .al ⟨false, true, false, false⟩ 1 0).wellFormed = false := by decide
theorem test_wf_base_r15 : (Instr.stm .al ⟨false, true, false, false⟩ 15 1).wellFormed = false := by decide
theorem test_wf_ldm_base_in_list : (Instr.ldm .al ⟨false, true, false, true⟩ 1 0x0002).wellFormed = false := by decide
theorem test_wf_stm_base_not_lowest : (Instr.stm .al ⟨false, true, false, true⟩ 1 0x0003).wellFormed = false := by
  decide
theorem test_wf_stm_base_lowest_ok : (Instr.stm .al ⟨false, true, false, true⟩ 1 0x0006).wellFormed = true := by decide
theorem test_wf_ldm_user_bank_writeback : (Instr.ldm .al ⟨false, true, true, true⟩ 1 0x0001).wellFormed = false := by
  decide
theorem test_wf_ldm_return_writeback_ok : (Instr.ldm .al ⟨false, true, true, true⟩ 13 0x8001).wellFormed = true := by
  decide
theorem test_wf_stm_user_bank_writeback : (Instr.stm .al ⟨false, true, true, true⟩ 1 0x8001).wellFormed = false := by
  decide

/-! ### Decoding: one word of each row, bit by bit (30_encoding.md R92 to R107) -/

theorem test_decode_andImm :
    decodeWord 0b00000010000001111011000100010011#32 = .ok (.andImm .eq false 7 11 ⟨1, 19⟩) := by decide
theorem test_decode_andShImm :
    decodeWord 0b00010000000001101010000101100100#32 = .ok (.andShImm .ne false 6 10 ⟨2, .ror, 4⟩) := by decide
theorem test_decode_andShReg :
    decodeWord 0b00100000000001110111001000110010#32 = .ok (.andShReg .cs false 7 7 ⟨2, .lsr, 2⟩) := by decide
theorem test_decode_eorImm :
    decodeWord 0b00110010001100011110101000100000#32 = .ok (.eorImm .cc true 1 14 ⟨10, 32⟩) := by decide
theorem test_decode_eorShImm :
    decodeWord 0b01000000001010101010011010100100#32 = .ok (.eorShImm .mi false 10 10 ⟨13, .lsr, 4⟩) := by decide
theorem test_decode_eorShReg :
    decodeWord 0b01010000001001010111001101110010#32 = .ok (.eorShReg .pl false 5 7 ⟨3, .ror, 2⟩) := by decide
theorem test_decode_subImm :
    decodeWord 0b01100010010110011110101100101111#32 = .ok (.subImm .vs true 9 14 ⟨11, 47⟩) := by decide
theorem test_decode_subShImm :
    decodeWord 0b01110000010001100010100101100010#32 = .ok (.subShImm .vc false 6 2 ⟨18, .ror, 2⟩) := by decide
theorem test_decode_subShReg :
    decodeWord 0b10000000010010100100100001111001#32 = .ok (.subShReg .hi false 10 4 ⟨8, .ror, 9⟩) := by decide
theorem test_decode_rsbImm :
    decodeWord 0b10010010011110001010111101110101#32 = .ok (.rsbImm .ls true 8 10 ⟨15, 117⟩) := by decide
theorem test_decode_rsbShImm :
    decodeWord 0b10100000011101001101001101101101#32 = .ok (.rsbShImm .ge true 4 13 ⟨6, .ror, 13⟩) := by decide
theorem test_decode_rsbShReg :
    decodeWord 0b10110000011010100101100101011111#32 = .ok (.rsbShReg .lt false 10 5 ⟨9, .asr, 15⟩) := by decide
theorem test_decode_addImm :
    decodeWord 0b11000010100101011010001000011111#32 = .ok (.addImm .gt true 5 10 ⟨2, 31⟩) := by decide
theorem test_decode_addShImm :
    decodeWord 0b11010000100100111101010110101111#32 = .ok (.addShImm .le true 3 13 ⟨11, .lsr, 15⟩) := by decide
theorem test_decode_addShReg :
    decodeWord 0b11100000100100011011001001111010#32 = .ok (.addShReg .al true 1 11 ⟨2, .ror, 10⟩) := by decide
theorem test_decode_adcImm :
    decodeWord 0b00000010101101101100011010011001#32 = .ok (.adcImm .eq true 6 12 ⟨6, 153⟩) := by decide
theorem test_decode_adcShImm :
    decodeWord 0b00010000101100101110000111001000#32 = .ok (.adcShImm .ne true 2 14 ⟨3, .asr, 8⟩) := by decide
theorem test_decode_adcShReg :
    decodeWord 0b00100000101000011100110001011011#32 = .ok (.adcShReg .cs false 1 12 ⟨12, .asr, 11⟩) := by decide
theorem test_decode_sbcImm :
    decodeWord 0b00110010110101011100011111100100#32 = .ok (.sbcImm .cc true 5 12 ⟨7, 228⟩) := by decide
theorem test_decode_sbcShImm :
    decodeWord 0b01000000110100011000011000101010#32 = .ok (.sbcShImm .mi true 1 8 ⟨12, .lsr, 10⟩) := by decide
theorem test_decode_sbcShReg :
    decodeWord 0b01010000110100010100110101010011#32 = .ok (.sbcShReg .pl true 1 4 ⟨13, .asr, 3⟩) := by decide
theorem test_decode_rscImm :
    decodeWord 0b01100010111001110111111111100000#32 = .ok (.rscImm .vs false 7 7 ⟨15, 224⟩) := by decide
theorem test_decode_rscShImm :
    decodeWord 0b01110000111000111000011011100101#32 = .ok (.rscShImm .vc false 3 8 ⟨13, .ror, 5⟩) := by decide
theorem test_decode_rscShReg :
    decodeWord 0b10000000111011100111111001110101#32 = .ok (.rscShReg .hi false 14 7 ⟨14, .ror, 5⟩) := by decide
theorem test_decode_tstImm :
    decodeWord 0b10010011000101110110101111100011#32 = .ok (.tstImm .ls 7 6 ⟨11, 227⟩) := by decide
theorem test_decode_tstShImm :
    decodeWord 0b10100001000101000011000110100011#32 = .ok (.tstShImm .ge 4 3 ⟨3, .lsr, 3⟩) := by decide
theorem test_decode_tstShReg :
    decodeWord 0b10110001000110110100000101011110#32 = .ok (.tstShReg .lt 11 4 ⟨1, .asr, 14⟩) := by decide
theorem test_decode_teqImm :
    decodeWord 0b11000011001100110101010100000010#32 = .ok (.teqImm .gt 3 5 ⟨5, 2⟩) := by decide
theorem test_decode_teqShImm :
    decodeWord 0b11010001001101111001011001101010#32 = .ok (.teqShImm .le 7 9 ⟨12, .ror, 10⟩) := by decide
theorem test_decode_teqShReg :
    decodeWord 0b11100001001100111100111001111010#32 = .ok (.teqShReg .al 3 12 ⟨14, .ror, 10⟩) := by decide
theorem test_decode_cmpImm :
    decodeWord 0b00000011010110111100000101110101#32 = .ok (.cmpImm .eq 11 12 ⟨1, 117⟩) := by decide
theorem test_decode_cmpShImm :
    decodeWord 0b00010001010111101101111111101101#32 = .ok (.cmpShImm .ne 14 13 ⟨31, .ror, 13⟩) := by decide
theorem test_decode_cmpShReg :
    decodeWord 0b00100001010101110111011101010010#32 = .ok (.cmpShReg .cs 7 7 ⟨7, .asr, 2⟩) := by decide
theorem test_decode_cmnImm :
    decodeWord 0b00110011011110110111000100110001#32 = .ok (.cmnImm .cc 11 7 ⟨1, 49⟩) := by decide
theorem test_decode_cmnShImm :
    decodeWord 0b01000001011101001000001100100110#32 = .ok (.cmnShImm .mi 4 8 ⟨6, .lsr, 6⟩) := by decide
theorem test_decode_cmnShReg :
    decodeWord 0b01010001011100010010000101110011#32 = .ok (.cmnShReg .pl 1 2 ⟨1, .ror, 3⟩) := by decide
theorem test_decode_orrImm :
    decodeWord 0b01100011100001101010000100010011#32 = .ok (.orrImm .vs false 6 10 ⟨1, 19⟩) := by decide
theorem test_decode_orrShImm :
    decodeWord 0b01110001100010100111001011100101#32 = .ok (.orrShImm .vc false 10 7 ⟨5, .ror, 5⟩) := by decide
theorem test_decode_orrShReg :
    decodeWord 0b10000001100110000010001001011000#32 = .ok (.orrShReg .hi true 8 2 ⟨2, .asr, 8⟩) := by decide
theorem test_decode_movImm :
    decodeWord 0b10010011101101010010001100011011#32 = .ok (.movImm .ls true 5 2 ⟨3, 27⟩) := by decide
theorem test_decode_movShImm :
    decodeWord 0b10100001101111000101100001100011#32 = .ok (.movShImm .ge true 12 5 ⟨16, .ror, 3⟩) := by decide
theorem test_decode_movShReg :
    decodeWord 0b10110001101001001001011000111100#32 = .ok (.movShReg .lt false 4 9 ⟨6, .lsr, 12⟩) := by decide
theorem test_decode_bicImm :
    decodeWord 0b11000011110011011001010111111011#32 = .ok (.bicImm .gt false 13 9 ⟨5, 251⟩) := by decide
theorem test_decode_bicShImm :
    decodeWord 0b11010001110011001110010011100110#32 = .ok (.bicShImm .le false 12 14 ⟨9, .ror, 6⟩) := by decide
theorem test_decode_bicShReg :
    decodeWord 0b11100001110001101101010001111001#32 = .ok (.bicShReg .al false 6 13 ⟨4, .ror, 9⟩) := by decide
theorem test_decode_mvnImm :
    decodeWord 0b00000011111110110100101011010000#32 = .ok (.mvnImm .eq true 11 4 ⟨10, 208⟩) := by decide
theorem test_decode_mvnShImm :
    decodeWord 0b00010001111011010100110111001100#32 = .ok (.mvnShImm .ne false 13 4 ⟨27, .asr, 12⟩) := by decide
theorem test_decode_mvnShReg :
    decodeWord 0b00100001111001001001100001011100#32 = .ok (.mvnShReg .cs false 4 9 ⟨8, .asr, 12⟩) := by decide
theorem test_decode_mrs :
    decodeWord 0b00110001000011111101000000000000#32 = .ok (.mrs .cc false 13) := by decide
theorem test_decode_msrAll :
    decodeWord 0b01000001011010011111000000000101#32 = .ok (.msrAll .mi true 5) := by decide
theorem test_decode_msrFlgReg :
    decodeWord 0b01010001011010001111000000001000#32 = .ok (.msrFlgReg .pl true 8) := by decide
theorem test_decode_msrFlgImm :
    decodeWord 0b01100011011010001111011000010101#32 = .ok (.msrFlgImm .vs true ⟨6, 21⟩) := by decide
theorem test_decode_ldrImm :
    decodeWord 0b01110100001101000110001101000110#32 = .ok (.ldrImm .vc ⟨false, false, true⟩ 4 6 838) := by decide
theorem test_decode_ldrReg :
    decodeWord 0b10000110101111011011000111100010#32 = .ok (.ldrReg .hi ⟨false, true, true⟩ 13 11 ⟨3, .ror, 2⟩) := by decide
theorem test_decode_strImm :
    decodeWord 0b10010101001011110011011011110010#32 = .ok (.strImm .ls ⟨true, false, true⟩ 15 3 1778) := by decide
theorem test_decode_strReg :
    decodeWord 0b10100111001010000111110000101100#32 = .ok (.strReg .ge ⟨true, false, true⟩ 8 7 ⟨24, .lsr, 12⟩) := by decide
theorem test_decode_ldm :
    decodeWord 0b10111000000110101110011110100101#32 = .ok (.ldm .lt ⟨false, false, false, false⟩ 10 59301) := by decide
theorem test_decode_stm :
    decodeWord 0b11001000110010011000110001011101#32 = .ok (.stm .gt ⟨false, true, true, false⟩ 9 35933) := by decide
theorem test_decode_b :
    decodeWord 0b11011010000001010111101001000001#32 = .ok (.b .le 358977) := by decide
theorem test_decode_bl :
    decodeWord 0b11101011110011001010001010101010#32 = .ok (.bl .al 13410986) := by decide
theorem test_decode_swi :
    decodeWord 0b00001111101001100101000100010101#32 = .ok (.swi .eq 10899733) := by decide
theorem test_decode_undef :
    decodeWord 0b00010110100011101001011110111101#32 = .ok (.undef .ne 292029 13) := by decide
theorem test_decode_cdp :
    decodeWord 0b00101110010011101110010000100101#32 = .ok (.cdp .cs 4 14 14 4 1 5) := by decide
theorem test_decode_ldc :
    decodeWord 0b00111101011110010111111000100010#32 = .ok (.ldc .cc ⟨true, false, true, true⟩ 9 7 14 34) := by decide
theorem test_decode_stc :
    decodeWord 0b01001101110010010011100110000011#32 = .ok (.stc .mi ⟨true, true, true, false⟩ 9 3 9 131) := by decide
theorem test_decode_mrc :
    decodeWord 0b01011110111110001101001110110001#32 = .ok (.mrc .pl 7 8 13 3 5 1) := by decide
theorem test_decode_mcr :
    decodeWord 0b01101110111000110011001110011010#32 = .ok (.mcr .vs 7 3 3 3 4 10) := by decide

/-! ### Refused words, each at the edge of its space (30_encoding.md R96, R108) -/

theorem test_decode_nv : decodeWord 0xF1A00000#32 = .error .conditionNV := by decide
theorem test_decode_mul : decodeWord 0xE0000091#32 = .error .multiplySwapHalfwordSpace := by decide
theorem test_decode_psr_space : decodeWord 0xE1000000#32 = .error .psrSpaceOther := by decide
theorem test_decode_msr_rd_field : decodeWord 0xE129E000#32 = .error .psrSpaceOther := by decide
theorem test_decode_ldrb : decodeWord 0xE5D10000#32 = .error .byteTransfer := by decide
theorem test_decode_undef_not_byte : (decodeWord 0xE7D10010#32).isOk = true := by decide
theorem test_decode_bytes_rest : (decodeBytes [0x04, 0xF0, 0x5E, 0xE2, 0x99]).toOption =
    some (.subImm .al true 14 15 ⟨0, 4⟩, [0x99]) := by decide
theorem test_decode_truncated : decodeBytes [0x04, 0xF0, 0x5E] = .error .truncated := by decide
theorem test_table_word : decodeTableWord 32 0xE25EF004 = some (.subImm .al true 14 15 ⟨0, 4⟩) := by decide

/-! ### Data processing (examples of 41_data_processing.md) -/

theorem test_ands : alu012 0xE0110002 0xF0F0F0F0 0x0FF00FF0 ⟨false, false, true, true⟩ =
    some (0x00F000F0, ⟨false, false, true, true⟩) := by decide
theorem test_ands_immediate : alu012 0xE2110102 0xFFFFFFFF 0 ⟨false, false, false, true⟩ =
    some (0x80000000, ⟨true, false, true, true⟩) := by decide
theorem test_eors : alu012 0xE0310002 0xF0F0F0F0 0x0FF00FF0 ⟨false, false, true, true⟩ =
    some (0xFF00FF00, ⟨true, false, true, true⟩) := by decide
theorem test_subs_borrow : alu012 0xE2510001 0 0 ⟨false, false, true, true⟩ =
    some (0xFFFFFFFF, ⟨true, false, false, false⟩) := by decide
theorem test_subs_overflow : alu012 0xE0510002 0x80000000 1 ⟨true, true, false, false⟩ =
    some (0x7FFFFFFF, ⟨false, false, true, true⟩) := by decide
theorem test_rsbs : alu012 0xE2710000 5 0 ⟨false, true, true, true⟩ =
    some (0xFFFFFFFB, ⟨true, false, false, false⟩) := by decide
theorem test_adds_overflow : alu012 0xE0910002 0x7FFFFFFF 1 ⟨false, true, true, false⟩ =
    some (0x80000000, ⟨true, false, false, true⟩) := by decide
theorem test_adds_carry : alu012 0xE0910002 0xFFFFFFFF 1 ⟨true, false, false, true⟩ =
    some (0, ⟨false, true, true, false⟩) := by decide
theorem test_adcs : alu012 0xE0B10002 0x7FFFFFFF 0 ⟨false, false, true, false⟩ =
    some (0x80000000, ⟨true, false, false, true⟩) := by decide
theorem test_sbcs : alu012 0xE0D10002 0 0 ⟨false, true, false, true⟩ =
    some (0xFFFFFFFF, ⟨true, false, false, false⟩) := by decide
theorem test_rscs : alu012 0xE0F10002 3 5 ⟨true, true, false, true⟩ = some (1, ⟨false, false, true, false⟩) := by decide
theorem test_tst : alu012 0xE1110002 0xF0 0x0F ⟨false, false, true, true⟩ = some (0, ⟨false, true, true, true⟩) := by
  decide
theorem test_teq : alu012 0xE1310002 0x1234 0x1234 ⟨false, false, true, true⟩ =
    some (0, ⟨false, true, true, true⟩) := by decide
theorem test_cmp : alu012 0xE3510001 0x80000000 0 ⟨true, true, false, false⟩ =
    some (0, ⟨false, false, true, true⟩) := by decide
theorem test_cmn : alu012 0xE3710001 0xFFFFFFFF 0 ⟨true, false, false, true⟩ =
    some (0, ⟨false, true, true, false⟩) := by decide
theorem test_orrs : alu012 0xE1910002 0xF0F0F0F0 0x0FF00FF0 ⟨false, false, true, true⟩ =
    some (0xFFF0FFF0, ⟨true, false, true, true⟩) := by decide
theorem test_movs_immediate : alu012 0xE3B004FF 0 0 ⟨false, false, false, true⟩ =
    some (0xFF000000, ⟨true, false, true, true⟩) := by decide
theorem test_mov_pc_shifted : alu012 0xE1A0031F 0 0 ⟨false, false, false, false⟩ =
    some (0x800C, ⟨false, false, false, false⟩) := by decide
theorem test_bics : alu012 0xE1D10002 0xF0F0F0F0 0x0FF00FF0 ⟨false, false, true, true⟩ =
    some (0xF000F000, ⟨true, false, true, true⟩) := by decide
theorem test_mvns : alu012 0xE3F00000 0 0 ⟨false, true, false, false⟩ =
    some (0xFFFFFFFF, ⟨true, false, false, false⟩) := by decide
theorem test_add_pc : (after 0xE28FF004 (ready .usr)).map State.pc = some 0x800C := by decide
theorem test_condition_failed : (after 0x00810002 (ready .usr)).map (fun t => (t.gpr.r0, t.pc)) = some (0, 0x8004) := by
  decide
/-- The examples of R145 and R146: RRX with C = 1, and LSL by 32 and 33. -/
theorem test_shifts :
    shiftByImm .ror 0 0x80000001 true = (0xC0000000, true) ∧ shiftByImm .asr 31 0x80000001 false = (0xFFFFFFFF, false) ∧
    shiftByReg .lsl 32 0x80000001 true = (0, true) ∧ shiftByReg .lsl 33 0x80000001 true = (0, false) ∧
    shiftByReg .ror 33 0x80000001 true = (0xC0000000, true) ∧ shiftByReg .asr 255 0x80000001 false = (0xFFFFFFFF, true) :=
  by decide

/-! ### PSR transfers (examples of 42_psr_transfer.md) -/

theorem test_mrs_completes : (after 0xE10F0000 (ready .svc)).map (fun t => (t.draws, t.pc)) = some (1, 0x8004) := by decide
theorem test_mrs_spsr_user : stop? (runWord 0xE14F1000 (ready .usr)) = some .noSpsr := by decide
theorem test_msr_supervisor : (after 0xE129F000 (withRegs (ready .svc) [(.r0, 0x80000053)])).map State.cpsr =
    some ⟨⟨true, false, false, false⟩, false, true, .svc⟩ := by decide
theorem test_msr_user : (after 0xE129F000 (withRegs (ready .usr) [(.r0, 0x800000D3)])).map State.cpsr =
    some ⟨⟨true, false, false, false⟩, false, false, .usr⟩ := by decide
theorem test_msr_flg : (after 0xE128F000 (withRegs (ready .svc) [(.r0, 0x9000001F)])).map State.cpsr =
    some ⟨⟨true, false, false, true⟩, false, false, .svc⟩ := by decide
theorem test_msr_flg_immediate : (after 0xE328F20F (ready .usr)).map (fun t => t.cpsr.flags) =
    some ⟨true, true, true, true⟩ := by decide
theorem test_msr_spsr_flg_immediate : (after 0xE368F102 (ready .irq)).map (fun t => t.spsrs.irq) =
    some ⟨⟨true, false, false, false⟩, false, false, 0⟩ := by decide

/-! ### Single data transfers (examples of 43_single_data_transfer.md) -/

theorem test_ldr_pre_down : (after 0xE5310004 transferState).map (fun t => (t.gpr.r0, t.gpr.r1)) =
    some (0xAAAAAAAA, 0x8FFC) := by decide
theorem test_ldr_register : (after 0xE7910102 transferState).map (fun t => (t.gpr.r0, t.gpr.r1)) =
    some (0x44444444, 0x9000) := by decide
theorem test_str_pre_up : (after 0xE5A10004 transferState).map (fun t => (t.mem.word 0x2401, t.gpr.r1)) =
    some (some 0x12345678, 0x9004) := by decide
theorem test_str_register : (after 0xE7810102 transferState).map (fun t => (t.mem.word 0x2403, t.mem.word 0x2402)) =
    some (some 0x12345678, some 0x33333333) := by decide
theorem test_ldr_unaligned : stop? (runWord 0xE5910000 (withRegs (ready .usr) [(.r1, 0x9001)])) =
    some .unalignedAddress := by decide
/-- The first example of R194. -/
theorem test_ldr_aborted :
    (after 0xE5B10004 (withAborts transferState [⟨.read, 0x2401⟩])).map
      (fun t => (t.gpr.r0, t.gpr.r1, t.gpr.r14_abt, t.pc, t.cpsr.mode)) =
    some (0x12345678, 0x9004, 0x8008, 0x10, .abt) := by decide

/-! ### Block data transfers (examples of 44_block_data_transfer.md) -/

theorem test_ldmia : (after 0xE8BD0007 transferState).map (fun t => (t.gpr.r0, t.gpr.r1, t.gpr.r2, t.gpr.r13_usr)) =
    some (0x11111111, 0x22222222, 0x33333333, 0x900C) := by decide
theorem test_stmdb : (after 0xE92D0007 transferState).map
      (fun t => (t.mem.word 0x23FD, t.mem.word 0x23FE, t.mem.word 0x23FF, t.gpr.r13_usr)) =
    some (some 0x12345678, some 0x9000, some 3, 0x8FF4) := by decide
/-- The example of R203. -/
theorem test_ldm_return :
    (after 0xE8FD8001 { withWords (withRegs (ready .irq) [(.r13_irq, 0x9000)]) [(0x2400, 5), (0x2401, 0x8200)] with
      spsrs := { State.reset.spsrs with irq := ⟨⟨true, false, false, false⟩, false, false, 0b10000⟩ } }).map
      (fun t => (t.gpr.r0, t.gpr.r13_irq, t.pc, t.cpsr)) =
    some (5, 0x9008, 0x8200, ⟨⟨true, false, false, false⟩, false, false, .usr⟩) := by decide
/-- The example of R205. -/
theorem test_stm_user_bank :
    (after 0xE8C06000 (withRegs (ready .svc)
      [(.r0, 0x9000), (.r13_usr, 0x111), (.r14_usr, 0x222), (.r13_svc, 0x333), (.r14_svc, 0x444)])).map
      (fun t => (t.mem.word 0x2400, t.mem.word 0x2401)) = some (some 0x111, some 0x222) := by decide
/-- The second example of R206: the base is put back although the first load overwrote it. -/
theorem test_ldm_aborted :
    (after 0xE891000E (withAborts (withRegs transferState [(.r3, 0xA3)]) [⟨.read, 0x2402⟩])).map
      (fun t => (t.gpr.r1, t.gpr.r2, t.gpr.r3, t.pc)) = some (0x9000, 0x22222222, 0xA3, 0x10) := by decide
/-- The third example of R206. -/
theorem test_stm_aborted :
    (after 0xE8AD0007 (withAborts transferState [⟨.write, 0x2401⟩])).map
      (fun t => (t.mem.word 0x2400, t.mem.word 0x2401, t.mem.word 0x2402, t.gpr.r13_usr)) =
    some (some 0x12345678, some 0x22222222, some 3, 0x900C) := by decide

/-! ### Branches and traps -/

/-- The examples of R130 and of its corner case, a branch to itself. -/
theorem test_b : (after 0xEA000010 { ready .usr with pcBits := 6 }).map State.pc = some 0x60 ∧
    (after 0xEAFFFFFE (ready .usr)).map State.pc = some 0x8000 := by decide
theorem test_bl : (after 0xEB000002 (ready .usr)).map (fun t => (t.gpr.r14_usr, t.pc)) = some (0x8004, 0x8010) := by decide
theorem test_swi : (after 0xEF123456 (ready .usr)).map (fun t => (t.gpr.r14_svc, t.spsrs.svc, t.cpsr.mode, t.pc)) =
    some (0x8004, ⟨⟨false, false, true, true⟩, false, false, 0b10000⟩, .svc, 8) := by decide
theorem test_undefined : (after 0xE7F000F0 (ready .usr)).map (fun t => (t.gpr.r14_und, t.cpsr.mode, t.pc)) =
    some (0x8004, .und, 4) := by decide
theorem test_cdp : (after 0xEE000100 (ready .usr)).map (fun t => (t.gpr.r14_und, t.pc)) = some (0x8004, 4) := by decide
theorem test_ldc : (after 0xED900100 (ready .usr)).map (fun t => (t.gpr.r14_und, t.pc)) = some (0x8004, 4) := by decide
theorem test_stc : (after 0xED800100 (ready .usr)).map (fun t => (t.gpr.r14_und, t.pc)) = some (0x8004, 4) := by decide
theorem test_mrc : (after 0xEE100110 (ready .usr)).map (fun t => (t.gpr.r14_und, t.pc)) = some (0x8004, 4) := by decide
theorem test_mcr : (after 0xEE000110 (ready .usr)).map (fun t => (t.gpr.r14_und, t.pc)) = some (0x8004, 4) := by decide

/-! ### Steps -/

/-- The example of R242, one step with nFIQ LOW. -/
theorem test_fiq :
    (next? (step { ready .usr with pcBits := 0x2001, lines := ⟨true, true, []⟩ })).map
      (fun t => (t.gpr.r14_fiq, t.cpsr, t.pc)) =
    some (0x8008, ⟨⟨false, false, true, true⟩, true, true, .fiq⟩, 0x1C) := by decide
/-- The example of R246, the fetch of 0x8000 aborted. -/
theorem test_prefetch_abort :
    (next? (step (withAborts (ready .usr) [⟨.fetch, 0x2000⟩]))).map (fun t => (t.gpr.r14_abt, t.cpsr.mode, t.pc)) =
    some (0x8004, .abt, 0x0C) := by decide
/-- The first instruction after reset, placed at address 0: MOVS R0, #0xFF000000. -/
theorem test_first_instruction :
    (next? (step (State.reset.withFetchWord 32 0xE3B004FF))).map (fun t => (t.gpr.r0, t.pc)) =
    some (0xFF000000, 4) := by decide
/-- R65, R77: another bus master stores between the accesses of LDMIA R1, of R0 and R2: the second word is the new one,
and what it stores to the first word then comes too late for R0. -/
theorem test_ldm_not_atomic :
    (after 0xE8910005 { transferState with others := [[], [(0x2401, 8), (0x2400, 9)]] }).map
      (fun t => (t.gpr.r0, t.gpr.r2, t.mem.word 0x2400)) = some (0x11111111, 8, some 9) := by decide
/-- The same with STMIA R1, of R0 and R1: the first word is stored over before the second is stored. -/
theorem test_stm_not_atomic :
    (after 0xE8810003 { transferState with others := [[], [(0x2401, 8), (0x2400, 9)]] }).map
      (fun t => (t.mem.word 0x2400, t.mem.word 0x2401)) = some (some 9, some 0x9000) := by decide
theorem test_reset_fetch_faults :
    (match step State.reset with
      | .fault .unmappedFetch => true
      | _ => false) = true := by decide

/-! ### Witnesses: for each obligation with hypotheses, a state and operands that meet them -/

theorem witness_EncodeDecodeRoundTrip :
    decodeWord 0xE8BDFFFF#32 = .ok (.ldm .al ⟨false, true, false, true⟩ 13 0xFFFF) := by decide
theorem witness_DecodedWordMatchesItsRow : decodeWord 0xEAFFFFFE#32 = .ok (.b .al 0xFFFFFE) := by decide
theorem witness_DecodedWordMatchesItsRow_rows :
    (⟨0x0F000000#32, 0x0A000000#32⟩ : Row) ∈ opcodeTable ∧ Row.matches ⟨0x0F000000#32, 0x0A000000#32⟩ 0xEAFFFFFE#32 = true :=
  by decide
theorem witness_BankMap : Mode.abt ≠ .fiq ∧ phys (ready .abt).cpsr.mode 13 = some .r13_abt := by decide
theorem witness_IllFormedIsRefused :
    (Instr.mrs .al false 15).wellFormed = false ∧ conditionPassed (Instr.mrs .al false 15).cond (ready .svc).cpsr.flags = true :=
  by decide

/-- A state whose next instruction is SUBS R0, R1, #1. -/
def subsNext : State := withWords (ready .usr) [(0x2000, 0xE2510001)]

theorem witness_StepRunsDecodedInstruction :
    resetSeen subsNext = false ∧ fiqTaken (sample subsNext) = false ∧ irqTaken (sample subsNext) = false ∧
    (sample subsNext).aborted .fetch (sample subsNext).pcBits = false ∧
    (sample subsNext).mem.word (sample subsNext).pcBits = some 0xE2510001 ∧
    decodeWord 0xE2510001 = .ok (.subImm .al true 1 0 ⟨0, 1⟩) := by decide

/-- A boundary at which an nRESET pulse has completed and another bus master has stored a word. -/
def resetBoundary : Boundary := ⟨true, ⟨true, false, []⟩, [(0x2400, 5)]⟩

theorem witness_StepTakesReset :
    ({ ready .usr with schedule := [resetBoundary] } : State).schedule = resetBoundary :: [] ∧
    resetBoundary.reset = true := by decide

theorem witness_FiqEntry :
    let s : State := { ready .usr with lines := ⟨true, true, []⟩ }
    resetSeen s = false ∧ (sample s).lines.fiqLow = true ∧ (sample s).cpsr.f = false := by decide
theorem witness_IrqEntry :
    let s : State := { ready .usr with lines := ⟨false, true, []⟩ }
    resetSeen s = false ∧ ((sample s).lines.fiqLow = true → (sample s).cpsr.f = true) ∧
    (sample s).lines.irqLow = true ∧ (sample s).cpsr.i = false := by decide
/-- The other way to meet the second hypothesis: FIQ requested but disabled. -/
theorem witness_IrqEntry_fiq_disabled :
    let s : State := { ready .fiq with cpsr := ⟨⟨false, false, false, false⟩, false, true, .fiq⟩, lines := ⟨true, true, []⟩ }
    resetSeen s = false ∧ ((sample s).lines.fiqLow = true → (sample s).cpsr.f = true) ∧
    (sample s).lines.irqLow = true ∧ (sample s).cpsr.i = false := by decide
theorem witness_PrefetchAbortEntry :
    let s : State := withAborts (ready .usr) [⟨.fetch, 0x2000⟩]
    resetSeen s = false ∧ ((sample s).lines.fiqLow = true → (sample s).cpsr.f = true) ∧
    ((sample s).lines.irqLow = true → (sample s).cpsr.i = true) ∧ (sample s).aborted .fetch (sample s).pcBits = true := by
  decide
theorem witness_DataAbortThenFiq :
    let s : State := { ready .usr with lines := ⟨true, true, []⟩ }
    resetSeen s = false ∧ (sample s).lines.fiqLow = true ∧ s.cpsr.f = false := by decide
/-- The same with nFIQ going LOW only at the boundary after the entry. -/
theorem witness_DataAbortThenFiq_boundary :
    let s : State := { ready .usr with schedule := [⟨false, ⟨true, false, []⟩, [(0x2400, 5)]⟩] }
    s.lines.fiqLow = false ∧ resetSeen s = false ∧ (sample s).lines.fiqLow = true ∧ s.cpsr.f = false := by decide
theorem witness_StepStopsByName_word :
    let s : State := withWords (ready .usr) [(0x2000, 0xE0000091)]
    resetSeen s = false ∧ fiqTaken (sample s) = false ∧ irqTaken (sample s) = false ∧
    (sample s).aborted .fetch (sample s).pcBits = false ∧ (sample s).mem.word (sample s).pcBits = some 0xE0000091 ∧
    decodeWord 0xE0000091 = .error .multiplySwapHalfwordSpace := by decide
theorem witness_StepStopsByName_unpopulated :
    let s : State := ready .usr
    resetSeen s = false ∧ fiqTaken (sample s) = false ∧ irqTaken (sample s) = false ∧
    (sample s).aborted .fetch (sample s).pcBits = false ∧ (sample s).mem.word (sample s).pcBits = none := by decide
theorem witness_ConditionField : conditionPassed (Instr.swi .eq 0).cond (ready .usr).cpsr.flags = false := by decide

/-- A state right after an LDM of User-bank registers. -/
def hazardous (m : Mode) : State := (ready m).setUserLdm true

theorem witness_BankedReadHazard :
    (hazardous .fiq).userLdm = true ∧ conditionPassed .al (hazardous .fiq).cpsr.flags = true ∧
    bankedIn .fiq 8 = true ∧ bankedIn .fiq 14 = true ∧ bankedIn .svc 13 = true ∧
    (8 : Reg) ∈ operandReads (.shReg ⟨8, .lsl, 0⟩) ∧ (8 : Reg) ∈ (Offset.reg ⟨0, .lsl, 8⟩).reads ∧
    (0x0100 : BitVec 16).getLsbD (8 : Reg).toNat = true := by decide
/-- Outside the edges of the banked range nothing is banked. -/
theorem witness_BankedReadHazard_edges :
    bankedIn .fiq 7 = false ∧ bankedIn .fiq 15 = false ∧ bankedIn .svc 12 = false ∧ bankedIn .svc 15 = false ∧
    bankedIn .usr 13 = false := by decide
theorem witness_BankedReadHazard_mark :
    (next? (exec (.ldm .al ⟨false, true, true, false⟩ 0 0x6000) (withWords (withRegs (ready .svc) [(.r0, 0x9000)])
      [(0x2400, 1), (0x2401, 2)]))).map (fun t => t.userLdm) = some true := by decide

theorem witness_ShifterLslImmediate : (0x8008 : Word) = (ready .usr).readReg 15 8 ∧ (1 : BitVec 5) ≠ 0 ∧ (31 : BitVec 5) ≠ 0 :=
  by decide
theorem witness_ShifterLsrImmediate : (0x8008 : Word) = (ready .usr).readReg 15 8 ∧ (31 : BitVec 5) ≠ 0 := by decide
theorem witness_ShifterAsrImmediate : (3 : Word) = transferState.readReg 2 8 ∧ (31 : BitVec 5) ≠ 0 := by decide
theorem witness_ShifterRorImmediate : (3 : Word) = transferState.readReg 2 8 ∧ (1 : BitVec 5) ≠ 0 := by decide
/-- R3 holds the amount; the amounts 0, 1, 31, 32, 33, 64 and 255 meet the clauses at their edges. -/
def amount (n : Word) : State := withRegs (ready .usr) [(.r2, 0x80000001), (.r3, n)]
theorem witness_ShifterByRegister :
    (0x80000001 : Word) = (amount 0x100).readReg 2 12 ∧ ((amount 0x100).readReg 3 12).toNat % 256 = 0 ∧
    ((amount 0x101).readReg 3 12).toNat % 256 = 1 ∧ ((amount 31).readReg 3 12).toNat % 256 = 31 ∧
    ((amount 32).readReg 3 12).toNat % 256 = 32 ∧ ((amount 33).readReg 3 12).toNat % 256 = 33 ∧
    ((amount 64).readReg 3 12).toNat % 256 = 64 ∧ ((amount 0xFFF).readReg 3 12).toNat % 256 = 255 ∧
    0 < 64 ∧ 64 % 32 = 0 ∧ 255 % 32 ≠ 0 ∧ 33 % 32 ≠ 0 := by decide

theorem witness_LogicalResults :
    phys (ready .svc).cpsr.mode 14 = some .r14_svc ∧ shiftRegisterAllowed (.shReg ⟨14, .ror, 15⟩) = true ∧
    executes .cs (15 :: operandReads (.shReg ⟨14, .ror, 15⟩)) (ready .svc) ∧
    executes .cs (operandReads (.shReg ⟨14, .ror, 15⟩)) (ready .svc) := by decide
/-- Right after an LDM of User-bank registers the registers that are not banked can still be read. -/
theorem witness_LogicalResults_after_ldm :
    phys (hazardous .fiq).cpsr.mode 8 = some .r8_fiq ∧ shiftRegisterAllowed (.shImm ⟨0, .lsl, 7⟩) = true ∧
    executes .al (15 :: operandReads (.shImm ⟨0, .lsl, 7⟩)) (hazardous .fiq) := by decide
theorem witness_AddSubtractResults :
    phys (ready .usr).cpsr.mode 0 = some .r0 ∧ shiftRegisterAllowed (.imm ⟨15, 255⟩) = true ∧
    executes .al (1 :: operandReads (.imm ⟨15, 255⟩)) (ready .usr) := by decide
theorem witness_CarryResults :
    phys (ready .und).cpsr.mode 13 = some .r13_und ∧ shiftRegisterAllowed (.shImm ⟨0, .ror, 15⟩) = true ∧
    executes .vs (1 :: operandReads (.shImm ⟨0, .ror, 15⟩)) (ready .und) ∧
    1 = (if (ready .und).cpsr.flags.c then 1 else 0) ∧ 0 = 1 - 1 := by decide
theorem witness_CompareResults :
    (14 : Reg) ≠ 15#4 ∧ shiftRegisterAllowed (.shReg ⟨0, .asr, 2⟩) = true ∧
    executes .al (1 :: operandReads (.shReg ⟨0, .asr, 2⟩)) (ready .abt) := by decide
theorem witness_ResultToPc :
    isCompare .mov = false ∧ shiftRegisterAllowed (.shImm ⟨0, .lsl, 14⟩) = true ∧
    executes .al (sources .mov 0 (.shImm ⟨0, .lsl, 14⟩)) (ready .usr) := by decide

/-- IRQ mode with `m` in the mode bits of SPSR_irq. -/
def irqWith (m : BitVec 5) : State := { ready .irq with spsrs := { State.reset.spsrs with irq := psr m } }

theorem witness_ExceptionReturn :
    isCompare .sub = false ∧ shiftRegisterAllowed (.imm ⟨0, 4⟩) = true ∧
    executes .al (sources .sub 14 (.imm ⟨0, 4⟩)) (irqWith 0b10000) ∧
    (irqWith 0b10000).spsrs.get (irqWith 0b10000).cpsr.mode = some (psr 0b10000) ∧
    Mode.ofBits (psr 0b10000).m = some .usr := by decide
theorem witness_ExceptionReturn_invalid_mode :
    executes .al (sources .sub 14 (.imm ⟨0, 4⟩)) (irqWith 0b11111) ∧
    (irqWith 0b11111).spsrs.get (irqWith 0b11111).cpsr.mode = some (psr 0b11111) ∧ Mode.ofBits (psr 0b11111).m = none := by
  decide
theorem witness_ExceptionReturn_user :
    executes .al (sources .sub 14 (.imm ⟨0, 4⟩)) (ready .usr) ∧ (ready .usr).cpsr.mode = .usr := by decide
theorem witness_DataProcessingRefusals :
    executes .al (sources .cmn 1 (.shReg ⟨15, .lsl, 2⟩)) (ready .usr) ∧
    shiftRegisterAllowed (.shReg ⟨15, .lsl, 2⟩) = false ∧
    executes .al (sources .cmn 1 (.shReg ⟨14, .lsl, 2⟩)) (ready .usr) ∧
    shiftRegisterAllowed (.shReg ⟨14, .lsl, 2⟩) = true := by decide

theorem witness_MrsReadsPsr_cpsr :
    executes .al [] (ready .usr) ∧ phys (ready .usr).cpsr.mode 14 = some .r14_usr := by decide
theorem witness_MrsReadsPsr_spsr :
    executes .al [] (irqWith 0b10010) ∧ phys (irqWith 0b10010).cpsr.mode 1 = some .r1 ∧
    (irqWith 0b10010).spsrs.get (irqWith 0b10010).cpsr.mode = some (psr 0b10010) := by decide
theorem witness_MrsReadsPsr_refusals :
    executes .al [] (ready .usr) ∧ (ready .usr).cpsr.mode = .usr ∧ executes .al [] (ready .svc) ∧
    (ready .svc).cpsr.mode ≠ .usr := by decide
theorem witness_MsrWritesPsr_user :
    let s := withRegs (ready .usr) [(.r0, 0xF00000D3)]
    executes .al [0] s ∧ phys s.cpsr.mode 0 = some .r0 ∧ s.cpsr.mode = .usr := by decide
theorem witness_MsrWritesPsr_privileged :
    let s := withRegs (ready .svc) [(.r14_svc, 0xF00000DB)]
    executes .al [14] s ∧ phys s.cpsr.mode 14 = some .r14_svc ∧ s.cpsr.mode ≠ .usr ∧
    (s.gpr.get .r14_svc).extractLsb' 0 5 = Mode.bits .und := by decide
theorem witness_MsrWritesPsr_invalid_mode :
    let s := withRegs (ready .svc) [(.r0, 0x14)]
    executes .al [0] s ∧ phys s.cpsr.mode 0 = some .r0 ∧ s.cpsr.mode ≠ .usr ∧
    [Mode.usr, .fiq, .irq, .svc, .abt, .und].all (fun m => (s.gpr.get .r0).extractLsb' 0 5 != m.bits) = true := by decide
theorem witness_MsrWritesPsr_r15 : executes .al [15] (ready .svc) := by decide
theorem witness_MsrWritesFlags :
    executes .al [1] (irqWith 0) ∧ phys (irqWith 0).cpsr.mode 1 = some .r1 ∧
    (irqWith 0).spsrs.get (irqWith 0).cpsr.mode = some (psr 0) ∧ executes .al [] (irqWith 0) ∧
    executes .al [1] (ready .usr) ∧ (ready .usr).cpsr.mode = .usr := by decide

/-- Another bus master stores before each of the next three data accesses (20_memory.md R77). -/
def shared : State :=
  { transferState with others := [[(0x2403, 7)], [(0x2401, 8), (0x2400, 9)], [(0x2402, 10), (0x2400, 11)]] }

/-- LDR R0, [R1, #4]! -/
theorem witness_LdrLoadsWord :
    (ldr .al ⟨true, true, true⟩ 1 0 (.imm 4)).wellFormed = true ∧ executes .al (1 :: (Offset.imm 4).reads) transferState ∧
    (addrOf ⟨true, true, true⟩ 1 (.imm 4) transferState).extractLsb' 0 2 = 0#2 ∧
    0x2401 = (addrOf ⟨true, true, true⟩ 1 (.imm 4) transferState).extractLsb' 2 30 ∧
    transferState.aborted .read 0x2401 = false ∧ transferState.othersStore.mem.word 0x2401 = some 0x22222222 ∧
    phys transferState.cpsr.mode 0 = some .r0 := by decide
/-- LDR PC, [R1, R2, LSL #2] of a word that another bus master stores right before the access. -/
theorem witness_LdrLoadsWord_pc :
    (ldr .al ⟨true, true, false⟩ 1 15 (.reg ⟨2, .lsl, 2⟩)).wellFormed = true ∧
    executes .al (1 :: (Offset.reg ⟨2, .lsl, 2⟩).reads) shared ∧
    (addrOf ⟨true, true, false⟩ 1 (.reg ⟨2, .lsl, 2⟩) shared).extractLsb' 0 2 = 0#2 ∧
    0x2403 = (addrOf ⟨true, true, false⟩ 1 (.reg ⟨2, .lsl, 2⟩) shared).extractLsb' 2 30 ∧
    shared.aborted .read 0x2403 = false ∧ shared.othersStore.mem.word 0x2403 = some 7 := by decide
/-- LDR R0, [R1], #8 and LDR PC, [R1], #8 at the last word of the address space, which nothing has populated. -/
theorem witness_LdrOfUnpopulatedWord :
    let s := withRegs (ready .usr) [(.r1, 0xFFFFFFFC)]
    (ldr .al ⟨false, true, false⟩ 1 0 (.imm 8)).wellFormed = true ∧
    (ldr .al ⟨false, true, false⟩ 1 15 (.imm 8)).wellFormed = true ∧ executes .al (1 :: (Offset.imm 8).reads) s ∧
    (addrOf ⟨false, true, false⟩ 1 (.imm 8) s).extractLsb' 0 2 = 0#2 ∧
    0x3FFFFFFF = (addrOf ⟨false, true, false⟩ 1 (.imm 8) s).extractLsb' 2 30 ∧
    s.aborted .read 0x3FFFFFFF = false ∧ s.othersStore.mem.word 0x3FFFFFFF = none ∧ phys s.cpsr.mode 0 = some .r0 := by decide
/-- STR PC, [R1], #-4 -/
theorem witness_StrStoresWord :
    (str .al ⟨false, false, false⟩ 1 15 (.imm 4)).wellFormed = true ∧
    executes .al (1 :: 15 :: (Offset.imm 4).reads) transferState ∧
    (addrOf ⟨false, false, false⟩ 1 (.imm 4) transferState).extractLsb' 0 2 = 0#2 ∧
    0x2400 = (addrOf ⟨false, false, false⟩ 1 (.imm 4) transferState).extractLsb' 2 30 ∧
    (0x2400 : WordAddr) ≠ transferState.pcBits + 1 ∧ (0x2400 : WordAddr) ≠ transferState.pcBits + 2 ∧
    transferState.aborted .write 0x2400 = false := by decide
/-- LDR R0, [R1, #4]! and STR R0, [R1, #4]!, their access aborted. -/
theorem witness_TransferAborted :
    let s := withAborts transferState [⟨.read, 0x2401⟩, ⟨.write, 0x2401⟩]
    (addrOf ⟨true, true, true⟩ 1 (.imm 4) s).extractLsb' 0 2 = 0#2 ∧
    0x2401 = (addrOf ⟨true, true, true⟩ 1 (.imm 4) s).extractLsb' 2 30 ∧
    (ldr .al ⟨true, true, true⟩ 1 0 (.imm 4)).wellFormed = true ∧ executes .al (1 :: (Offset.imm 4).reads) s ∧
    s.aborted .read 0x2401 = true ∧ (str .al ⟨true, true, true⟩ 1 0 (.imm 4)).wellFormed = true ∧
    executes .al (1 :: 0 :: (Offset.imm 4).reads) s ∧ s.aborted .write 0x2401 = true ∧
    (0x2401 : WordAddr) ≠ s.pcBits + 1 ∧ (0x2401 : WordAddr) ≠ s.pcBits + 2 := by decide
/-- The operand clauses of R191 need only the condition; the address clauses an unaligned R1, and R1 = pc + 4 or pc + 8. -/
theorem witness_TransferRefusals :
    executes .al (1 :: (Offset.reg ⟨0, .lsl, 15⟩).reads) (ready .usr) ∧
    executes .al (1 :: 0 :: (Offset.reg ⟨0, .lsl, 15⟩).reads) (ready .usr) ∧
    (str .al ⟨true, true, false⟩ 1 0 (.imm 0)).wellFormed = true ∧
    (addrOf ⟨true, true, false⟩ 1 (.imm 0) (withRegs (ready .usr) [(.r1, 0x9003)])).extractLsb' 0 2 ≠ 0#2 ∧
    addrOf ⟨true, true, false⟩ 1 (.imm 0) (withRegs (ready .usr) [(.r1, 0x8004)]) = (ready .usr).pc + 4 ∧
    addrOf ⟨true, true, false⟩ 1 (.imm 0) (withRegs (ready .usr) [(.r1, 0x8008)]) = (ready .usr).pc + 8 := by decide
/-- LDR R13, [R1] right after an LDM of User-bank registers: it does not read R13. -/
theorem witness_TransferRefusals_after_ldm :
    executes .al (1 :: (Offset.imm 0).reads) (hazardous .svc) ∧ bankedIn (hazardous .svc).cpsr.mode 13 = true := by decide

/-- LDMIA R13!, of R0, R1 and R15, from 0x9000. -/
theorem witness_LdmLoadsRegisters :
    (Instr.ldm .al ⟨false, true, false, true⟩ 13 0x8003).wellFormed = true ∧ executes .al [13] transferState ∧
    (0x9000 : Word) = transferState.readReg 13 8 ∧ 3 = (regsOf 0x8003).length ∧ (0x9000 : Word).extractLsb' 0 2 = 0#2 ∧
    phys transferState.cpsr.mode 13 = some .r13_usr ∧
    (∀ k, k < 3 → transferState.aborted .read (slot ⟨false, true, false, true⟩ 0x9000 3 k) = false) ∧
    found transferState 0 (slot ⟨false, true, false, true⟩ 0x9000 3 0) = some 0x11111111 ∧
    found transferState 1 (slot ⟨false, true, false, true⟩ 0x9000 3 1) = some 0x22222222 ∧
    found transferState 2 (slot ⟨false, true, false, true⟩ 0x9000 3 2) = some 0x33333333 := by decide
/-- The same while another bus master stores: the second word is not what memory held before the instruction. -/
theorem witness_LdmLoadsRegisters_shared :
    (Instr.ldm .al ⟨false, true, false, true⟩ 13 0x8003).wellFormed = true ∧ executes .al [13] shared ∧
    (0x9000 : Word) = shared.readReg 13 8 ∧
    (∀ k, k < 3 → shared.aborted .read (slot ⟨false, true, false, true⟩ 0x9000 3 k) = false) ∧
    found shared 0 (slot ⟨false, true, false, true⟩ 0x9000 3 0) = some 0x11111111 ∧
    found shared 1 (slot ⟨false, true, false, true⟩ 0x9000 3 1) = some 8 ∧
    found shared 2 (slot ⟨false, true, false, true⟩ 0x9000 3 2) = some 10 := by decide
/-- LDMIA R1, of R0 and R15 with the S bit, in IRQ mode. -/
theorem witness_LdmReturns :
    let s := { transferState with cpsr := (irqWith 0b10001).cpsr, spsrs := (irqWith 0b10001).spsrs }
    (Instr.ldm .al ⟨false, true, true, false⟩ 1 0x8001).wellFormed = true ∧
    (0x8001 : BitVec 16).getLsbD 15 = true ∧ executes .al [1] s ∧ (0x9000 : Word) = s.readReg 1 8 ∧
    2 = (regsOf 0x8001).length ∧ (0x9000 : Word).extractLsb' 0 2 = 0#2 ∧ phys s.cpsr.mode 1 = some .r1 ∧
    (∀ k, k < 2 → s.aborted .read (slot ⟨false, true, true, false⟩ 0x9000 2 k) = false) ∧
    found s 0 (slot ⟨false, true, true, false⟩ 0x9000 2 0) = some 0x11111111 ∧
    found s 1 (slot ⟨false, true, true, false⟩ 0x9000 2 1) = some 0x22222222 ∧
    s.spsrs.get s.cpsr.mode = some (psr 0b10001) ∧ Mode.ofBits (psr 0b10001).m = some .fiq := by decide
/-- The two refusals of the exception return: User mode, and an SPSR whose mode bits are no mode. -/
theorem witness_LdmReturns_refusals :
    executes .al [1] transferState ∧ transferState.cpsr.mode = .usr ∧
    executes .al [1] { transferState with cpsr := (irqWith 0).cpsr, spsrs := (irqWith 0).spsrs } ∧
    Mode.ofBits (psr 0).m = none ∧ found transferState 0 (slot ⟨false, true, true, false⟩ 0x9000 2 0) = some 0x11111111 ∧
    found transferState 1 (slot ⟨false, true, true, false⟩ 0x9000 2 1) = some 0x22222222 := by decide
/-- LDMIA R1, of R8 and R14 with the S bit, in FIQ mode. -/
theorem witness_LdmLoadsUserBank :
    let s := { transferState with cpsr := (ready .fiq).cpsr }
    (0x4100 : BitVec 16).getLsbD 15 = false ∧ (0x4100 : BitVec 16) ≠ 0#16 ∧ (1 : Reg) ≠ 15#4 ∧ executes .al [1] s ∧
    s.cpsr.mode ≠ .usr ∧ (0x9000 : Word) = s.readReg 1 8 ∧ 2 = (regsOf 0x4100).length ∧
    (0x9000 : Word).extractLsb' 0 2 = 0#2 ∧
    (∀ k, k < 2 → s.aborted .read (slot ⟨false, true, true, false⟩ 0x9000 2 k) = false) ∧
    found s 0 (slot ⟨false, true, true, false⟩ 0x9000 2 0) = some 0x11111111 ∧
    found s 1 (slot ⟨false, true, true, false⟩ 0x9000 2 1) = some 0x22222222 := by decide
theorem witness_LdmLoadsUserBank_refusals :
    executes .al [1] (ready .usr) ∧ (ready .usr).cpsr.mode = .usr ∧ executes .al [1] (ready .svc) ∧
    (ready .svc).cpsr.mode ≠ .usr ∧ (0x4100 : BitVec 16).getLsbD (1 : Reg).toNat = false := by decide
/-- LDMIB R1!, of R0 and R2, at the top of the address space: both addresses wrap, and neither word is populated. -/
theorem witness_LdmOfUnpopulatedWords :
    let s := withRegs (ready .usr) [(.r1, 0xFFFFFFFC)]
    (Instr.ldm .al ⟨true, true, false, true⟩ 1 0x0005).wellFormed = true ∧ executes .al [1] s ∧
    (0xFFFFFFFC : Word) = s.readReg 1 8 ∧ 2 = (regsOf 0x0005).length ∧ (0xFFFFFFFC : Word).extractLsb' 0 2 = 0#2 ∧
    phys s.cpsr.mode 1 = some .r1 ∧
    (∀ k, k < 2 → s.aborted .read (slot ⟨true, true, false, true⟩ 0xFFFFFFFC 2 k) = false) ∧
    (∀ k, k < 2 → found s k (slot ⟨true, true, false, true⟩ 0xFFFFFFFC 2 k) = none) ∧
    drawsBefore s (slot ⟨true, true, false, true⟩ 0xFFFFFFFC 2) 2 = 2 := by decide
/-- The same with R15 and the S bit, in a mode whose SPSR holds a mode. -/
theorem witness_LdmOfUnpopulatedWords_return :
    (Instr.ldm .al ⟨true, true, true, true⟩ 1 0x8001).wellFormed = true ∧ executes .al [1] (irqWith 0b10000) ∧
    (irqWith 0b10000).cpsr.mode ≠ .usr ∧ (0x8001 : BitVec 16).getLsbD 15 = true ∧
    (irqWith 0b10000).spsrs.get (irqWith 0b10000).cpsr.mode = some (psr 0b10000) ∧
    Mode.ofBits (psr 0b10000).m = some .usr ∧ (0 : Word) = (irqWith 0b10000).readReg 1 8 ∧
    phys (irqWith 0b10000).cpsr.mode 1 = some .r1 ∧
    (∀ k, k < 2 → (irqWith 0b10000).aborted .read (slot ⟨true, true, true, true⟩ 0 2 k) = false) := by decide
/-- LDMIA R1, of R8 and R14 with the S bit, in FIQ mode, where nothing is populated. -/
theorem witness_LdmOfUnpopulatedWords_user_bank :
    (Instr.ldm .al ⟨false, true, true, false⟩ 1 0x4100).wellFormed = true ∧ (ready .fiq).cpsr.mode ≠ .usr ∧
    executes .al [1] (ready .fiq) ∧ (0x4100 : BitVec 16).getLsbD 15 = false ∧ (0 : Word) = (ready .fiq).readReg 1 8 ∧
    2 = (regsOf 0x4100).length ∧ phys (ready .fiq).cpsr.mode 1 = some .r1 ∧
    (∀ k, k < 2 → (ready .fiq).aborted .read (slot ⟨false, true, true, false⟩ 0 2 k) = false) := by decide
/-- LDMIA R1, of R1, R2 and R15: the third access is aborted (and, for j = 0, the first). -/
theorem witness_LdmAborted :
    let s := withAborts transferState [⟨.read, 0x2402⟩]
    (Instr.ldm .al ⟨false, true, false, false⟩ 1 0x8006).wellFormed = true ∧ executes .al [1] s ∧
    (0x9000 : Word) = s.readReg 1 8 ∧ 3 = (regsOf 0x8006).length ∧ (0x9000 : Word).extractLsb' 0 2 = 0#2 ∧
    phys s.cpsr.mode 1 = some .r1 ∧ 2 < 3 ∧ s.aborted .read (slot ⟨false, true, false, false⟩ 0x9000 3 2) = true ∧
    (∀ k, k < 2 → s.aborted .read (slot ⟨false, true, false, false⟩ 0x9000 3 k) = false) := by decide
/-- LDMDA R1, of R0, R2 and R3: the word of the first access is not populated, the third access is aborted. -/
theorem witness_LdmAborted_unpopulated :
    let s := withAborts transferState [⟨.read, 0x2400⟩]
    (Instr.ldm .al ⟨false, false, false, false⟩ 1 0x000D).wellFormed = true ∧ executes .al [1] s ∧
    (0x9000 : Word) = s.readReg 1 8 ∧ 3 = (regsOf 0x000D).length ∧ 2 < 3 ∧
    s.aborted .read (slot ⟨false, false, false, false⟩ 0x9000 3 2) = true ∧
    (∀ k, k < 2 → s.aborted .read (slot ⟨false, false, false, false⟩ 0x9000 3 k) = false) ∧
    found s 0 (slot ⟨false, false, false, false⟩ 0x9000 3 0) = none ∧
    found s 1 (slot ⟨false, false, false, false⟩ 0x9000 3 1) = some 0xAAAAAAAA := by decide
theorem witness_LdmAborted_first :
    let s := withAborts transferState [⟨.read, 0x2400⟩]
    (Instr.ldm .al ⟨false, true, false, true⟩ 13 0x8006).wellFormed = true ∧ executes .al [13] s ∧
    (0x9000 : Word) = s.readReg 13 8 ∧ 3 = (regsOf 0x8006).length ∧ phys s.cpsr.mode 13 = some .r13_usr ∧ 0 < 3 ∧
    s.aborted .read (slot ⟨false, true, false, true⟩ 0x9000 3 0) = true := by decide
/-- STMIA R1!, of R1, R2 and R15. -/
theorem witness_StmStoresRegisters :
    (Instr.stm .al ⟨false, true, false, true⟩ 1 0x8006).wellFormed = true ∧
    executes .al (1 :: regsOf 0x8006) transferState ∧ (0x9000 : Word) = transferState.readReg 1 8 ∧
    3 = (regsOf 0x8006).length ∧ (0x9000 : Word).extractLsb' 0 2 = 0#2 ∧
    (∀ k, k < 3 → slot ⟨false, true, false, true⟩ 0x9000 3 k ≠ transferState.pcBits + 1 ∧
      slot ⟨false, true, false, true⟩ 0x9000 3 k ≠ transferState.pcBits + 2 ∧
      transferState.aborted .write (slot ⟨false, true, false, true⟩ 0x9000 3 k) = false) := by decide
/-- The clauses on what is stored later, with another bus master: the word of access 0 is stored over, that of access 1 is
not (what it stores to 0x2401 comes before that access). -/
theorem witness_StmStoresRegisters_shared :
    executes .al (1 :: regsOf 0x8006) shared ∧ (regsOf 0x8006)[0]? = some 1 ∧ (regsOf 0x8006)[1]? = some 2 ∧
    storedLater shared 3 0 (slot ⟨false, true, false, true⟩ 0x9000 3 0) ∧
    ¬ storedLater shared 3 1 (slot ⟨false, true, false, true⟩ 0x9000 3 1) := by
  refine ⟨by decide, by decide, by decide, ⟨2, _, (0x2400, 11), by decide, by decide, rfl, by decide, by decide⟩, ?_⟩
  rintro ⟨j, ws, x, hj, hn, hw, hx, he⟩
  obtain rfl : j = 2 := by omega
  obtain rfl : [(0x2402, 10), (0x2400, 11)] = ws := Option.some.inj hw
  rcases List.mem_cons.mp hx with rfl | hx
  · revert he
    decide
  · obtain rfl := List.mem_singleton.mp hx
    revert he
    decide
/-- STMIA R0, of R13 and R14 with the S bit, in Supervisor mode. -/
theorem witness_StmStoresRegisters_user_bank :
    let s := withRegs (ready .svc) [(.r0, 0x9000)]
    (Instr.stm .al ⟨false, true, true, false⟩ 0 0x6000).wellFormed = true ∧ s.cpsr.mode ≠ .usr ∧
    executes .al (0 :: regsOf 0x6000) s ∧ (0x9000 : Word) = s.readReg 0 8 ∧ 2 = (regsOf 0x6000).length ∧
    (∀ k, k < 2 → slot ⟨false, true, true, false⟩ 0x9000 2 k ≠ s.pcBits + 1 ∧
      slot ⟨false, true, true, false⟩ 0x9000 2 k ≠ s.pcBits + 2 ∧
      s.aborted .write (slot ⟨false, true, true, false⟩ 0x9000 2 k) = false) := by decide
theorem witness_StmAborted :
    let s := withAborts transferState [⟨.write, 0x2401⟩]
    (Instr.stm .al ⟨false, true, false, true⟩ 13 0x0007).wellFormed = true ∧ executes .al (13 :: regsOf 0x0007) s ∧
    (0x9000 : Word) = s.readReg 13 8 ∧ 3 = (regsOf 0x0007).length ∧ (0x9000 : Word).extractLsb' 0 2 = 0#2 ∧ 1 < 3 ∧
    s.aborted .write (slot ⟨false, true, false, true⟩ 0x9000 3 1) = true ∧
    (∀ k, k < 3 → slot ⟨false, true, false, true⟩ 0x9000 3 k ≠ s.pcBits + 1 ∧
      slot ⟨false, true, false, true⟩ 0x9000 3 k ≠ s.pcBits + 2) := by decide
/-- The operand clauses of R207: the condition holds, in User mode and in Supervisor mode. -/
theorem witness_BlockRefusals :
    executes .al [1] (ready .usr) ∧ executes .al [15] (ready .usr) ∧ executes .al [1] (ready .svc) ∧
    (ready .svc).cpsr.mode ≠ .usr ∧ (0x0003 : BitVec 16).getLsbD (1 : Reg).toNat = true ∧
    (0x8001 : BitVec 16).getLsbD 15 = true ∧ (0x8001 : BitVec 16).getLsbD (1 : Reg).toNat = false := by decide
theorem witness_BlockRefusals_stm :
    executes .al (1 :: regsOf 0) (ready .usr) ∧ executes .al (15 :: regsOf 0x0003) (ready .usr) ∧
    executes .al (1 :: regsOf 0x0003) (ready .usr) ∧ (0 : Reg).toNat < (1 : Reg).toNat ∧
    (0x0003 : BitVec 16).getLsbD (0 : Reg).toNat = true ∧ executes .al (1 :: regsOf 0x8001) (ready .svc) := by decide
/-- STM with S = 1 and W = 1 whose base is the lowest register of its list, and an LDM of R13 right after an LDM of
User-bank registers. -/
theorem witness_BlockRefusals_lowest :
    executes .al (1 :: regsOf 0x4002) (ready .svc) ∧ (0x4002 : BitVec 16).getLsbD (1 : Reg).toNat = true ∧
    (∀ k : Reg, k.toNat < (1 : Reg).toNat → (0x4002 : BitVec 16).getLsbD k.toNat = false) ∧
    executes .al [1] (hazardous .svc) ∧ bankedIn (hazardous .svc).cpsr.mode 13 = true := by decide
/-- The address clauses of R207: an unaligned base, and a store to pc + 8, the last word of the list. -/
theorem witness_BlockRefusals_addresses :
    let s := withRegs (ready .usr) [(.r1, 0x8004)]
    (Instr.ldm .al ⟨false, true, false, false⟩ 1 0x0005).wellFormed = true ∧
    (Instr.stm .al ⟨true, true, false, false⟩ 1 0x0001).wellFormed = true ∧ executes .al (1 :: regsOf 0x0001) s ∧
    (0x8004 : Word) = s.readReg 1 8 ∧ 1 = (regsOf 0x0001).length ∧ (0x8004 : Word).extractLsb' 0 2 = 0#2 ∧
    slot ⟨true, true, false, false⟩ 0x8004 1 0 = s.pcBits + 2 ∧
    ((withRegs (ready .usr) [(.r1, 0x8002)]).readReg 1 8).extractLsb' 0 2 ≠ 0#2 := by decide

theorem witness_BranchTarget : conditionPassed .cs (ready .usr).cpsr.flags = true := by decide
theorem witness_BranchWithLink :
    conditionPassed .al (ready .fiq).cpsr.flags = true ∧ phys (ready .fiq).cpsr.mode 14 = some .r14_fiq := by decide
theorem witness_SwiEntry : conditionPassed .lt (ready .svc).cpsr.flags = true := by decide
theorem witness_UndefinedTraps : conditionPassed .le (ready .und).cpsr.flags = true := by decide

/-- A state whose next instruction is STR R0, [R1, #4]! -/
def strNext : State := withWords transferState [(0x2000, 0xE5A10004)]

theorem witness_StepKeepsMemoryCanonical : strNext.mem.wf = true ∧ (next? (step strNext)).isSome = true := by decide
theorem witness_OnlyStoresChangeMemory :
    isStore (.ldrImm .al ⟨true, true, false⟩ 1 0 0) = false ∧ transferState.others = [] ∧
    (next? (exec (.ldrImm .al ⟨true, true, false⟩ 1 0 0) transferState)).isSome = true ∧
    1 = (if conditionPassed (Instr.ldrImm .al ⟨true, true, false⟩ 1 0 0).cond shared.cpsr.flags
      then accesses (.ldrImm .al ⟨true, true, false⟩ 1 0 0) else 0) ∧
    (next? (exec (.ldrImm .al ⟨true, true, false⟩ 1 0 0) shared)).map (fun t => t.mem.word 0x2403) = some (some 7) := by
  decide
theorem witness_UserModeKeepsControlBits :
    strNext.cpsr.mode = .usr ∧ (next? (step strNext)).isSome = true := by decide
/-- The same with an exception entry. -/
theorem witness_UserModeKeepsControlBits_swi :
    let s := withWords (ready .usr) [(0x2000, 0xEF000000)]
    s.cpsr.mode = .usr ∧ (next? (step s)).map (fun t => t.cpsr.mode) = some .svc := by decide
theorem witness_OtherBanksKeepTheirValues :
    (next? (exec (.swi .al 0) (ready .usr))).isSome = true ∧
    (List.range 16).all (fun n => phys (ready .usr).cpsr.mode (BitVec.ofNat 4 n) != some .r14_svc) = true := by decide
theorem witness_SpsrChangesOnlyByEntryOrMsr :
    (next? (exec (.msrFlgImm .al true ⟨2, 4⟩) (irqWith 0))).map (fun t => t.spsrs.irq == (irqWith 0).spsrs.irq) =
      some false := by decide

end Sys2Proof.Tests
end

section
/-! PROOFS. Family 10_state.md: the bank map, the state at reset, and what every step keeps. The invariants rest on one
inversion of the whole instruction set, `exec_answers`: an instruction writes registers that it may write, and then
completes, enters an exception, writes the CPSR from a privileged mode, or writes the SPSR of its own mode. -/

namespace Sys2Proof.Machine

open Sys2Proof.Claims

/-! ### What an instruction's own writes keep -/

/-- From `s` to `u` only general registers in `W` changed, no SPSR and no control bit of the CPSR, and memory stayed
canonical. PC, flags, the mark of R290 and the model's own fields are free. -/
structure Keeps (W : PhysReg → Prop) (s u : State) : Prop where
  gpr : ∀ p, ¬ W p → u.gpr.get p = s.gpr.get p
  spsrs : u.spsrs = s.spsrs
  mode : u.cpsr.mode = s.cpsr.mode
  i : u.cpsr.i = s.cpsr.i
  f : u.cpsr.f = s.cpsr.f
  mem : s.mem.wf = true → u.mem.wf = true

section
variable {W : PhysReg → Prop} {s u : State}

theorem Keeps.refl (W : PhysReg → Prop) (s : State) : Keeps W s s := ⟨fun _ _ => rfl, rfl, rfl, rfl, rfl, id⟩

theorem Keeps.setPc (k : Keeps W s u) (v : Word) : Keeps W s (u.setPc v) := { k with }
theorem Keeps.advance (k : Keeps W s u) : Keeps W s u.advance := { k with }
theorem Keeps.setFlags (k : Keeps W s u) (f : Flags) : Keeps W s (u.setFlags f) := { k with }
theorem Keeps.setUserLdm (k : Keeps W s u) (b : Bool) : Keeps W s (u.setUserLdm b) := { k with }
theorem Keeps.useDraws (k : Keeps W s u) (n : Nat) : Keeps W s (u.useDraws n) := { k with }

theorem Keeps.setMem (k : Keeps W s u) (m : Memory) (hm : s.mem.wf = true → m.wf = true) : Keeps W s (u.setMem m) :=
  { k with mem := hm }

theorem Keeps.othersStore (k : Keeps W s u) : Keeps W s u.othersStore :=
  { k with mem := fun h => wf_setWords _ (k.mem h) }

theorem Keeps.othersStores (k : Keeps W s u) (n : Nat) : Keeps W s (u.othersStores n) := by
  induction n with
  | zero => exact k
  | succ n ih => rw [othersStores_succ]; exact ih.othersStore

theorem Keeps.writeBank (k : Keeps W s u) {m : Mode} {n : Reg} (v : Word) (hW : ∀ p, phys m n = some p → W p) :
    Keeps W s (u.writeBank m n v) where
  gpr p hp := by rw [writeBank_get, if_neg fun h => hp (hW p h)]; exact k.gpr p hp
  spsrs := by rw [writeBank_spsrs]; exact k.spsrs
  mode := by rw [writeBank_cpsr]; exact k.mode
  i := by rw [writeBank_cpsr]; exact k.i
  f := by rw [writeBank_cpsr]; exact k.f
  mem := by rw [writeBank_mem]; exact k.mem

theorem Keeps.writeBanks (k : Keeps W s u) {m : Mode} (l : List (Reg × Word))
    (hW : ∀ x ∈ l, ∀ p, phys m x.1 = some p → W p) : Keeps W s (u.writeBanks m l) := by
  induction l generalizing u with
  | nil => exact k
  | cons x l ih =>
    exact ih (k.writeBank x.2 (hW x List.mem_cons_self)) fun y hy => hW y (List.mem_cons_of_mem x hy)

/-- A write by number in the current mode, where `W` holds every register that mode sees. -/
theorem Keeps.writeReg (k : Keeps W s u) (hW : ∀ n p, phys s.cpsr.mode n = some p → W p) (n : Reg) (v : Word) :
    Keeps W s (u.writeReg n v) :=
  k.writeBank v fun p hp => hW n p (k.mode ▸ hp)

theorem Keeps.transferWriteback (k : Keeps W s u) (hW : ∀ n p, phys s.cpsr.mode n = some p → W p) (ix : Index)
    (rn : Reg) (v : Word) : Keeps W s (u.transferWriteback ix rn v) := by
  unfold State.transferWriteback
  split
  · exact k.writeReg hW rn v
  · exact k

theorem Keeps.blockWriteback (k : Keeps W s u) (hW : ∀ n p, phys s.cpsr.mode n = some p → W p) (bm : BlockMode)
    (rn : Reg) (v : Word) : Keeps W s (u.blockWriteback bm rn v) := by
  unfold State.blockWriteback
  split
  · exact k.writeReg hW rn v
  · exact k

end

@[simp] theorem transferWriteback_cpsr (s : State) (ix : Index) (rn : Reg) (v : Word) :
    (s.transferWriteback ix rn v).cpsr = s.cpsr := by
  unfold State.transferWriteback; split <;> simp

@[simp] theorem blockWriteback_cpsr (s : State) (bm : BlockMode) (rn : Reg) (v : Word) :
    (s.blockWriteback bm rn v).cpsr = s.cpsr := by
  unfold State.blockWriteback; split <;> simp

/-! ### The shapes of the next state -/

/-- The next states an instruction can answer, when it may write the general registers in `W` and `P` says that it is
an MSR to the SPSR. -/
inductive Answers (W : PhysReg → Prop) (P : Prop) (s t : State) : Prop where
  /-- It completes; of the CPSR at most the flags changed. -/
  | completed (k : Keeps W s t)
  /-- It ends in an exception entry, which finds the CPSR as it was. -/
  | entered (e : Exc) (u : State) (k : Keeps W s u) (hc : u.cpsr = s.cpsr) (ht : t = takeException e u)
  /-- It writes the whole CPSR, from a privileged mode: MSR, or a return from an exception. -/
  | wroteCpsr (u : State) (c : Cpsr) (k : Keeps W s u) (hm : s.cpsr.mode ≠ .usr) (ht : t = u.setCpsr c)
  /-- It is an MSR to the SPSR of its own mode. -/
  | wroteSpsr (u : State) (q : Psr) (k : Keeps W s u) (hm : s.cpsr.mode ≠ .usr) (hp : P)
      (ht : t = u.setSpsr s.cpsr.mode q)

section
variable {W : PhysReg → Prop} {P : Prop} {s u t : State}

/-- The mark of R290, which every instruction clears first, plays no part in the shapes. -/
theorem Answers.of_setUserLdm {b : Bool} (h : Answers W P (s.setUserLdm b) t) : Answers W P s t := by
  have keeps {v : State} (k : Keeps W (s.setUserLdm b) v) : Keeps W s v := { k with }
  cases h with
  | completed k => exact .completed (keeps k)
  | entered e u k hc ht => exact .entered e u (keeps k) hc ht
  | wroteCpsr u c k hm ht => exact .wroteCpsr u c (keeps k) hm ht
  | wroteSpsr u q k hm hp ht => exact .wroteSpsr u q (keeps k) hm hp ht

/-- Under a condition: an instruction that is not executed completes. -/
theorem conditional_answers {c : Cond} {reads : List Reg} {effect : State → Result}
    (h : conditional c reads effect s = .next t)
    (he : effect (s.setUserLdm false) = .next t → Answers W P (s.setUserLdm false) t) : Answers W P s t := by
  rcases conditional_next h with ⟨-, rfl⟩ | ⟨-, -, h⟩
  · exact .completed ((Keeps.refl W s).setUserLdm false).advance
  · exact (he h).of_setUserLdm

/-- A mode that has an SPSR is privileged (10_state.md R31). -/
theorem ne_usr_of_spsrs_get {q : Spsrs} {m : Mode} {p : Psr} (h : q.get m = some p) : m ≠ .usr := fun e => by
  rw [(spsrs_get_eq_none q m).mpr e] at h
  cases h

theorem returnFromException_answers {target : Word} (k : Keeps W s u) (h : returnFromException target u = .next t) :
    Answers W P s t := by
  obtain ⟨p, m, hp, -, rfl⟩ := returnFromException_next h
  exact .wroteCpsr (u.setPc target) _ (k.setPc target) (k.mode ▸ ne_usr_of_spsrs_get hp) rfl

theorem setPsrFlags_answers {p : Bool} {f : Flags} (k : Keeps W s u) (hP : p = true → P)
    (h : u.setPsrFlags p f = .next t) : Answers W P s t := by
  unfold State.setPsrFlags at h
  split at h
  next hp =>
    split at h
    · cases h
    next q hq =>
      cases h
      have hm := ne_usr_of_spsrs_get hq
      rw [k.mode] at hm ⊢
      exact .wroteSpsr u _ k hm (hP hp) rfl
  next =>
    cases h
    exact .completed (k.setFlags f)

theorem setWholePsr_answers {p : Bool} {v : Word} (k : Keeps W s u) (hP : p = true → P)
    (h : u.setWholePsr p v = .next t) : Answers W P s t := by
  unfold State.setWholePsr at h
  split at h
  next hp =>
    split at h
    · cases h
    next q hq =>
      cases h
      have hm := ne_usr_of_spsrs_get hq
      rw [k.mode] at hm ⊢
      exact .wroteSpsr u _ k hm (hP hp) rfl
  next =>
    split at h
    · cases h
      exact .completed (k.setFlags _)
    next hm =>
      split at h
      · cases h
      · cases h
        exact .wroteCpsr u _ k (k.mode ▸ hm) rfl

/-! ### Each effect has one of the shapes -/

theorem dpEffect_answers {op : DpOp} {sb : Bool} {rn rd : Reg} {o2 : Operand2}
    (hW : ∀ n p, phys s.cpsr.mode n = some p → W p) (h : dpEffect op sb rn rd o2 s = .next t) : Answers W P s t := by
  have k := Keeps.refl W s
  rcases dpEffect_next h with rfl | hret | rfl | ⟨-, rfl⟩ | ⟨-, rfl⟩
  · exact .completed (k.setFlags _).advance
  · exact returnFromException_answers k hret
  · exact .completed (k.setPc _)
  · exact .completed ((k.writeReg hW _ _).setFlags _).advance
  · exact .completed (k.writeReg hW _ _).advance

theorem loadEffect_answers {ix : Index} {rn rd : Reg} {off : Offset}
    (hW : ∀ n p, phys s.cpsr.mode n = some p → W p) (h : loadEffect ix rn rd off s = .next t) : Answers W P s t := by
  have k := (Keeps.refl W s).othersStore
  obtain ⟨-, a, -, ⟨-, ht⟩ | ⟨v, d, rfl⟩⟩ := loadEffect_next h
  · exact .entered .dataAbort _ (k.transferWriteback hW ix rn _) (by simp) ht
  · exact .completed (((k.useDraws d).advance.transferWriteback hW ix rn _).writeReg hW rd v)

theorem storeEffect_answers {ix : Index} {rn rd : Reg} {off : Offset}
    (hW : ∀ n p, phys s.cpsr.mode n = some p → W p) (h : storeEffect ix rn rd off s = .next t) : Answers W P s t := by
  have k := (Keeps.refl W s).othersStore
  obtain ⟨-, a, -, -, ⟨-, ht⟩ | ⟨-, rfl⟩⟩ := storeEffect_next h
  · exact .entered .dataAbort _ (k.transferWriteback hW ix rn _) (by simp) ht
  · have kw := k.setMem _ fun hm => wf_setWord a (s.readReg rd Config.pcStoreOffset) (k.mem hm)
    exact .completed (kw.transferWriteback hW ix rn _).advance

theorem stmEffect_answers {bm : BlockMode} {rn : Reg} {list : BitVec 16}
    (hW : ∀ n p, phys s.cpsr.mode n = some p → W p) (h : stmEffect bm rn list s = .next t) : Answers W P s t := by
  obtain ⟨-, m, ⟨l, rfl⟩, ht⟩ := stmEffect_next h
  have k := ((Keeps.refl W s).othersStores (regsOf list).length).setMem _ (wf_setWords l)
  rcases ht with ht | rfl
  · exact .entered .dataAbort _ (k.blockWriteback hW bm rn _) (by simp) ht
  · exact .completed (k.blockWriteback hW bm rn _).advance

/-- LDM writes registers of the current mode and, in the User-bank form, the User-bank registers of its list (R204,
R206). -/
theorem ldmEffect_answers {bm : BlockMode} {rn : Reg} {list : BitVec 16}
    (hW : ∀ n p, phys s.cpsr.mode n = some p → W p)
    (hU : ldmForm bm list = .userBank → ∀ n p, list.getLsbD n.toNat = true → phys .usr n = some p → W p)
    (h : ldmEffect bm rn list s = .next t) : Answers W P s t := by
  obtain ⟨-, ws, d, h⟩ := ldmEffect_next h
  have k := ((Keeps.refl W s).othersStores (regsOf list).length).useDraws d
  have inBank : ∀ x ∈ (regsOf list).zip ws, ∀ p, phys s.cpsr.mode x.1 = some p → W p := fun x _ => hW x.1
  have inUser (hf : ldmForm bm list = .userBank) : ∀ x ∈ (regsOf list).zip ws, ∀ p, phys .usr x.1 = some p → W p :=
    fun x hx p => hU hf x.1 p ((mem_regsOf list x.1).mp (List.of_mem_zip hx).1)
  rcases h with h | ⟨-, h⟩
  · cases h
    refine .entered .dataAbort _ ((k.writeBanks _ ?_).writeReg hW rn _) (by simp) rfl
    cases hf : ldmForm bm list with
    | plain => exact inBank
    | excReturn => exact inBank
    | userBank => exact inUser hf
  · cases hf : ldmForm bm list with
    | plain =>
      rw [hf] at h
      cases h
      exact .completed ((k.advance.writeBanks _ (by simpa using inBank)).blockWriteback hW bm rn _)
    | excReturn =>
      rw [hf] at h
      exact returnFromException_answers ((k.writeBanks _ (by simpa using inBank)).blockWriteback hW bm rn _) h
    | userBank =>
      rw [hf] at h
      cases h
      exact .completed ((k.advance.writeBanks _ (inUser hf)).setUserLdm true)

theorem takeException_answers {e : Exc} (h : Host.Outcome.next (takeException e s) = (.next t : Result)) :
    Answers W P s t := by
  cases h
  exact .entered e s (Keeps.refl W s) rfl rfl

theorem execSwi_answers {c : Cond} {comment : BitVec 24} (h : execSwi c comment s = .next t) : Answers W P s t :=
  conditional_answers h takeException_answers

theorem execUndef_answers {c : Cond} {hi : BitVec 20} {lo : BitVec 4} (h : execUndef c hi lo s = .next t) :
    Answers W P s t :=
  conditional_answers h takeException_answers

theorem execB_answers {c : Cond} {off : BitVec 24} (h : execB c off s = .next t) : Answers W P s t := by
  refine conditional_answers h fun h => ?_
  cases h
  exact .completed ((Keeps.refl W _).setPc _)

theorem execBl_answers {c : Cond} {off : BitVec 24} (hW : ∀ n p, phys s.cpsr.mode n = some p → W p)
    (h : execBl c off s = .next t) : Answers W P s t := by
  refine conditional_answers h fun h => ?_
  cases h
  exact .completed (((Keeps.refl W (s.setUserLdm false)).writeReg hW 14 _).setPc _)

theorem execMrs_answers {c : Cond} {p : Bool} {rd : Reg} (hW : ∀ n p, phys s.cpsr.mode n = some p → W p)
    (h : execMrs c p rd s = .next t) : Answers W P s t := by
  refine conditional_answers h fun h => ?_
  split at h
  · cases h
  · split at h
    · cases h
    · cases h
      exact .completed (((Keeps.refl W (s.setUserLdm false)).writeReg hW rd _).useDraws 1).advance

theorem execMsrAll_answers {c : Cond} {p : Bool} {rm : Reg} (hP : p = true → P) (h : execMsrAll c p rm s = .next t) :
    Answers W P s t := by
  refine conditional_answers h fun h => ?_
  split at h
  · cases h
  · exact setWholePsr_answers (Keeps.refl W _).advance hP h

theorem execMsrFlgReg_answers {c : Cond} {p : Bool} {rm : Reg} (hP : p = true → P)
    (h : execMsrFlgReg c p rm s = .next t) : Answers W P s t := by
  refine conditional_answers h fun h => ?_
  split at h
  · cases h
  · exact setPsrFlags_answers (Keeps.refl W _).advance hP h

theorem execMsrFlgImm_answers {c : Cond} {p : Bool} {o : ImmOp} (hP : p = true → P)
    (h : execMsrFlgImm c p o s = .next t) : Answers W P s t :=
  conditional_answers h (setPsrFlags_answers (Keeps.refl W _).advance hP)

end

/-! ### Every instruction has one of the shapes -/

/-- An LDM of the User-bank form (44_block_data_transfer.md R204) loads the User-bank register `p`. -/
def loadsUserBank (i : Instr) (p : PhysReg) : Prop :=
  ∃ c bm rn list, i = .ldm c bm rn list ∧ bm.s = true ∧ list.getLsbD 15 = false ∧
    ∃ n : Reg, list.getLsbD n.toNat = true ∧ phys .usr n = some p

/-- The general registers that `i` may write in mode `m` when it enters no exception. -/
def mayWrite (i : Instr) (m : Mode) (p : PhysReg) : Prop := (∃ n, phys m n = some p) ∨ loadsUserBank i p

/-- The instruction is an MSR to the SPSR (42_psr_transfer.md R181 to R183). -/
def isSpsrWrite (i : Instr) : Prop :=
  (∃ c rm, i = .msrAll c true rm) ∨ (∃ c rm, i = .msrFlgReg c true rm) ∨ ∃ c o, i = .msrFlgImm c true o

theorem ldmForm_eq_userBank {bm : BlockMode} {list : BitVec 16} :
    ldmForm bm list = .userBank ↔ bm.s = true ∧ list.getLsbD 15 = false := by
  unfold ldmForm
  cases bm.s <;> cases list.getLsbD 15 <;> simp

/-- Every instruction that answers a next state does so in one of the four shapes. -/
theorem exec_answers {i : Instr} {s t : State} (h : exec i s = .next t) :
    Answers (mayWrite i s.cpsr.mode) (isSpsrWrite i) s t := by
  have hW : ∀ n p, phys s.cpsr.mode n = some p → mayWrite i s.cpsr.mode p := fun n p hp => .inl ⟨n, hp⟩
  cases i using instr_cases with
  | dp op c sb rn rd o2 =>
    rw [exec_dp] at h
    exact conditional_answers h (dpEffect_answers hW)
  | mrs c p rd => exact execMrs_answers hW h
  | msrAll c p rm => exact execMsrAll_answers (fun hp => .inl ⟨c, rm, hp ▸ rfl⟩) h
  | msrFlgReg c p rm => exact execMsrFlgReg_answers (fun hp => .inr (.inl ⟨c, rm, hp ▸ rfl⟩)) h
  | msrFlgImm c p o => exact execMsrFlgImm_answers (fun hp => .inr (.inr ⟨c, o, hp ▸ rfl⟩)) h
  | ldrImm c ix rn rd v => exact conditional_answers h (loadEffect_answers hW)
  | ldrReg c ix rn rd o => exact conditional_answers h (loadEffect_answers hW)
  | strImm c ix rn rd v => exact conditional_answers h (storeEffect_answers hW)
  | strReg c ix rn rd o => exact conditional_answers h (storeEffect_answers hW)
  | ldm c bm rn list =>
    refine conditional_answers h (ldmEffect_answers hW fun hf n p hn hp => .inr ?_)
    obtain ⟨hs, h15⟩ := ldmForm_eq_userBank.mp hf
    exact ⟨c, bm, rn, list, rfl, hs, h15, n, hn, hp⟩
  | stm c bm rn list => exact conditional_answers h (stmEffect_answers hW)
  | b c off => exact execB_answers h
  | bl c off => exact execBl_answers hW h
  | swi c comment => exact execSwi_answers (comment := comment) h
  | undef c hi lo => exact execUndef_answers (hi := hi) (lo := lo) h
  | cdp c opc crn crd cp info crm => exact conditional_answers h takeException_answers
  | ldc c ix rn crd cp off => exact conditional_answers h takeException_answers
  | stc c ix rn crd cp off => exact conditional_answers h takeException_answers
  | mrc c opc crn rd cp info crm => exact conditional_answers h takeException_answers
  | mcr c opc crn rd cp info crm => exact conditional_answers h takeException_answers

/-! ### A step -/

@[simp] theorem sample_cpsr (s : State) : (sample s).cpsr = s.cpsr := by
  unfold sample; split <;> rfl

/-- What other bus masters store at a boundary keeps memory canonical. -/
theorem wf_sample {s : State} (h : s.mem.wf = true) : (sample s).mem.wf = true := by
  unfold sample
  split
  · exact h
  · exact wf_setWords _ h

/-- Everything a step can do at the state the boundary leaves (60_exceptions.md R221): a reset, an exception entry, or
an instruction. -/
theorem step_next {s t : State} (h : step s = .next t) :
    (resetSeen s = true ∧ t = takeReset (sample s)) ∨ (∃ e, t = takeException e (sample s)) ∨
      ∃ i, exec i (sample s) = .next t := by
  unfold step at h
  split at h
  next hr => cases h; exact .inl ⟨hr, rfl⟩
  next =>
    unfold stepAtBoundary at h
    split at h
    · cases h; exact .inr (.inl ⟨.fiq, rfl⟩)
    · split at h
      · cases h; exact .inr (.inl ⟨.irq, rfl⟩)
      · split at h
        · cases h; exact .inr (.inl ⟨.prefetchAbort, rfl⟩)
        · cases h
        · unfold runWord at h
          split at h
          · cases h
          next i _ => exact .inr (.inr ⟨i, h⟩)

/-! ### The canonical form of memory -/

theorem Answers.wf_mem {W : PhysReg → Prop} {P : Prop} {s t : State} (h : Answers W P s t) (hs : s.mem.wf = true) :
    t.mem.wf = true := by
  cases h with
  | completed k => exact k.mem hs
  | entered e u k hc ht => subst ht; exact k.mem hs
  | wroteCpsr u c k hm ht => subst ht; exact k.mem hs
  | wroteSpsr u q k hm hp ht => subst ht; exact k.mem hs

/-- Settles O54: a reset and an exception entry leave memory alone, and each of the four shapes keeps it canonical. -/
theorem stepKeepsMemoryCanonical : Obligations.StepKeepsMemoryCanonical := by
  intro s t hs h
  have hb := wf_sample hs
  rcases step_next h with ⟨-, rfl⟩ | ⟨e, rfl⟩ | ⟨i, hi⟩
  · exact hb
  · exact hb
  · exact (exec_answers hi).wf_mem hb

/-! ### The control bits in User mode -/

/-- No exception enters User mode (60_exceptions.md R222). -/
theorem exc_mode_ne_usr (e : Exc) : e.mode ≠ .usr := by
  cases e <;> decide

/-- Among the exceptions that save a return address FIQ alone sets F (60_exceptions.md R222). -/
theorem exc_setsF (e : Exc) : e.setsF = decide (e = .fiq) := by
  cases e <;> rfl

/-- The SPSR of a mode after an exception entry: the CPSR before it in the mode entered, else unchanged. -/
theorem takeException_spsr (e : Exc) (s : State) (m : Mode) : (takeException e s).spsrs.get m =
    if m = e.mode then some (saved s.cpsr) else s.spsrs.get m :=
  spsrs_get_set s.spsrs e.mode m _ (exc_mode_ne_usr e)

/-- `t` is in the mode of exception `e`, at its vector, with I set, F set only by FIQ, and the CPSR `c` in the SPSR of
that mode (60_exceptions.md R230). -/
def enteredWith (e : Exc) (c : Cpsr) (t : State) : Prop :=
  t.cpsr.mode = e.mode ∧ t.pc = e.vector ∧ t.cpsr.i = true ∧ t.cpsr.f = (c.f || decide (e = .fiq)) ∧
    t.spsrs.get e.mode = some (saved c)

theorem takeException_enteredWith (e : Exc) (s : State) : enteredWith e s.cpsr (takeException e s) :=
  ⟨rfl, takeException_pc e s, rfl, by rw [takeException_cpsr, exc_setsF], by rw [takeException_spsr, if_pos rfl]⟩

/-- From User mode only two of the four shapes are left. -/
theorem Answers.of_usr {W : PhysReg → Prop} {P : Prop} {s t : State} (h : Answers W P s t) (hs : s.cpsr.mode = .usr) :
    Keeps W s t ∨ ∃ e, enteredWith e s.cpsr t := by
  cases h with
  | completed k => exact .inl k
  | entered e u k hc ht =>
    subst ht
    exact .inr ⟨e, hc ▸ takeException_enteredWith e u⟩
  | wroteCpsr u c k hm ht => exact absurd hs hm
  | wroteSpsr u q k hm hp ht => exact absurd hs hm

/-- Reset forces M, I, F and the PC (70_reset_and_hazards.md R281). -/
theorem takeReset_control (s : State) : (takeReset s).cpsr.mode = .svc ∧ (takeReset s).cpsr.i = true ∧
    (takeReset s).cpsr.f = true ∧ (takeReset s).pc = 0#32 := by
  refine ⟨rfl, rfl, rfl, ?_⟩
  change (0#30 ++ 0#2 : Word) = 0#32
  decide

/-- Settles O57: an instruction in User mode that enters no exception keeps the control bits. -/
theorem userModeKeepsControlBits : Obligations.UserModeKeepsControlBits := by
  intro s t hs h
  have hc := sample_cpsr s
  rcases step_next h with ⟨hr, rfl⟩ | ⟨e, rfl⟩ | ⟨i, hi⟩
  · exact .inr (.inr ⟨hr, takeReset_control _⟩)
  · exact .inr (.inl ⟨e, hc ▸ takeException_enteredWith e (sample s)⟩)
  · rcases (exec_answers hi).of_usr (hc ▸ hs) with k | ⟨e, he⟩
    · exact .inl ⟨by rw [k.mode, hc, hs], by rw [k.i, hc], by rw [k.f, hc]⟩
    · exact .inr (.inl ⟨e, hc ▸ he⟩)

/-! ### The registers of other banks -/

/-- Settles O58: outside the registers it may write, an instruction changes at most the link register of the exception
it enters. -/
theorem otherBanksKeepTheirValues : Obligations.OtherBanksKeepTheirValues := by
  intro i s t p h hp
  by_cases hu : loadsUserBank i p
  · exact .inr (.inr hu)
  have hW : ¬ mayWrite i s.cpsr.mode p := fun hw => hw.elim (fun ⟨n, hn⟩ => hp n hn) hu
  cases exec_answers h with
  | completed k => exact .inl (k.gpr p hW)
  | entered e u k hc ht =>
    subst ht
    by_cases hl : p = e.mode.link
    · exact .inr (.inl ⟨e, hl, rfl, takeException_pc e u⟩)
    · left
      rw [takeException_gpr, get_set_other _ _ hl]
      exact k.gpr p hW
  | wroteCpsr u c k hm ht => subst ht; exact .inl (k.gpr p hW)
  | wroteSpsr u q k hm hi ht => subst ht; exact .inl (k.gpr p hW)

/-! ### The SPSRs -/

/-- Settles O59: of the four shapes only an exception entry and an MSR to the SPSR write one. -/
theorem spsrChangesOnlyByEntryOrMsr : Obligations.SpsrChangesOnlyByEntryOrMsr := by
  intro i s t m h
  cases exec_answers h with
  | completed k => exact .inl (by rw [k.spsrs])
  | entered e u k hc ht =>
    subst ht
    rw [takeException_spsr]
    by_cases hm : m = e.mode
    · exact .inr (.inl ⟨hm.symm, by rw [if_pos hm, hc], rfl⟩)
    · exact .inl (by rw [if_neg hm, k.spsrs])
  | wroteCpsr u c k hm ht => subst ht; exact .inl (by rw [setCpsr_spsrs, k.spsrs])
  | wroteSpsr u q k hm hi ht =>
    subst ht
    by_cases he : m = s.cpsr.mode
    · exact .inr (.inr ⟨he, hi⟩)
    · exact .inl (by rw [setSpsr_spsrs, spsrs_get_set _ _ _ _ hm, if_neg he, k.spsrs])

/-! ### The bank map -/

/-- R0 to R7 are the same in every mode, and R15 is no general register (10_state.md R23). -/
theorem phys_low (m : Mode) : phys m 0 = some .r0 ∧ phys m 1 = some .r1 ∧ phys m 2 = some .r2 ∧ phys m 3 = some .r3 ∧
    phys m 4 = some .r4 ∧ phys m 5 = some .r5 ∧ phys m 6 = some .r6 ∧ phys m 7 = some .r7 ∧ phys m 15 = none := by
  cases m <;> decide

/-- R8 to R12 are shared by the modes other than FIQ (10_state.md R23). -/
theorem phys_middle {m : Mode} (h : m ≠ .fiq) : phys m 8 = some .r8 ∧ phys m 9 = some .r9 ∧ phys m 10 = some .r10 ∧
    phys m 11 = some .r11 ∧ phys m 12 = some .r12 := by
  cases m with
  | fiq => exact absurd rfl h
  | usr | irq | svc | abt | und => decide

/-- A value of M[4:0] names a mode exactly when it is the mode's own (10_state.md R36). -/
theorem ofBits_eq_some {b : BitVec 5} {m : Mode} : Mode.ofBits b = some m ↔ b = m.bits :=
  ⟨bits_of_ofBits, fun h => h ▸ ofBits_bits m⟩

/-- A value of M[4:0] names no mode exactly when it is that of none (10_state.md R37). -/
theorem ofBits_eq_none {b : BitVec 5} : Mode.ofBits b = none ↔ ∀ m : Mode, b ≠ m.bits := by
  simp only [Option.eq_none_iff_forall_ne_some, ne_eq, ofBits_eq_some]

/-- Settles O4, from the rules of the register banks. -/
theorem bankMap : Obligations.BankMap := by
  refine ⟨phys_low, fun _ => phys_middle, ?fiqBank, ?stackAndLink, fun _ _ _ => readReg_of_phys, readReg_r15, get_set,
    ?spsrs, ?bits, fun _ _ => ofBits_eq_some, fun _ => ofBits_eq_none⟩
  case fiqBank => decide
  case stackAndLink => decide
  case spsrs => exact fun q => ⟨rfl, rfl, rfl, rfl, rfl, rfl⟩
  case bits => decide

/-! ### Reset -/

/-- Settles O10, by evaluating the one state it speaks of. -/
theorem resetState : Obligations.ResetState := by
  unfold Obligations.ResetState
  decide

/-- Settles O55: an empty memory lists no address out of order. -/
theorem resetMemoryCanonical : Obligations.ResetMemoryCanonical := rfl

end Sys2Proof.Machine
end

section
/-! PROOFS. Family 20_memory.md: reads of words that nothing has populated, and what an instruction does to memory and
the inputs. What an LDR does whose access is answered is said once, in `exec_ldr_answered`; for an LDM,
`exec_ldm_answered` says what its accesses read, whatever they find, and `ldmCompleted_loaded` what its three forms make
of that. The frame of every instruction outside the processor is `exec_accessed`. -/

namespace Sys2Proof.Machine

open Sys2Proof.Claims

/-! ### An instruction that has its effect -/

/-- An instruction whose condition holds and which R290 does not stop has its effect (30_encoding.md R95). -/
theorem conditional_executes {c : Cond} {reads : List Reg} {effect : State → Result} {s : State}
    (h : executes c reads s) : conditional c reads effect s = effect (s.setUserLdm false) := by
  obtain ⟨hc, hz⟩ := h
  refine conditional_passed hc ?_
  cases hu : s.userLdm with
  | false => simp [State.hazard, hu]
  | true => simpa [State.hazard, hu] using hz hu

/-! ### LDR -/

/-- `exec` of an LDR with either form of offset. -/
theorem exec_ldr (c : Cond) (ix : Index) (rn rd : Reg) (off : Offset) (s : State) :
    exec (ldr c ix rn rd off) s = conditional c (rn :: off.reads) (loadEffect ix rn rd off) s := by
  cases off <;> rfl

/-- The target the model computes is that of 43_single_data_transfer.md R190; the mark of R290 plays no part in it. -/
theorem transferTarget_setUserLdm (ix : Index) (rn : Reg) (off : Offset) (s : State) (b : Bool) :
    transferTarget ix rn off (s.setUserLdm b) = targetOf ix rn off s := by
  cases off <;> rfl

/-- The address the model computes is that of R190; the mark of R290 plays no part in it. -/
theorem transferAddr_setUserLdm (ix : Index) (rn : Reg) (off : Offset) (s : State) (b : Bool) :
    transferAddr ix rn off (s.setUserLdm b) = addrOf ix rn off s := by
  rw [transferAddr, transferTarget_setUserLdm]
  rfl

/-- A well-formed LDR is not refused (R191). -/
theorem transferRefusal_ldr {c : Cond} {ix : Index} {rn rd : Reg} {off : Offset}
    (h : (ldr c ix rn rd off).wellFormed = true) : transferRefusal ix rn rd off = none := by
  cases off with
  | imm v => exact transferRefusal_imm v h
  | reg o => exact transferRefusal_reg h

/-- A transfer that is not refused writes no modified base to R15 (R191 c). -/
theorem transferRefusal_none_rn {ix : Index} {rn rd : Reg} {off : Offset} (h : transferRefusal ix rn rd off = none)
    (hw : writesBack ix = true) : rn ≠ 15#4 := by
  rintro rfl
  simp only [transferRefusal, hw, beq_self_eq_true, Bool.and_self, if_true] at h
  split at h <;> cases h

/-- The write-back to a general register. -/
theorem transferWriteback_eq {s : State} {ix : Index} {rn : Reg} (v : Word) (h : writesBack ix = true → rn ≠ 15#4) :
    s.transferWriteback ix rn v = { s with gpr := writtenBack s (!ix.p || ix.w) rn v } := by
  change (if writesBack ix then s.writeReg rn v else s) = { s with gpr := writtenBack s (writesBack ix) rn v }
  cases hw : writesBack ix with
  | false => rfl
  | true =>
    obtain ⟨p, hp⟩ := phys_some (m := s.cpsr.mode) (h hw)
    simp only [if_true, writeReg_of_phys v hp, writtenBack, hp]
    rfl

/-- A well-formed LDR that runs at an aligned address and whose access is answered with `v`, `d` free values being
drawn for it: the write-back, then the load of Rd or the jump (R190, R192). -/
theorem exec_ldr_answered {c : Cond} {ix : Index} {rn rd : Reg} {off : Offset} {s : State} {v : Word} {d : Nat}
    (hwf : (ldr c ix rn rd off).wellFormed = true) (hx : executes c (rn :: off.reads) s)
    (hal : (addrOf ix rn off s).extractLsb' 0 2 = 0#2)
    (hv : memRead ((addrOf ix rn off s).extractLsb' 2 30) (s.setUserLdm false) =
      (some v, (s.setUserLdm false).othersStore.useDraws d)) :
    (∀ p, phys s.cpsr.mode rd = some p → exec (ldr c ix rn rd off) s =
      .next { advanced (s.othersStore.useDraws d) with
        gpr := (writtenBack s (!ix.p || ix.w) rn (targetOf ix rn off s)).set p v }) ∧
    (rd = 15#4 → exec (ldr c ix rn rd off) s =
      .next { jumped (s.othersStore.useDraws d) v with
        gpr := writtenBack s (!ix.p || ix.w) rn (targetOf ix rn off s) }) := by
  have hr := transferRefusal_ldr hwf
  rw [exec_ldr, conditional_executes hx]
  simp only [loadEffect, hr, transferAddr_setUserLdm, transferTarget_setUserLdm, aligned_of_low hal, hv]
  rw [transferWriteback_eq _ (transferRefusal_none_rn hr)]
  refine ⟨fun p hp => ?_, ?_⟩
  · rw [writeReg_of_phys (p := p)]
    · rfl
    · exact hp
  · rintro rfl
    rw [writeReg_r15]
    rfl

/-- Settles O37: the access of the LDR draws one free value. -/
theorem ldrOfUnpopulatedWord : Obligations.LdrOfUnpopulatedWord := by
  rintro s u c ix rn rd off a g hwf hx hal rfl hab rfl hnone rfl
  exact ⟨_, rfl, exec_ldr_answered hwf hx hal (memRead_unpopulated (s := s.setUserLdm false) hab hnone)⟩

/-! ### What an LDM loads -/

/-- A read draws a free value exactly when it finds no word. -/
theorem drawsBefore_succ (s : State) (a : Nat → WordAddr) (k : Nat) :
    drawsBefore s a (k + 1) = drawsBefore s a k + if (found s k (a k)).isNone then 1 else 0 := by
  simp only [drawsBefore, List.range_succ, List.filter_append, List.length_append]
  cases h : (found s k (a k)).isNone <;> simp [h]

/-! The mark of R290 plays no part in what the reads of an instruction answer. -/

@[simp] theorem found_setUserLdm (s : State) (b : Bool) (k : Nat) (a : WordAddr) :
    found (s.setUserLdm b) k a = found s k a := by
  simp [found, othersStores_setUserLdm]

@[simp] theorem drawsBefore_setUserLdm (s : State) (b : Bool) (a : Nat → WordAddr) (k : Nat) :
    drawsBefore (s.setUserLdm b) a k = drawsBefore s a k := by
  simp [drawsBefore]

@[simp] theorem valueRead_setUserLdm (s : State) (b : Bool) (a : Nat → WordAddr) :
    valueRead (s.setUserLdm b) a = valueRead s a := by
  funext k
  simp [valueRead]

/-- Reads of a block none of which is aborted, whatever they find: each answers the word found or the next free value
(20_memory.md R66). -/
theorem loadWords_valueRead {s : State} {bm : BlockMode} {base : Word} {n : Nat}
    (h : ∀ k, k < n → s.aborted .read (slot bm base n k) = false) :
    loadWords (blockAddrs bm base n) s = ((List.range n).map (valueRead s (slot bm base n)), false,
      { s.othersStores n with draws := s.draws + drawsBefore s (slot bm base n) n }) := by
  refine loadWords_block s bm base n _ (fun k => s.draws + drawsBefore s (slot bm base n) k) rfl fun k hk =>
    ⟨h k hk, ?_⟩
  simp only [drawsBefore_succ, valueRead]
  cases hf : found s k (slot bm base n k) with
  | some w => exact .inl ⟨hf, rfl⟩
  | none => exact .inr ⟨hf, rfl, rfl⟩

/-- The highest register of a list that holds R15 is R15 (44_block_data_transfer.md R200). -/
theorem regsOf_last {list : BitVec 16} (h : list.getLsbD 15 = true) :
    (regsOf list)[(regsOf list).length - 1]? = some 15#4 := by
  have e : regsOf list = ((List.range 15).filter fun k => list.getLsbD k).map (BitVec.ofNat 4) ++ [15#4] := by
    simp [regsOf, List.range_succ (n := 15), h]
  rw [← List.getLast?_eq_getElem?, e, List.getLast?_concat]

section
variable {t : State} {bank : Mode} {list : BitVec 16} {n : Nat} {v : Nat → Word}

/-- Of the registers of a list the first `n` stand beside a word each. -/
theorem map_fst_zip_range (regs : List Reg) (n : Nat) (v : Nat → Word) :
    (regs.zip ((List.range n).map v)).map Prod.fst = regs.take n := by
  rw [zip_map_fst, List.length_map, List.length_range]

/-- Loading the first `n` registers of a list: each receives its word and no other register changes. -/
theorem loaded_writeBanks {s : State} (ht : t.gpr = s.gpr) {regs : List Reg} (hr : regs.Nodup) :
    loaded s (t.writeBanks bank (regs.zip ((List.range n).map v))).gpr bank (regs.take n) v none := by
  have hfst := map_fst_zip_range regs n v
  refine ⟨fun k r p hk hp _ => ?_, nofun, fun p hp _ => ?_⟩
  · rw [List.getElem?_take] at hk
    split at hk
    next hlt =>
      have hnd := hr.sublist (List.take_sublist n regs)
      rw [← hfst] at hnd
      exact writeBanks_get_mem _ t bank p r (v k) hp hnd (mem_zip_range hk hlt)
    next => cases hk
  · rw [writeBanks_get_other _ t bank p fun x hx => hp x.1 (hfst ▸ List.mem_map_of_mem hx), ht]

/-- The PC after loading the registers of a list: the last word if R15 is among them. -/
theorem writeBanks_list_pcBits (hn : n = (regsOf list).length) :
    (t.writeBanks bank ((regsOf list).zip ((List.range n).map v))).pcBits =
      if list.getLsbD 15 then (v (n - 1)).extractLsb' 2 30 else t.pcBits := by
  have hnd := regsOf_nodup list
  rw [← List.take_length (l := regsOf list), ← hn, ← map_fst_zip_range (regsOf list) n v] at hnd
  split
  next h =>
    have hlast := regsOf_last h
    have hpos := (List.getElem?_eq_some_iff.mp hlast).1
    exact writeBanks_pcBits_mem _ t bank _ hnd (mem_zip_range (hn ▸ hlast) (by omega))
  next h =>
    refine writeBanks_pcBits_other _ t bank fun x hx e => h ((mem_regsOf list 15#4).mp ?_)
    rw [← e]
    exact (List.of_mem_zip hx).1

end

/-- Writing the base after the load gives it the value of the write-back. -/
theorem loaded_set {s : State} {g : GenRegs} {bank : Mode} {regs : List Reg} {v : Nat → Word}
    (h : loaded s g bank regs v none) (p : PhysReg) (x : Word) : loaded s (g.set p x) bank regs v (some (p, x)) := by
  obtain ⟨hin, -, hout⟩ := h
  refine ⟨fun k r q hk hq hne => ?_, fun y hy => ?_, fun q hq hne => ?_⟩
  · rw [get_set_other _ _ (Ne.symm (hne _ rfl))]
    exact hin k r q hk hq nofun
  · cases hy
    exact get_set_same g p x
  · rw [get_set_other _ _ (Ne.symm (hne _ rfl))]
    exact hout q hq nofun

/-- The write-back of a block data transfer after the load. -/
theorem loaded_writeback {s : State} {g : GenRegs} {bank : Mode} {regs : List Reg} {v : Nat → Word}
    (h : loaded s g bank regs v none) (w : Bool) (p : PhysReg) (x : Word) :
    loaded s (if w then g.set p x else g) bank regs v (if w then some (p, x) else none) := by
  cases w with
  | false => exact h
  | true => exact loaded_set h p x

/-! ### LDM -/

/-- A well-formed LDM in a mode that allows its form is not refused (R207). -/
theorem ldmRefusal_none {bm : BlockMode} {rn : Reg} {list : BitVec 16} {m : Mode}
    (hwf : wellFormedLdm bm rn list = true) (hm : bm.s = true → m ≠ .usr) : ldmRefusal bm rn list m = none := by
  obtain ⟨-, -, -, hw⟩ := (wellFormedLdm_iff bm rn list).mp hwf
  rw [ldmRefusal_wellFormed m hwf, ldmForm]
  cases hs : bm.s with
  | false => rfl
  | true =>
    cases h15 : list.getLsbD 15 with
    | true => simp [formRefusal, hm hs]
    | false => simp [formRefusal, hm hs, hw hs h15]

/-- `exec` of an LDM none of whose accesses is aborted. -/
theorem exec_ldm_answered {c : Cond} {bm : BlockMode} {rn : Reg} {list : BitVec 16} {s : State} {base : Word} {n : Nat}
    (hwf : (Instr.ldm c bm rn list).wellFormed = true) (hm : bm.s = true → s.cpsr.mode ≠ .usr)
    (hx : executes c [rn] s) (hb : base = s.readReg rn 8) (hn : n = (regsOf list).length)
    (hal : base.extractLsb' 0 2 = 0#2) (hab : ∀ k, k < n → s.aborted .read (slot bm base n k) = false) :
    exec (.ldm c bm rn list) s = ldmCompleted (ldmForm bm list) bm rn (blockFinal bm base n) (regsOf list)
      ((List.range n).map (valueRead s (slot bm base n)))
      { s.othersStores n with
        userLdm := false
        draws := s.draws + drawsBefore s (slot bm base n) n } := by
  subst hb hn
  change execLdm c bm rn list s = _
  have hread := loadWords_valueRead (s := s.setUserLdm false) (bm := bm) hab
  simp only [valueRead_setUserLdm, drawsBefore_setUserLdm, othersStores_setUserLdm] at hread
  rw [execLdm, conditional_executes hx]
  simp only [ldmEffect, setUserLdm_cpsr, readReg_setUserLdm, ldmRefusal_none hwf hm, aligned_of_low hal, hread]
  rfl

section
variable {u : State} {bm : BlockMode} {rn : Reg} {f : Word} {pr : PhysReg} {regs : List Reg} {ws : List Word}

/-- The form of R201: the load, the write-back, and the next instruction. -/
theorem ldmCompleted_plain (hp : phys u.cpsr.mode rn = some pr) :
    ldmCompleted .plain bm rn f regs ws u = .next { u with
      gpr := if bm.w then (u.advance.writeBanks u.cpsr.mode (regs.zip ws)).gpr.set pr f
        else (u.advance.writeBanks u.cpsr.mode (regs.zip ws)).gpr
      pcBits := (u.advance.writeBanks u.cpsr.mode (regs.zip ws)).pcBits } := by
  simp only [ldmCompleted]
  rw [blockWriteback_eq f (by simpa using hp), writeBanks_eq]
  rfl

/-- The form of R203: the load, the write-back, and the CPSR from the SPSR of the mode. -/
theorem ldmCompleted_excReturn (hp : phys u.cpsr.mode rn = some pr) {q : Psr} {m : Mode}
    (hq : u.spsrs.get u.cpsr.mode = some q) (hm : Mode.ofBits q.m = some m) :
    ldmCompleted .excReturn bm rn f regs ws u = .next { u with
      gpr := if bm.w then (u.writeBanks u.cpsr.mode (regs.zip ws)).gpr.set pr f
        else (u.writeBanks u.cpsr.mode (regs.zip ws)).gpr
      pcBits := (u.writeBanks u.cpsr.mode (regs.zip ws)).pcBits
      cpsr := ⟨q.flags, q.i, q.f, m⟩ } := by
  simp only [ldmCompleted]
  rw [blockWriteback_eq f (by simpa using hp), writeBanks_eq, returnFromException_ok (p := q) (m := m), pc_word]
  · exact hq
  · exact hm

/-- The form of R204: the load into the User bank, the next instruction, and the mark of R290. -/
theorem ldmCompleted_userBank : ldmCompleted .userBank bm rn f regs ws u = .next { u with
    gpr := (u.advance.writeBanks .usr (regs.zip ws)).gpr
    pcBits := (u.advance.writeBanks .usr (regs.zip ws)).pcBits
    userLdm := true } := by
  simp only [ldmCompleted]
  rw [writeBanks_eq]
  rfl

end

/-- The bank an LDM loads is that of its form (R203, R204). -/
theorem bankOf_ldm (bm : BlockMode) (list : BitVec 16) (s : State) :
    bankOf bm true list s = (ldmForm bm list).bank s := by
  unfold bankOf ldmForm
  cases bm.s <;> cases list.getLsbD 15 <;> rfl

/-- What an LDM whose accesses were all answered leaves, in each of its forms (R201, R203, R204): `u` is the state after
the reads and `cp` the CPSR the form leaves. -/
theorem ldmCompleted_loaded {u : State} {bm : BlockMode} {rn : Reg} {list : BitVec 16} {f : Word} {n : Nat}
    {v : Nat → Word} {pr : PhysReg} {cp : Cpsr} (hwf : wellFormedLdm bm rn list = true) (hu : u.userLdm = false)
    (hn : n = (regsOf list).length) (hp : phys u.cpsr.mode rn = some pr)
    (hret : bm.s = true ∧ list.getLsbD 15 = true → ∃ q m, u.spsrs.get u.cpsr.mode = some q ∧
      Mode.ofBits q.m = some m ∧ cp = ⟨q.flags, q.i, q.f, m⟩)
    (hcp : bm.s = false ∨ list.getLsbD 15 = false → cp = u.cpsr) :
    ∃ g : GenRegs, ldmCompleted (ldmForm bm list) bm rn f (regsOf list) ((List.range n).map v) u = .next { u with
        gpr := g
        pcBits := if list.getLsbD 15 then (v (n - 1)).extractLsb' 2 30 else u.pcBits + 1
        cpsr := cp
        userLdm := bm.s && !list.getLsbD 15 } ∧
      loaded u g (bankOf bm true list u) (regsOf list) v (if bm.w then some (pr, f) else none) := by
  have hload (t : State) (bank : Mode) (ht : t.gpr = u.gpr) :
      loaded u (t.writeBanks bank ((regsOf list).zip ((List.range n).map v))).gpr bank (regsOf list) v none := by
    have h := loaded_writeBanks (bank := bank) (n := n) (v := v) ht (regsOf_nodup list)
    rwa [hn, List.take_length, ← hn] at h
  rw [bankOf_ldm]
  cases hs : bm.s with
  | false =>
    obtain rfl := hcp (.inl hs)
    have hf : ldmForm bm list = .plain := by simp [ldmForm, hs]
    rw [hf, ldmCompleted_plain hp, writeBanks_list_pcBits hn]
    exact ⟨_, by simp only [hu, Bool.false_and, advance_pcBits],
      loaded_writeback (hload u.advance u.cpsr.mode rfl) bm.w pr f⟩
  | true =>
    cases h15 : list.getLsbD 15 with
    | true =>
      obtain ⟨q, m, hq, hm, rfl⟩ := hret ⟨hs, h15⟩
      have hf : ldmForm bm list = .excReturn := by simp [ldmForm, hs, h15]
      rw [hf, ldmCompleted_excReturn hp hq hm, writeBanks_list_pcBits hn, h15]
      exact ⟨_, by simp only [hu, Bool.not_true, Bool.and_false, if_true],
        loaded_writeback (hload u u.cpsr.mode rfl) bm.w pr f⟩
    | false =>
      obtain rfl := hcp (.inr h15)
      obtain ⟨-, -, -, hw⟩ := (wellFormedLdm_iff bm rn list).mp hwf
      rw [ldmForm_eq_userBank.mpr ⟨hs, h15⟩, ldmCompleted_userBank, writeBanks_list_pcBits hn, h15, hw hs h15]
      exact ⟨_, rfl, hload u.advance .usr rfl⟩

/-- Settles O45: the reads answer what each finds, and each form loads them. -/
theorem ldmOfUnpopulatedWords : Obligations.LdmOfUnpopulatedWords := by
  rintro s c bm rn list base n pr v cp hwf hm hx hb hn hal hp hab rfl hret hcp
  rw [exec_ldm_answered hwf hm hx hb hn hal hab, othersStores_eq]
  exact ldmCompleted_loaded hwf rfl hn hp hret hcp

/-! ### Memory and the inputs -/

/-- What of the state lies outside the processor: memory (10_state.md R42), the external inputs, and what other bus
masters will store (20_memory.md R77). -/
structure Env where
  mem : Memory
  others : List (List (WordAddr × Word))
  lines : Lines
  schedule : List Boundary

/-- That part of a state. No write of a register or of a status register reaches it. -/
def State.env (s : State) : Env := ⟨s.mem, s.others, s.lines, s.schedule⟩

section
variable (s : State)

@[simp] theorem env_setPc (v : Word) : (s.setPc v).env = s.env := rfl
@[simp] theorem env_advance : s.advance.env = s.env := rfl
@[simp] theorem env_setFlags (f : Flags) : (s.setFlags f).env = s.env := rfl
@[simp] theorem env_setCpsr (c : Cpsr) : (s.setCpsr c).env = s.env := rfl
@[simp] theorem env_setSpsr (m : Mode) (p : Psr) : (s.setSpsr m p).env = s.env := rfl
@[simp] theorem env_setUserLdm (b : Bool) : (s.setUserLdm b).env = s.env := rfl
@[simp] theorem env_useDraws (k : Nat) : (s.useDraws k).env = s.env := rfl
@[simp] theorem env_setMem (m : Memory) : (s.setMem m).env = { s.env with mem := m } := rfl
@[simp] theorem env_takeException (e : Exc) : (takeException e s).env = s.env := rfl

@[simp] theorem env_writeBank (m : Mode) (n : Reg) (v : Word) : (s.writeBank m n v).env = s.env := by
  simp [State.env]

@[simp] theorem env_writeReg (n : Reg) (v : Word) : (s.writeReg n v).env = s.env := env_writeBank ..

@[simp] theorem env_writeBanks (m : Mode) (l : List (Reg × Word)) : (s.writeBanks m l).env = s.env := by
  simp [State.env]

@[simp] theorem env_transferWriteback (ix : Index) (rn : Reg) (v : Word) :
    (s.transferWriteback ix rn v).env = s.env := by
  unfold State.transferWriteback; split <;> simp

@[simp] theorem env_blockWriteback (bm : BlockMode) (rn : Reg) (v : Word) :
    (s.blockWriteback bm rn v).env = s.env := by
  unfold State.blockWriteback; split <;> simp

end

section
variable {s t : State}

/-! Operations that answer a next state and do not reach outside the processor. -/

theorem returnFromException_env {target : Word} (h : returnFromException target s = .next t) : t.env = s.env := by
  obtain ⟨p, m, -, -, rfl⟩ := returnFromException_next h
  rfl

theorem setPsrFlags_env {p : Bool} {f : Flags} (h : s.setPsrFlags p f = .next t) : t.env = s.env := by
  unfold State.setPsrFlags at h
  split at h
  · split at h <;> cases h
    rfl
  · cases h
    rfl

theorem setWholePsr_env {p : Bool} {v : Word} (h : s.setWholePsr p v = .next t) : t.env = s.env := by
  unfold State.setWholePsr at h
  split at h
  · split at h <;> cases h
    rfl
  · split at h
    · cases h
      rfl
    · split at h <;> cases h
      rfl

theorem dpEffect_env {op : DpOp} {sb : Bool} {rn rd : Reg} {o2 : Operand2} (h : dpEffect op sb rn rd o2 s = .next t) :
    t.env = s.env := by
  rcases dpEffect_next h with rfl | hret | rfl | ⟨-, rfl⟩ | ⟨-, rfl⟩
  · simp
  · exact returnFromException_env hret
  · simp
  · simp
  · simp

theorem ldmCompleted_env {form : BlockForm} {bm : BlockMode} {rn : Reg} {f : Word} {regs : List Reg} {ws : List Word}
    (h : ldmCompleted form bm rn f regs ws s = .next t) : t.env = s.env := by
  cases form with
  | plain => cases h; simp
  | excReturn => simpa using returnFromException_env h
  | userBank => cases h; simp

/-- From `s` to `t` the processor made `n` data accesses: outside it changed only what other bus masters store before
them (20_memory.md R77), and, if `store` says that the accesses are writes, memory. -/
structure Accessed (store : Bool) (n : Nat) (s t : State) : Prop where
  env : t.env = { (s.othersStores n).env with mem := t.mem }
  mem : store = false → t.mem = (s.othersStores n).mem

/-- Accesses none of which writes. -/
theorem Accessed.of_env {b : Bool} {n : Nat} (h : t.env = (s.othersStores n).env) : Accessed b n s t where
  env := by
    have hm : t.mem = (s.othersStores n).env.mem := congrArg Env.mem h
    rw [h, hm]
  mem _ := congrArg Env.mem h

/-- Writes, which leave memory `m`. -/
theorem Accessed.of_env_mem {n : Nat} {m : Memory} (h : t.env = { (s.othersStores n).env with mem := m }) :
    Accessed true n s t where
  env := by
    have hm : t.mem = m := congrArg Env.mem h
    rw [h, hm]
  mem := nofun

theorem loadEffect_env {ix : Index} {rn rd : Reg} {off : Offset} (h : loadEffect ix rn rd off s = .next t) :
    t.env = (s.othersStores 1).env := by
  obtain ⟨-, a, -, ⟨-, rfl⟩ | ⟨v, d, rfl⟩⟩ := loadEffect_next h <;> simp [State.othersStores]

theorem storeEffect_accessed {ix : Index} {rn rd : Reg} {off : Offset} (h : storeEffect ix rn rd off s = .next t) :
    Accessed true 1 s t := by
  obtain ⟨-, a, -, -, ⟨-, rfl⟩ | ⟨-, rfl⟩⟩ := storeEffect_next h
  · exact .of_env (by simp [State.othersStores])
  · exact .of_env_mem (env_advance _ |>.trans (env_transferWriteback ..))

theorem ldmEffect_env {bm : BlockMode} {rn : Reg} {list : BitVec 16} (h : ldmEffect bm rn list s = .next t) :
    t.env = (s.othersStores (regsOf list).length).env := by
  obtain ⟨-, ws, d, h | ⟨-, h⟩⟩ := ldmEffect_next h
  · cases h
    simp
  · simpa using ldmCompleted_env h

theorem stmEffect_accessed {bm : BlockMode} {rn : Reg} {list : BitVec 16} (h : stmEffect bm rn list s = .next t) :
    Accessed true (regsOf list).length s t := by
  obtain ⟨-, m, -, rfl | rfl⟩ := stmEffect_next h <;> exact .of_env_mem (m := m) (by simp)

/-- Under a condition: an instruction that is not executed makes no access (30_encoding.md R95). -/
theorem conditional_accessed {c : Cond} {reads : List Reg} {effect : State → Result} {b : Bool} {n : Nat}
    (h : conditional c reads effect s = .next t)
    (he : effect (s.setUserLdm false) = .next t → Accessed b n (s.setUserLdm false) t) :
    Accessed b (if conditionPassed c s.cpsr.flags then n else 0) s t := by
  rcases conditional_next h with ⟨hc, rfl⟩ | ⟨hc, -, h⟩
  · rw [hc]
    exact .of_env rfl
  · rw [hc, if_pos rfl]
    obtain ⟨henv, hmem⟩ := he h
    rw [othersStores_setUserLdm] at henv hmem
    exact ⟨henv, hmem⟩

/-- Under a condition: an effect that stays inside the processor. -/
theorem conditional_env {c : Cond} {reads : List Reg} {effect : State → Result}
    (h : conditional c reads effect s = .next t)
    (he : effect (s.setUserLdm false) = .next t → t.env = (s.setUserLdm false).env) : t.env = s.env := by
  rcases conditional_next h with ⟨-, rfl⟩ | ⟨-, -, h⟩
  · rfl
  · exact he h

/-- An instruction that stays inside the processor makes no access, whether its condition holds or not. -/
theorem Accessed.of_internal {b : Bool} {p : Prop} [Decidable p] (h : t.env = s.env) :
    Accessed b (if p then 0 else 0) s t := by
  rw [ite_self]
  exact .of_env h

theorem takeException_next_env {e : Exc} (h : Host.Outcome.next (takeException e s) = (.next t : Result)) :
    t.env = s.env := by
  cases h
  rfl

theorem execMrs_env {c : Cond} {p : Bool} {rd : Reg} (h : execMrs c p rd s = .next t) : t.env = s.env := by
  refine conditional_env h fun h => ?_
  split at h
  · cases h
  · split at h <;> cases h
    simp

theorem execMsrAll_env {c : Cond} {p : Bool} {rm : Reg} (h : execMsrAll c p rm s = .next t) : t.env = s.env := by
  refine conditional_env h fun h => ?_
  split at h
  · cases h
  · exact (setWholePsr_env h).trans (env_advance _)

theorem execMsrFlgReg_env {c : Cond} {p : Bool} {rm : Reg} (h : execMsrFlgReg c p rm s = .next t) :
    t.env = s.env := by
  refine conditional_env h fun h => ?_
  split at h
  · cases h
  · exact (setPsrFlags_env h).trans (env_advance _)

theorem execMsrFlgImm_env {c : Cond} {p : Bool} {o : ImmOp} (h : execMsrFlgImm c p o s = .next t) : t.env = s.env :=
  conditional_env h fun h => (setPsrFlags_env h).trans (env_advance _)

theorem execB_env {c : Cond} {off : BitVec 24} (h : execB c off s = .next t) : t.env = s.env := by
  refine conditional_env h fun h => ?_
  cases h
  rfl

theorem execBl_env {c : Cond} {off : BitVec 24} (h : execBl c off s = .next t) : t.env = s.env := by
  refine conditional_env h fun h => ?_
  cases h
  simp

theorem execSwi_env {c : Cond} {comment : BitVec 24} (h : execSwi c comment s = .next t) : t.env = s.env :=
  conditional_env h takeException_next_env

theorem execUndef_env {c : Cond} {hi : BitVec 20} {lo : BitVec 4} (h : execUndef c hi lo s = .next t) :
    t.env = s.env :=
  conditional_env h takeException_next_env

end

/-- A data-processing instruction makes no data access (20_memory.md R64). -/
@[simp] theorem accesses_dp (op : DpOp) (c : Cond) (sb : Bool) (rn rd : Reg) (o2 : Operand2) :
    accesses (.dp op c sb rn rd o2) = 0 := by
  cases op <;> cases o2 <;> rfl

/-- Every instruction that answers a next state makes its data accesses and reaches outside the processor by them
alone. -/
theorem exec_accessed {i : Instr} {s t : State} (h : exec i s = .next t) :
    Accessed (isStore i) (if conditionPassed i.cond s.cpsr.flags then accesses i else 0) s t := by
  cases i using instr_cases with
  | dp op c sb rn rd o2 =>
    rw [exec_dp] at h
    rw [accesses_dp]
    exact .of_internal (conditional_env h dpEffect_env)
  | mrs c p rd => exact .of_internal (execMrs_env h)
  | msrAll c p rm => exact .of_internal (execMsrAll_env h)
  | msrFlgReg c p rm => exact .of_internal (execMsrFlgReg_env h)
  | msrFlgImm c p o => exact .of_internal (execMsrFlgImm_env h)
  | ldrImm c ix rn rd v => exact conditional_accessed h fun h => .of_env (loadEffect_env h)
  | ldrReg c ix rn rd o => exact conditional_accessed h fun h => .of_env (loadEffect_env h)
  | strImm c ix rn rd v => exact conditional_accessed h storeEffect_accessed
  | strReg c ix rn rd o => exact conditional_accessed h storeEffect_accessed
  | ldm c bm rn list => exact conditional_accessed h fun h => .of_env (ldmEffect_env h)
  | stm c bm rn list => exact conditional_accessed h stmEffect_accessed
  | b c off => exact .of_internal (execB_env h)
  | bl c off => exact .of_internal (execBl_env h)
  | swi c comment => exact .of_internal (execSwi_env (comment := comment) h)
  | undef c hi lo => exact .of_internal (execUndef_env (hi := hi) (lo := lo) h)
  | cdp c opc crn crd cp info crm => exact .of_internal (conditional_env h takeException_next_env)
  | ldc c ix rn crd cp off => exact .of_internal (conditional_env h takeException_next_env)
  | stc c ix rn crd cp off => exact .of_internal (conditional_env h takeException_next_env)
  | mrc c opc crn rd cp info crm => exact .of_internal (conditional_env h takeException_next_env)
  | mcr c opc crn rd cp info crm => exact .of_internal (conditional_env h takeException_next_env)

/-- Settles O56: the data accesses of an instruction are all that reaches memory and the inputs. -/
theorem onlyStoresChangeMemory : Obligations.OnlyStoresChangeMemory := by
  rintro i s t k h rfl
  obtain ⟨henv, hmem⟩ := exec_accessed h
  have hothers := congrArg Env.others henv
  have hlines := congrArg Env.lines henv
  have hschedule := congrArg Env.schedule henv
  refine ⟨hmem, fun hi hnil => ?_, hothers.trans (othersStores_others ..), hlines.trans (othersStores_lines ..),
    hschedule.trans (othersStores_schedule ..)⟩
  rw [hmem hi, othersStores_nil hnil]

end Sys2Proof.Machine
end

section
/-! PROOFS. Family 30_encoding.md: the decoder and the encoder are inverse, the words the decoder refuses, the rows of the
opcode table, and the condition field. The facts about a format come in two layers: what each field of a written word
reads (`dpWord_fields` and its like), from which decoding undoes encoding, and that a word is written by its own fields
(`dpWord_of_fields` and its like), from which encoding undoes decoding. -/

namespace Sys2Proof

open Sys2Proof.Machine Sys2Proof.Claims

/-! ### Fields and bits of a word -/

/-- A bit is a field of length 1. -/
theorem bit_eq_field (w : Word) (k : Nat) : bit w k = (field w k 1).getLsbD 0 := by
  simp only [bit, field, BitVec.getLsbD_extractLsb']
  simp

@[simp] theorem getLsbD_flag (b : Bool) : (flag b).getLsbD 0 = b := by
  cases b <;> rfl

/-- A bit inside a field. -/
theorem getLsbD_field (w : Word) (lo : Nat) {len k : Nat} (h : k < len) :
    (field w lo len).getLsbD k = bit w (lo + k) := by
  simp only [field, bit, BitVec.getLsbD_extractLsb', h, decide_true, Bool.true_and]

theorem bit_of_field {w : Word} {lo len k : Nat} {v : BitVec len} (h : field w lo len = v) (hk : k < len) :
    bit w (lo + k) = v.getLsbD k := by
  rw [← getLsbD_field w lo hk, h]

/-- A field inside a field. -/
theorem extractLsb'_field (w : Word) (lo : Nat) {len a n : Nat} (h : a + n ≤ len) :
    (field w lo len).extractLsb' a n = field w (lo + a) n := by
  apply BitVec.eq_of_getLsbD_eq
  intro k hk
  have hak : a + k < len := by omega
  simp only [field, BitVec.getLsbD_extractLsb', hk, hak, Nat.add_assoc]
  simp

/-- A field inside the low bits of a word. -/
theorem field_of_low {w : Word} {len a n : Nat} {v : BitVec len} (h : field w 0 len = v) (hn : a + n ≤ len) :
    field w a n = v.extractLsb' a n := by
  rw [← h, extractLsb'_field w 0 hn, Nat.zero_add]

/-- Two adjacent fields of a word, side by side, are one field. -/
theorem field_append_field {w : Word} {hi lo m n : Nat} (h : hi = lo + n) :
    field w hi m ++ field w lo n = field w lo (m + n) :=
  BitVec.extractLsb'_append_extractLsb'_eq_extractLsb' h

theorem field_all (w : Word) : field w 0 32 = w := BitVec.extractLsb'_eq_self

/-- Bits [27:26], which tell data processing and single transfers from the rest, are those of the class [27:25]. -/
theorem field_26_eq (w : Word) : field w 26 2 = (field w 25 3).extractLsb' 1 2 :=
  (extractLsb'_field w 25 (a := 1) (n := 2) (by decide)).symm

theorem bit_25_eq (w : Word) : bit w 25 = (field w 25 3).getLsbD 0 := (getLsbD_field w 25 (k := 0) (by decide)).symm

theorem flag_bit (w : Word) (k : Nat) : flag (bit w k) = field w k 1 :=
  BitVec.eq_of_toNat_eq (by rw [toNat_flag, toNat_bit, toNat_field, pow_one])

/-- A bit of known value, as the one-bit field a format writes there. -/
theorem field_one_of_bit {w : Word} {k : Nat} {b : Bool} (h : bit w k = b) : field w k 1 = flag b := by
  rw [← flag_bit, h]

/-- The class of a word, from bits [27:26] and bit 25. -/
theorem class_of_bits {w : Word} {v : BitVec 2} {b : Bool} {k : BitVec 3} (hv : field w 26 2 = v) (hb : bit w 25 = b)
    (hk : v ++ flag b = k) : field w 25 3 = k := by
  rw [← hk, ← hv, ← hb, flag_bit]
  exact (field_append_field (m := 2) (n := 1) rfl).symm

theorem class_cases (v : BitVec 3) :
    v = 0#3 ∨ v = 1#3 ∨ v = 2#3 ∨ v = 3#3 ∨ v = 4#3 ∨ v = 5#3 ∨ v = 6#3 ∨ v = 7#3 := by
  revert v
  decide

/-! ### The decoder, one equation for each class (30_encoding.md R91) -/

section

variable {c : Cond} {w : Word}

theorem decodeWord_of_code (h : field w 28 4 = c.code) : decodeWord w = decodeClass c w := by
  simp only [decodeWord, h, ofCode_code]

theorem decodeWord_of_nv (h : field w 28 4 = 15#4) : decodeWord w = .error .conditionNV := by
  simp only [decodeWord, (ofCode_eq_none _).2 h]

/-- A word has the code of a condition unless it is 1111 (R95, R96). -/
theorem exists_code (h : field w 28 4 ≠ 15#4) : ∃ c : Cond, field w 28 4 = c.code := by
  obtain ⟨c, hc⟩ := Option.ne_none_iff_exists'.1 (mt (ofCode_eq_none _).1 h)
  exact ⟨c, code_of_ofCode hc⟩

theorem decodeWord_ok {i : Instr} (h : decodeWord w = .ok i) :
    ∃ c : Cond, field w 28 4 = c.code ∧ decodeClass c w = .ok i := by
  by_cases hnv : field w 28 4 = 15#4
  · rw [decodeWord_of_nv hnv] at h
    cases h
  · obtain ⟨c, hc⟩ := exists_code hnv
    exact ⟨c, hc, decodeWord_of_code hc ▸ h⟩

theorem decodeClass_zero (h : field w 25 3 = 0#3) : decodeClass c w =
    if bit w 4 && bit w 7 then .error .multiplySwapHalfwordSpace
    else if inPsrSpace w then decodePsrReg c w
    else if bit w 4 then .ok (decodeDp c w (.shReg (shRegField w)))
    else .ok (decodeDp c w (.shImm (shImmField w))) := by
  simp only [decodeClass, h]
  rfl

theorem decodeClass_one (h : field w 25 3 = 1#3) : decodeClass c w =
    if inPsrSpace w then decodePsrImm c w else .ok (decodeDp c w (.imm (immField w))) := by
  simp only [decodeClass, h]
  rfl

theorem decodeClass_two (h : field w 25 3 = 2#3) : decodeClass c w = decodeTransferImm c w := by
  simp only [decodeClass, h]
  rfl

theorem decodeClass_three (h : field w 25 3 = 3#3) : decodeClass c w =
    if bit w 4 then .ok (.undef c (field w 5 20) (field w 0 4)) else decodeTransferReg c w := by
  simp only [decodeClass, h]
  rfl

theorem decodeClass_four (h : field w 25 3 = 4#3) : decodeClass c w =
    if bit w 20 then .ok (.ldm c (blockField w) (field w 16 4) (field w 0 16))
    else .ok (.stm c (blockField w) (field w 16 4) (field w 0 16)) := by
  simp only [decodeClass, h]
  rfl

theorem decodeClass_five (h : field w 25 3 = 5#3) : decodeClass c w =
    if bit w 24 then .ok (.bl c (field w 0 24)) else .ok (.b c (field w 0 24)) := by
  simp only [decodeClass, h]
  rfl

theorem decodeClass_six (h : field w 25 3 = 6#3) : decodeClass c w =
    if bit w 20 then .ok (.ldc c (copIndexField w) (field w 16 4) (field w 12 4) (field w 8 4) (field w 0 8))
    else .ok (.stc c (copIndexField w) (field w 16 4) (field w 12 4) (field w 8 4) (field w 0 8)) := by
  simp only [decodeClass, h]
  rfl

theorem decodeClass_seven (h : field w 25 3 = 7#3) : decodeClass c w = .ok (decodeSwiCop c w) := by
  simp only [decodeClass, h]
  rfl

end

/-! ### Second operands and offsets -/

/-- The operand is a rotated immediate: bit 25 of a data-processing instruction (R92). -/
def Operand2.isImm : Operand2 → Bool
  | .imm _ => true
  | _ => false

/-- Bits [11:0] of the operand (R92). -/
def Operand2.bits : Operand2 → BitVec 12
  | .imm o => o.bits
  | .shImm o => o.bits
  | .shReg o => o.bits

section

variable {w : Word}

theorem immField_of_bits {o : ImmOp} (h : field w 0 12 = o.bits) : immField w = o := by
  simp (disch := decide) only [immField, field_of_low h, ImmOp.bits, BitVec.extractLsb'_append_eq_of_le,
    BitVec.extractLsb'_append_eq_of_add_le, BitVec.extractLsb'_eq_self, Nat.sub_self]

theorem shImmField_of_bits {o : ShImm} (h : field w 0 12 = o.bits) : shImmField w = o ∧ bit w 4 = false := by
  simp (disch := decide) only [shImmField, bit_eq_field, field_of_low h, ShImm.bits, BitVec.extractLsb'_append_eq_of_le,
    BitVec.extractLsb'_append_eq_of_add_le, BitVec.extractLsb'_eq_self, Nat.reduceSub, shiftType_ofCode_code]
  exact ⟨trivial, rfl⟩

theorem shRegField_of_bits {o : ShReg} (h : field w 0 12 = o.bits) :
    shRegField w = o ∧ bit w 4 = true ∧ bit w 7 = false := by
  simp (disch := decide) only [shRegField, bit_eq_field, field_of_low h, ShReg.bits, BitVec.extractLsb'_append_eq_of_le,
    BitVec.extractLsb'_append_eq_of_add_le, BitVec.extractLsb'_eq_self, Nat.reduceSub, shiftType_ofCode_code]
  exact ⟨trivial, rfl, rfl⟩

theorem immField_bits : (immField w).bits = field w 0 12 := field_append_field rfl

theorem shImmField_bits (h4 : bit w 4 = false) : (shImmField w).bits = field w 0 12 := by
  have h4 : field w 4 1 = 0#1 := field_one_of_bit h4
  simp (disch := decide) only [ShImm.bits, shImmField, shiftType_code_ofCode, ← h4, field_append_field]

theorem shRegField_bits (h4 : bit w 4 = true) (h7 : bit w 7 = false) : (shRegField w).bits = field w 0 12 := by
  have h4 : field w 4 1 = 1#1 := field_one_of_bit h4
  have h7 : field w 7 1 = 0#1 := field_one_of_bit h7
  simp (disch := decide) only [ShReg.bits, shRegField, shiftType_code_ofCode, ← h4, ← h7, field_append_field]

end

/-! ### Data processing (R92) -/

/-- The compares are encoded with S = 1 whatever the S argument (R92). -/
theorem encode_dp_eq_dpWord (op : DpOp) (c : Cond) (sb : Bool) (rn rd : Reg) (o2 : Operand2) :
    encode (.dp op c sb rn rd o2) = dpWord c o2.isImm op (isCompare op || sb) rn rd o2.bits := by
  cases op <;> cases o2 <;> rfl

theorem dp_isCompare_or (op : DpOp) (c : Cond) (sb : Bool) (rn rd : Reg) (o2 : Operand2) :
    Instr.dp op c (isCompare op || sb) rn rd o2 = .dp op c sb rn rd o2 := by
  cases op <;> cases o2 <;> rfl

/-- The PSR transfers occupy the compares with S = 0 (R91). -/
theorem inPsrSpace_eq (w : Word) : inPsrSpace w = (isCompare (.ofCode (field w 21 4)) && !bit w 20) := by
  have hop : field w 23 2 = (field w 21 4).extractLsb' 2 2 :=
    (extractLsb'_field w 21 (a := 2) (n := 2) (by decide)).symm
  have hcmp : ∀ v : BitVec 4, (v.extractLsb' 2 2 == 2#2) = isCompare (.ofCode v) := by decide
  rw [inPsrSpace, hop, hcmp]

theorem dpWord_fields (c : Cond) (imm : Bool) (op : DpOp) (sb : Bool) (rn rd : Reg) (o2 : BitVec 12) :
    let w := dpWord c imm op sb rn rd o2
    field w 28 4 = c.code ∧ field w 26 2 = 0#2 ∧ bit w 25 = imm ∧ field w 21 4 = op.code ∧ bit w 20 = sb ∧
      field w 16 4 = rn ∧ field w 12 4 = rd ∧ field w 0 12 = o2 := by
  simp (disch := decide) only [dpWord, field, bit_eq_field, BitVec.extractLsb'_append_eq_of_le,
    BitVec.extractLsb'_append_eq_of_add_le, BitVec.extractLsb'_eq_self, Nat.reduceSub, getLsbD_flag, and_self]

theorem dpWord_of_fields {c : Cond} {w : Word} (hc : field w 28 4 = c.code) (h26 : field w 26 2 = 0#2) :
    dpWord c (bit w 25) (.ofCode (field w 21 4)) (bit w 20) (field w 16 4) (field w 12 4) (field w 0 12) = w := by
  simp (disch := decide) only [dpWord, dpOp_code_ofCode, flag_bit, ← hc, ← h26, field_append_field]
  exact field_all w

theorem decodeWord_encode_dp (op : DpOp) (c : Cond) (sb : Bool) (rn rd : Reg) (o2 : Operand2) :
    decodeWord (encode (.dp op c sb rn rd o2)) = .ok (.dp op c sb rn rd o2) := by
  obtain ⟨hc, h26, h25, hop, hs, hn, hd, ho⟩ := dpWord_fields c o2.isImm op (isCompare op || sb) rn rd o2.bits
  rw [encode_dp_eq_dpWord]
  generalize dpWord c o2.isImm op (isCompare op || sb) rn rd o2.bits = w at *
  have hpsr : inPsrSpace w = false := by
    rw [inPsrSpace_eq, hop, hs, dpOp_ofCode_code]
    cases isCompare op <;> rfl
  have hdp : decodeDp c w o2 = .dp op c sb rn rd o2 := by
    rw [decodeDp, hop, hs, hn, hd, dpOp_ofCode_code, dp_isCompare_or]
  rw [decodeWord_of_code hc]
  cases o2 with
  | imm o =>
    rw [decodeClass_one (class_of_bits (b := true) h26 h25 (by decide)), hpsr, immField_of_bits ho, hdp]
    rfl
  | shImm o =>
    obtain ⟨hsh, h4⟩ := shImmField_of_bits ho
    rw [decodeClass_zero (class_of_bits (b := false) h26 h25 (by decide)), hpsr, h4, hsh, hdp]
    rfl
  | shReg o =>
    obtain ⟨hsh, h4, h7⟩ := shRegField_of_bits ho
    rw [decodeClass_zero (class_of_bits (b := false) h26 h25 (by decide)), hpsr, h4, h7, hsh, hdp]
    rfl

theorem encode_decodeDp {c : Cond} {w : Word} {o2 : Operand2} (hc : field w 28 4 = c.code) (h26 : field w 26 2 = 0#2)
    (hpsr : inPsrSpace w = false) (h25 : bit w 25 = o2.isImm) (ho : o2.bits = field w 0 12) :
    encode (decodeDp c w o2) = w := by
  have hs : (isCompare (.ofCode (field w 21 4)) || bit w 20) = bit w 20 := by
    rw [inPsrSpace_eq] at hpsr
    revert hpsr
    cases isCompare (.ofCode (field w 21 4)) <;> cases bit w 20 <;> simp
  rw [decodeDp, encode_dp_eq_dpWord, hs, ← h25, ho, dpWord_of_fields hc h26]

/-! ### PSR transfers (R93) -/

theorem mrs_fields (c : Cond) (p : Bool) (rd : Reg) :
    let w := encode (.mrs c p rd)
    field w 28 4 = c.code ∧ field w 23 5 = 2#5 ∧ bit w 22 = p ∧ field w 16 6 = 0x0f#6 ∧ field w 12 4 = rd ∧
      field w 0 12 = 0#12 := by
  simp (disch := decide) only [encode, field, bit_eq_field, BitVec.extractLsb'_append_eq_of_le,
    BitVec.extractLsb'_append_eq_of_add_le, BitVec.extractLsb'_eq_self, Nat.reduceSub, getLsbD_flag, and_self]

/-- The format of the two MSR instructions with a register, which differ in `v`. -/
theorem msrReg_fields (c : Cond) (p : Bool) (v : BitVec 18) (rm : Reg) :
    let w : Word := c.code ++ 2#5 ++ flag p ++ v ++ rm
    field w 28 4 = c.code ∧ field w 23 5 = 2#5 ∧ bit w 22 = p ∧ field w 4 18 = v ∧ field w 0 4 = rm := by
  simp (disch := decide) only [field, bit_eq_field, BitVec.extractLsb'_append_eq_of_le,
    BitVec.extractLsb'_append_eq_of_add_le, BitVec.extractLsb'_eq_self, Nat.reduceSub, getLsbD_flag, and_self]

theorem msrFlgImm_fields (c : Cond) (p : Bool) (o : ImmOp) :
    let w := encode (.msrFlgImm c p o)
    field w 28 4 = c.code ∧ field w 23 5 = 6#5 ∧ bit w 22 = p ∧ field w 12 10 = 0x28f#10 ∧ field w 0 12 = o.bits := by
  simp (disch := decide) only [encode, field, bit_eq_field, BitVec.extractLsb'_append_eq_of_le,
    BitVec.extractLsb'_append_eq_of_add_le, BitVec.extractLsb'_eq_self, Nat.reduceSub, getLsbD_flag, and_self]

section

variable {c : Cond} {w : Word}

/-- Bits [27:23] of a PSR transfer: its class, and the opcode space it shares with the compares. -/
theorem field_23_eq (w : Word) : field w 23 5 = field w 25 3 ++ field w 23 2 :=
  (field_append_field (m := 3) (n := 2) rfl).symm

theorem class_of_field_23 {v : BitVec 5} (h : field w 23 5 = v) :
    field w 25 3 = v.extractLsb' 2 3 ∧ field w 23 2 = v.extractLsb' 0 2 :=
  h ▸ ⟨(extractLsb'_field w 23 (a := 2) (n := 3) (by decide)).symm,
    (extractLsb'_field w 23 (a := 0) (n := 2) (by decide)).symm⟩

/-- A word in the space of the PSR transfers. -/
theorem inPsrSpace_iff : inPsrSpace w = true ↔ field w 23 2 = 2#2 ∧ bit w 20 = false := by
  simp [inPsrSpace]

theorem decodeWord_psrReg (hc : field w 28 4 = c.code) (h23 : field w 23 5 = 2#5) (h20 : bit w 20 = false)
    (h47 : (bit w 4 && bit w 7) = false) : decodeWord w = decodePsrReg c w := by
  obtain ⟨hk, hspace⟩ := class_of_field_23 h23
  rw [decodeWord_of_code hc, decodeClass_zero hk, inPsrSpace_iff.2 ⟨hspace, h20⟩, h47]
  rfl

end

theorem decodeWord_encode_mrs (c : Cond) (p : Bool) (rd : Reg) :
    decodeWord (encode (.mrs c p rd)) = .ok (.mrs c p rd) := by
  obtain ⟨hc, h23, hp, h16, hd, h0⟩ := mrs_fields c p rd
  generalize encode (.mrs c p rd) = w at *
  have h20 : bit w 20 = false := bit_of_field h16 (k := 4) (by decide)
  have h4 : bit w 4 = false := bit_of_field h0 (k := 4) (by decide)
  rw [decodeWord_psrReg hc h23 h20 (by rw [h4, Bool.false_and]), decodePsrReg, h16, h0, hp, hd]
  rfl

/-- Bits 20, 7 and 4 and [21:16] of an MSR with a register. -/
theorem decodeWord_msrReg {c : Cond} {w : Word} {v : BitVec 18} (hc : field w 28 4 = c.code) (h23 : field w 23 5 = 2#5)
    (hv : field w 4 18 = v) (h20 : v.getLsbD 16 = false) (h4 : v.getLsbD 0 = false)
    (h16 : v.extractLsb' 12 6 ≠ 0x0f#6) : decodeWord w =
      if v == 0x29f00#18 then .ok (.msrAll c (bit w 22) (field w 0 4))
      else if v == 0x28f00#18 then .ok (.msrFlgReg c (bit w 22) (field w 0 4))
      else .error .psrSpaceOther := by
  have h20' : bit w 20 = false := (bit_of_field hv (k := 16) (by decide)).trans h20
  have h4' : bit w 4 = false := (bit_of_field hv (k := 0) (by decide)).trans h4
  have h16' : field w 16 6 ≠ 0x0f#6 := by
    rwa [← hv, extractLsb'_field w 4 (by decide)] at h16
  rw [decodeWord_psrReg hc h23 h20' (by rw [h4', Bool.false_and]), decodePsrReg, hv, beq_false_of_ne h16']
  rfl

theorem decodeWord_encode_msrAll (c : Cond) (p : Bool) (rm : Reg) :
    decodeWord (encode (.msrAll c p rm)) = .ok (.msrAll c p rm) := by
  obtain ⟨hc, h23, hp, hv, hm⟩ := msrReg_fields c p 0x29f00#18 rm
  rw [encode, decodeWord_msrReg hc h23 hv (by decide) (by decide) (by decide), hp, hm]
  rfl

theorem decodeWord_encode_msrFlgReg (c : Cond) (p : Bool) (rm : Reg) :
    decodeWord (encode (.msrFlgReg c p rm)) = .ok (.msrFlgReg c p rm) := by
  obtain ⟨hc, h23, hp, hv, hm⟩ := msrReg_fields c p 0x28f00#18 rm
  rw [encode, decodeWord_msrReg hc h23 hv (by decide) (by decide) (by decide), hp, hm]
  rfl

theorem decodeWord_encode_msrFlgImm (c : Cond) (p : Bool) (o : ImmOp) :
    decodeWord (encode (.msrFlgImm c p o)) = .ok (.msrFlgImm c p o) := by
  obtain ⟨hc, h23, hp, hv, ho⟩ := msrFlgImm_fields c p o
  generalize encode (.msrFlgImm c p o) = w at *
  obtain ⟨hk, hspace⟩ := class_of_field_23 h23
  have h20 : bit w 20 = false := bit_of_field hv (k := 8) (by decide)
  rw [decodeWord_of_code hc, decodeClass_one hk, inPsrSpace_iff.2 ⟨hspace, h20⟩, decodePsrImm, hv, hp, immField_of_bits ho]
  rfl

section

variable {c : Cond} {w : Word}

theorem encode_mrs_of_fields (hc : field w 28 4 = c.code) (h23 : field w 23 5 = 2#5) (h16 : field w 16 6 = 0x0f#6)
    (h0 : field w 0 12 = 0#12) : encode (.mrs c (bit w 22) (field w 12 4)) = w := by
  simp (disch := decide) only [encode, flag_bit, ← hc, ← h23, ← h16, ← h0, field_append_field]
  exact field_all w

/-- The format of the two MSR instructions with a register (`msrReg_fields`). -/
theorem msrReg_of_fields {v : BitVec 18} (hc : field w 28 4 = c.code) (h23 : field w 23 5 = 2#5)
    (hv : field w 4 18 = v) : (c.code ++ 2#5 ++ flag (bit w 22) ++ v ++ field w 0 4 : Word) = w := by
  simp (disch := decide) only [flag_bit, ← hc, ← h23, ← hv, field_append_field]
  exact field_all w

theorem encode_msrFlgImm_of_fields (hc : field w 28 4 = c.code) (h23 : field w 23 5 = 6#5)
    (hv : field w 12 10 = 0x28f#10) : encode (.msrFlgImm c (bit w 22) (immField w)) = w := by
  simp (disch := decide) only [encode, immField_bits, flag_bit, ← hc, ← h23, ← hv, field_append_field]
  exact field_all w

theorem encode_of_decodePsrReg {i : Instr} (hc : field w 28 4 = c.code) (h23 : field w 23 5 = 2#5)
    (h : decodePsrReg c w = .ok i) : encode i = w := by
  unfold decodePsrReg at h
  split at h
  · rename_i hmrs
    simp only [Bool.and_eq_true, beq_iff_eq] at hmrs
    obtain ⟨h16, h0⟩ := hmrs
    cases h
    exact encode_mrs_of_fields hc h23 h16 h0
  · split at h
    · rename_i hv
      cases h
      exact msrReg_of_fields hc h23 (beq_iff_eq.1 hv)
    · split at h
      · rename_i hv
        cases h
        exact msrReg_of_fields hc h23 (beq_iff_eq.1 hv)
      · cases h

theorem encode_of_decodePsrImm {i : Instr} (hc : field w 28 4 = c.code) (h23 : field w 23 5 = 6#5)
    (h : decodePsrImm c w = .ok i) : encode i = w := by
  unfold decodePsrImm at h
  split at h
  · rename_i hv
    cases h
    exact encode_msrFlgImm_of_fields hc h23 (beq_iff_eq.1 hv)
  · cases h

end

/-! ### Single data transfer (R94) -/

theorem transferWord_fields (c : Cond) (reg : Bool) (ix : Index) (load : Bool) (rn rd : Reg) (off : BitVec 12) :
    let w := transferWord c reg ix load rn rd off
    field w 28 4 = c.code ∧ field w 26 2 = 1#2 ∧ bit w 25 = reg ∧ indexField w = ix ∧ bit w 22 = false ∧ bit w 20 = load ∧
      field w 16 4 = rn ∧ field w 12 4 = rd ∧ field w 0 12 = off := by
  simp (disch := decide) only [transferWord, indexField, field, bit_eq_field, BitVec.extractLsb'_append_eq_of_le,
    BitVec.extractLsb'_append_eq_of_add_le, BitVec.extractLsb'_eq_self, Nat.reduceSub, getLsbD_flag, and_self]
  decide

theorem transferWord_of_fields {c : Cond} {w : Word} (hc : field w 28 4 = c.code) (h26 : field w 26 2 = 1#2)
    (h22 : bit w 22 = false) : transferWord c (bit w 25) (indexField w) (bit w 20) (field w 16 4) (field w 12 4)
      (field w 0 12) = w := by
  have h22 : field w 22 1 = 0#1 := field_one_of_bit h22
  simp (disch := decide) only [transferWord, indexField, flag_bit, ← hc, ← h26, ← h22, field_append_field]
  exact field_all w

theorem decodeWord_transferImm (c : Cond) (ix : Index) (load : Bool) (rn rd : Reg) (off : BitVec 12) :
    decodeWord (transferWord c false ix load rn rd off) =
      .ok (if load then .ldrImm c ix rn rd off else .strImm c ix rn rd off) := by
  obtain ⟨hc, h26, h25, hix, h22, hl, hn, hd, ho⟩ := transferWord_fields c false ix load rn rd off
  rw [decodeWord_of_code hc, decodeClass_two (class_of_bits h26 h25 (by decide)), decodeTransferImm, h22, hl, hix, hn, hd, ho]
  cases load <;> rfl

theorem decodeWord_transferReg (c : Cond) (ix : Index) (load : Bool) (rn rd : Reg) (o : ShImm) :
    decodeWord (transferWord c true ix load rn rd o.bits) =
      .ok (if load then .ldrReg c ix rn rd o else .strReg c ix rn rd o) := by
  obtain ⟨hc, h26, h25, hix, h22, hl, hn, hd, ho⟩ := transferWord_fields c true ix load rn rd o.bits
  obtain ⟨hsh, h4⟩ := shImmField_of_bits ho
  rw [decodeWord_of_code hc, decodeClass_three (class_of_bits h26 h25 (by decide)), h4, decodeTransferReg, h22, hl, hix, hn,
    hd, hsh]
  cases load <;> rfl

theorem encode_of_decodeTransferImm {c : Cond} {w : Word} {i : Instr} (hc : field w 28 4 = c.code)
    (hk : field w 25 3 = 2#3) (h : decodeTransferImm c w = .ok i) : encode i = w := by
  have h26 : field w 26 2 = 1#2 := field_26_eq w ▸ hk ▸ by decide
  have h25 : bit w 25 = false := bit_25_eq w ▸ hk ▸ by decide
  unfold decodeTransferImm at h
  cases h22 : bit w 22 with
  | true =>
    rw [h22] at h
    cases h
  | false =>
    have hw := transferWord_of_fields hc h26 h22
    rw [h25] at hw
    cases h20 : bit w 20 <;> rw [h22, h20] at h <;> rw [h20] at hw <;> cases h <;> exact hw

theorem encode_of_decodeTransferReg {c : Cond} {w : Word} {i : Instr} (hc : field w 28 4 = c.code)
    (hk : field w 25 3 = 3#3) (h4 : bit w 4 = false) (h : decodeTransferReg c w = .ok i) : encode i = w := by
  have h26 : field w 26 2 = 1#2 := field_26_eq w ▸ hk ▸ by decide
  have h25 : bit w 25 = true := bit_25_eq w ▸ hk ▸ by decide
  unfold decodeTransferReg at h
  cases h22 : bit w 22 with
  | true =>
    rw [h22] at h
    cases h
  | false =>
    have hw := transferWord_of_fields hc h26 h22
    rw [h25, ← shImmField_bits h4] at hw
    cases h20 : bit w 20 <;> rw [h22, h20] at h <;> rw [h20] at hw <;> cases h <;> exact hw

/-! ### Block data transfer (R97) -/

theorem blockWord_fields (c : Cond) (bm : BlockMode) (load : Bool) (rn : Reg) (list : BitVec 16) :
    let w := blockWord c bm load rn list
    field w 28 4 = c.code ∧ field w 25 3 = 4#3 ∧ blockField w = bm ∧ bit w 20 = load ∧ field w 16 4 = rn ∧
      field w 0 16 = list := by
  simp (disch := decide) only [blockWord, blockField, field, bit_eq_field, BitVec.extractLsb'_append_eq_of_le,
    BitVec.extractLsb'_append_eq_of_add_le, BitVec.extractLsb'_eq_self, Nat.reduceSub, getLsbD_flag, and_self]

theorem blockWord_of_fields {c : Cond} {w : Word} (hc : field w 28 4 = c.code) (hk : field w 25 3 = 4#3) :
    blockWord c (blockField w) (bit w 20) (field w 16 4) (field w 0 16) = w := by
  simp (disch := decide) only [blockWord, blockField, flag_bit, ← hc, ← hk, field_append_field]
  exact field_all w

theorem decodeWord_blockWord (c : Cond) (bm : BlockMode) (load : Bool) (rn : Reg) (list : BitVec 16) :
    decodeWord (blockWord c bm load rn list) = .ok (if load then .ldm c bm rn list else .stm c bm rn list) := by
  obtain ⟨hc, hk, hbm, hl, hn, hlist⟩ := blockWord_fields c bm load rn list
  rw [decodeWord_of_code hc, decodeClass_four hk, hbm, hl, hn, hlist]
  cases load <;> rfl

/-! ### Branches, SWI and the undefined space (R98, R99, R100) -/

/-- The format of B, BL and SWI: bits [27:24] say which. -/
theorem codeWord_fields (c : Cond) (v : BitVec 4) (off : BitVec 24) :
    let w : Word := c.code ++ v ++ off
    field w 28 4 = c.code ∧ field w 24 4 = v ∧ field w 0 24 = off := by
  simp (disch := decide) only [field, BitVec.extractLsb'_append_eq_of_le, BitVec.extractLsb'_append_eq_of_add_le,
    BitVec.extractLsb'_eq_self, Nat.reduceSub, and_self]

/-- The class of a word from bits [27:24]. -/
theorem class_of_field_24 {w : Word} {v : BitVec 4} (h : field w 24 4 = v) :
    field w 25 3 = v.extractLsb' 1 3 ∧ bit w 24 = v.getLsbD 0 := by
  rw [← h, extractLsb'_field w 24 (by decide), getLsbD_field w 24 (by decide)]
  exact ⟨rfl, rfl⟩

theorem field_24_eq (w : Word) : field w 24 4 = field w 25 3 ++ flag (bit w 24) := by
  rw [flag_bit]
  exact (field_append_field (m := 3) (n := 1) rfl).symm

theorem decodeWord_encode_b (c : Cond) (off : BitVec 24) : decodeWord (encode (.b c off)) = .ok (.b c off) := by
  obtain ⟨hc, hv, ho⟩ := codeWord_fields c 0xa#4 off
  obtain ⟨hk, h24⟩ := class_of_field_24 hv
  rw [encode, decodeWord_of_code hc, decodeClass_five hk, h24, ho]
  rfl

theorem decodeWord_encode_bl (c : Cond) (off : BitVec 24) : decodeWord (encode (.bl c off)) = .ok (.bl c off) := by
  obtain ⟨hc, hv, ho⟩ := codeWord_fields c 0xb#4 off
  obtain ⟨hk, h24⟩ := class_of_field_24 hv
  rw [encode, decodeWord_of_code hc, decodeClass_five hk, h24, ho]
  rfl

theorem decodeWord_encode_swi (c : Cond) (comment : BitVec 24) :
    decodeWord (encode (.swi c comment)) = .ok (.swi c comment) := by
  obtain ⟨hc, hv, ho⟩ := codeWord_fields c 0xf#4 comment
  obtain ⟨hk, h24⟩ := class_of_field_24 hv
  rw [encode, decodeWord_of_code hc, decodeClass_seven hk, decodeSwiCop, h24, ho]
  rfl

theorem undef_fields (c : Cond) (hi : BitVec 20) (lo : BitVec 4) :
    let w := encode (.undef c hi lo)
    field w 28 4 = c.code ∧ field w 25 3 = 3#3 ∧ field w 5 20 = hi ∧ field w 4 1 = 1#1 ∧ field w 0 4 = lo := by
  simp (disch := decide) only [encode, field, BitVec.extractLsb'_append_eq_of_le, BitVec.extractLsb'_append_eq_of_add_le,
    BitVec.extractLsb'_eq_self, Nat.reduceSub, and_self]

theorem decodeWord_encode_undef (c : Cond) (hi : BitVec 20) (lo : BitVec 4) :
    decodeWord (encode (.undef c hi lo)) = .ok (.undef c hi lo) := by
  obtain ⟨hc, hk, hhi, h4, hlo⟩ := undef_fields c hi lo
  rw [decodeWord_of_code hc, decodeClass_three hk, bit_eq_field, h4, hhi, hlo]
  rfl

section

variable {c : Cond} {w : Word}

theorem encode_b_of_fields (hc : field w 28 4 = c.code) (hk : field w 25 3 = 5#3) (h24 : bit w 24 = false) :
    encode (.b c (field w 0 24)) = w := by
  have hv : field w 24 4 = 0xa#4 := by rw [field_24_eq, hk, h24]; rfl
  simp (disch := decide) only [encode, ← hc, ← hv, field_append_field]
  exact field_all w

theorem encode_bl_of_fields (hc : field w 28 4 = c.code) (hk : field w 25 3 = 5#3) (h24 : bit w 24 = true) :
    encode (.bl c (field w 0 24)) = w := by
  have hv : field w 24 4 = 0xb#4 := by rw [field_24_eq, hk, h24]; rfl
  simp (disch := decide) only [encode, ← hc, ← hv, field_append_field]
  exact field_all w

theorem encode_swi_of_fields (hc : field w 28 4 = c.code) (hk : field w 25 3 = 7#3) (h24 : bit w 24 = true) :
    encode (.swi c (field w 0 24)) = w := by
  have hv : field w 24 4 = 0xf#4 := by rw [field_24_eq, hk, h24]; rfl
  simp (disch := decide) only [encode, ← hc, ← hv, field_append_field]
  exact field_all w

theorem encode_undef_of_fields (hc : field w 28 4 = c.code) (hk : field w 25 3 = 3#3) (h4 : bit w 4 = true) :
    encode (.undef c (field w 5 20) (field w 0 4)) = w := by
  have h4 : field w 4 1 = 1#1 := field_one_of_bit h4
  simp (disch := decide) only [encode, ← hc, ← hk, ← h4, field_append_field]
  exact field_all w

end

/-! ### Coprocessor instructions (R101) -/

theorem copTransferWord_fields (c : Cond) (ix : CopIndex) (load : Bool) (rn : Reg) (crd cp : BitVec 4) (off : BitVec 8) :
    let w := copTransferWord c ix load rn crd cp off
    field w 28 4 = c.code ∧ field w 25 3 = 6#3 ∧ copIndexField w = ix ∧ bit w 20 = load ∧ field w 16 4 = rn ∧
      field w 12 4 = crd ∧ field w 8 4 = cp ∧ field w 0 8 = off := by
  simp (disch := decide) only [copTransferWord, copIndexField, field, bit_eq_field, BitVec.extractLsb'_append_eq_of_le,
    BitVec.extractLsb'_append_eq_of_add_le, BitVec.extractLsb'_eq_self, Nat.reduceSub, getLsbD_flag, and_self]

theorem copTransferWord_of_fields {c : Cond} {w : Word} (hc : field w 28 4 = c.code) (hk : field w 25 3 = 6#3) :
    copTransferWord c (copIndexField w) (bit w 20) (field w 16 4) (field w 12 4) (field w 8 4) (field w 0 8) = w := by
  simp (disch := decide) only [copTransferWord, copIndexField, flag_bit, ← hc, ← hk, field_append_field]
  exact field_all w

theorem decodeWord_copTransferWord (c : Cond) (ix : CopIndex) (load : Bool) (rn : Reg) (crd cp : BitVec 4)
    (off : BitVec 8) : decodeWord (copTransferWord c ix load rn crd cp off) =
      .ok (if load then .ldc c ix rn crd cp off else .stc c ix rn crd cp off) := by
  obtain ⟨hc, hk, hix, hl, hn, hd, hcp, ho⟩ := copTransferWord_fields c ix load rn crd cp off
  rw [decodeWord_of_code hc, decodeClass_six hk, hix, hl, hn, hd, hcp, ho]
  cases load <;> rfl

theorem cdp_fields (c : Cond) (opc crn crd cp : BitVec 4) (info : BitVec 3) (crm : BitVec 4) :
    let w := encode (.cdp c opc crn crd cp info crm)
    field w 28 4 = c.code ∧ field w 24 4 = 0xe#4 ∧ field w 20 4 = opc ∧ field w 16 4 = crn ∧ field w 12 4 = crd ∧
      field w 8 4 = cp ∧ field w 5 3 = info ∧ field w 4 1 = 0#1 ∧ field w 0 4 = crm := by
  simp (disch := decide) only [encode, field, BitVec.extractLsb'_append_eq_of_le, BitVec.extractLsb'_append_eq_of_add_le,
    BitVec.extractLsb'_eq_self, Nat.reduceSub, and_self]

theorem copRegWord_fields (c : Cond) (opc : BitVec 3) (load : Bool) (crn : BitVec 4) (rd : Reg) (cp : BitVec 4)
    (info : BitVec 3) (crm : BitVec 4) :
    let w := copRegWord c opc load crn rd cp info crm
    field w 28 4 = c.code ∧ field w 24 4 = 0xe#4 ∧ field w 21 3 = opc ∧ bit w 20 = load ∧ field w 16 4 = crn ∧
      field w 12 4 = rd ∧ field w 8 4 = cp ∧ field w 5 3 = info ∧ field w 4 1 = 1#1 ∧ field w 0 4 = crm := by
  simp (disch := decide) only [copRegWord, field, bit_eq_field, BitVec.extractLsb'_append_eq_of_le,
    BitVec.extractLsb'_append_eq_of_add_le, BitVec.extractLsb'_eq_self, Nat.reduceSub, getLsbD_flag, and_self]

theorem decodeWord_encode_cdp (c : Cond) (opc crn crd cp : BitVec 4) (info : BitVec 3) (crm : BitVec 4) :
    decodeWord (encode (.cdp c opc crn crd cp info crm)) = .ok (.cdp c opc crn crd cp info crm) := by
  obtain ⟨hc, h24, ho, hn, hd, hcp, hi, h4, hm⟩ := cdp_fields c opc crn crd cp info crm
  obtain ⟨hk, h24⟩ := class_of_field_24 h24
  rw [decodeWord_of_code hc, decodeClass_seven hk, decodeSwiCop, h24, bit_eq_field _ 4, h4, ho, hn, hd, hcp, hi, hm]
  rfl

theorem decodeWord_copRegWord (c : Cond) (opc : BitVec 3) (load : Bool) (crn : BitVec 4) (rd : Reg) (cp : BitVec 4)
    (info : BitVec 3) (crm : BitVec 4) : decodeWord (copRegWord c opc load crn rd cp info crm) =
      .ok (if load then .mrc c opc crn rd cp info crm else .mcr c opc crn rd cp info crm) := by
  obtain ⟨hc, h24, ho, hl, hn, hd, hcp, hi, h4, hm⟩ := copRegWord_fields c opc load crn rd cp info crm
  obtain ⟨hk, h24⟩ := class_of_field_24 h24
  rw [decodeWord_of_code hc, decodeClass_seven hk, decodeSwiCop, h24, bit_eq_field _ 4, h4, hl, ho, hn, hd, hcp, hi, hm]
  cases load <;> rfl

section

variable {c : Cond} {w : Word}

theorem encode_cdp_of_fields (hc : field w 28 4 = c.code) (hk : field w 25 3 = 7#3) (h24 : bit w 24 = false)
    (h4 : bit w 4 = false) : encode (.cdp c (field w 20 4) (field w 16 4) (field w 12 4) (field w 8 4) (field w 5 3)
      (field w 0 4)) = w := by
  have hv : field w 24 4 = 0xe#4 := by rw [field_24_eq, hk, h24]; rfl
  have h4 : field w 4 1 = 0#1 := field_one_of_bit h4
  simp (disch := decide) only [encode, ← hc, ← hv, ← h4, field_append_field]
  exact field_all w

theorem copRegWord_of_fields (hc : field w 28 4 = c.code) (hk : field w 25 3 = 7#3) (h24 : bit w 24 = false)
    (h4 : bit w 4 = true) : copRegWord c (field w 21 3) (bit w 20) (field w 16 4) (field w 12 4) (field w 8 4)
      (field w 5 3) (field w 0 4) = w := by
  have hv : field w 24 4 = 0xe#4 := by rw [field_24_eq, hk, h24]; rfl
  have h4 : field w 4 1 = 1#1 := field_one_of_bit h4
  simp (disch := decide) only [copRegWord, flag_bit, ← hc, ← hv, ← h4, field_append_field]
  exact field_all w

theorem encode_decodeSwiCop (hc : field w 28 4 = c.code) (hk : field w 25 3 = 7#3) : encode (decodeSwiCop c w) = w := by
  unfold decodeSwiCop
  cases h24 : bit w 24 with
  | true => exact encode_swi_of_fields hc hk h24
  | false =>
    cases h4 : bit w 4 with
    | false => exact encode_cdp_of_fields hc hk h24 h4
    | true =>
      have hw := copRegWord_of_fields hc hk h24 h4
      cases h20 : bit w 20 <;> rw [h20] at hw <;> exact hw

end

/-! ### The round trips -/

/-- Settles O1, format by format: every field of an encoded word reads what was written there. -/
theorem decodeEncodeRoundTrip : Obligations.DecodeEncodeRoundTrip := by
  intro i
  cases i using instr_cases with
  | dp op c sb rn rd o2 => exact decodeWord_encode_dp op c sb rn rd o2
  | mrs c p rd => exact decodeWord_encode_mrs c p rd
  | msrAll c p rm => exact decodeWord_encode_msrAll c p rm
  | msrFlgReg c p rm => exact decodeWord_encode_msrFlgReg c p rm
  | msrFlgImm c p o => exact decodeWord_encode_msrFlgImm c p o
  | ldrImm c ix rn rd v => exact decodeWord_transferImm c ix true rn rd v
  | ldrReg c ix rn rd o => exact decodeWord_transferReg c ix true rn rd o
  | strImm c ix rn rd v => exact decodeWord_transferImm c ix false rn rd v
  | strReg c ix rn rd o => exact decodeWord_transferReg c ix false rn rd o
  | ldm c bm rn list => exact decodeWord_blockWord c bm true rn list
  | stm c bm rn list => exact decodeWord_blockWord c bm false rn list
  | b c off => exact decodeWord_encode_b c off
  | bl c off => exact decodeWord_encode_bl c off
  | swi c comment => exact decodeWord_encode_swi c comment
  | undef c hi lo => exact decodeWord_encode_undef c hi lo
  | cdp c opc crn crd cp info crm => exact decodeWord_encode_cdp c opc crn crd cp info crm
  | ldc c ix rn crd cp off => exact decodeWord_copTransferWord c ix true rn crd cp off
  | stc c ix rn crd cp off => exact decodeWord_copTransferWord c ix false rn crd cp off
  | mrc c opc crn rd cp info crm => exact decodeWord_copRegWord c opc true crn rd cp info crm
  | mcr c opc crn rd cp info crm => exact decodeWord_copRegWord c opc false crn rd cp info crm

/-! Class by class, the instruction a word decodes to is encoded by the word. -/

section

variable {c : Cond} {w : Word} {i : Instr}

theorem encode_of_class_zero (hc : field w 28 4 = c.code) (hk : field w 25 3 = 0#3) (h : decodeClass c w = .ok i) :
    encode i = w := by
  have h26 : field w 26 2 = 0#2 := field_26_eq w ▸ hk ▸ by decide
  have h25 : bit w 25 = false := bit_25_eq w ▸ hk ▸ by decide
  rw [decodeClass_zero hk] at h
  split at h
  · cases h
  · rename_i h47
    split at h
    · rename_i hpsr
      obtain ⟨h23, -⟩ := inPsrSpace_iff.1 hpsr
      exact encode_of_decodePsrReg hc (by rw [field_23_eq, hk, h23]; rfl) h
    · rename_i hpsr
      split at h <;> rename_i h4 <;> cases h
      · exact encode_decodeDp hc h26 (by simpa using hpsr) h25 (shRegField_bits h4 (by simpa [h4] using h47))
      · exact encode_decodeDp hc h26 (by simpa using hpsr) h25 (shImmField_bits (by simpa using h4))

theorem encode_of_class_one (hc : field w 28 4 = c.code) (hk : field w 25 3 = 1#3) (h : decodeClass c w = .ok i) :
    encode i = w := by
  have h26 : field w 26 2 = 0#2 := field_26_eq w ▸ hk ▸ by decide
  have h25 : bit w 25 = true := bit_25_eq w ▸ hk ▸ by decide
  rw [decodeClass_one hk] at h
  split at h
  · rename_i hpsr
    obtain ⟨h23, -⟩ := inPsrSpace_iff.1 hpsr
    exact encode_of_decodePsrImm hc (by rw [field_23_eq, hk, h23]; rfl) h
  · rename_i hpsr
    cases h
    exact encode_decodeDp hc h26 (by simpa using hpsr) h25 immField_bits

theorem encode_of_class_three (hc : field w 28 4 = c.code) (hk : field w 25 3 = 3#3) (h : decodeClass c w = .ok i) :
    encode i = w := by
  rw [decodeClass_three hk] at h
  split at h <;> rename_i h4
  · cases h
    exact encode_undef_of_fields hc hk h4
  · exact encode_of_decodeTransferReg hc hk (by simpa using h4) h

theorem encode_of_class_four (hc : field w 28 4 = c.code) (hk : field w 25 3 = 4#3) (h : decodeClass c w = .ok i) :
    encode i = w := by
  have hw := blockWord_of_fields hc hk
  rw [decodeClass_four hk] at h
  cases h20 : bit w 20 <;> rw [h20] at h hw <;> cases h <;> exact hw

theorem encode_of_class_five (hc : field w 28 4 = c.code) (hk : field w 25 3 = 5#3) (h : decodeClass c w = .ok i) :
    encode i = w := by
  rw [decodeClass_five hk] at h
  cases h24 : bit w 24 <;> rw [h24] at h <;> cases h
  · exact encode_b_of_fields hc hk h24
  · exact encode_bl_of_fields hc hk h24

theorem encode_of_class_six (hc : field w 28 4 = c.code) (hk : field w 25 3 = 6#3) (h : decodeClass c w = .ok i) :
    encode i = w := by
  have hw := copTransferWord_of_fields hc hk
  rw [decodeClass_six hk] at h
  cases h20 : bit w 20 <;> rw [h20] at h hw <;> cases h <;> exact hw

end

/-- Settles O2, class by class: a decoded word is written by its own fields. -/
theorem encodeDecodeRoundTrip : Obligations.EncodeDecodeRoundTrip := by
  intro w i h
  obtain ⟨c, hc, h⟩ := decodeWord_ok h
  rcases class_cases (field w 25 3) with hk | hk | hk | hk | hk | hk | hk | hk
  · exact encode_of_class_zero hc hk h
  · exact encode_of_class_one hc hk h
  · exact encode_of_decodeTransferImm hc hk (decodeClass_two hk ▸ h)
  · exact encode_of_class_three hc hk h
  · exact encode_of_class_four hc hk h
  · exact encode_of_class_five hc hk h
  · exact encode_of_class_six hc hk h
  · rw [decodeClass_seven hk] at h
    cases h
    exact encode_decodeSwiCop hc hk

/-! ### The rows of the opcode table (R107) -/

/-- An encoded instruction has the fixed bits of its row. -/
theorem row_matches_encode (i : Instr) : i.row.matches (encode i) = true := by
  cases i with
  | andImm => exact Laws.EncodeRow.andImm ..
  | andShImm => exact Laws.EncodeRow.andShImm ..
  | andShReg => exact Laws.EncodeRow.andShReg ..
  | eorImm => exact Laws.EncodeRow.eorImm ..
  | eorShImm => exact Laws.EncodeRow.eorShImm ..
  | eorShReg => exact Laws.EncodeRow.eorShReg ..
  | subImm => exact Laws.EncodeRow.subImm ..
  | subShImm => exact Laws.EncodeRow.subShImm ..
  | subShReg => exact Laws.EncodeRow.subShReg ..
  | rsbImm => exact Laws.EncodeRow.rsbImm ..
  | rsbShImm => exact Laws.EncodeRow.rsbShImm ..
  | rsbShReg => exact Laws.EncodeRow.rsbShReg ..
  | addImm => exact Laws.EncodeRow.addImm ..
  | addShImm => exact Laws.EncodeRow.addShImm ..
  | addShReg => exact Laws.EncodeRow.addShReg ..
  | adcImm => exact Laws.EncodeRow.adcImm ..
  | adcShImm => exact Laws.EncodeRow.adcShImm ..
  | adcShReg => exact Laws.EncodeRow.adcShReg ..
  | sbcImm => exact Laws.EncodeRow.sbcImm ..
  | sbcShImm => exact Laws.EncodeRow.sbcShImm ..
  | sbcShReg => exact Laws.EncodeRow.sbcShReg ..
  | rscImm => exact Laws.EncodeRow.rscImm ..
  | rscShImm => exact Laws.EncodeRow.rscShImm ..
  | rscShReg => exact Laws.EncodeRow.rscShReg ..
  | tstImm => exact Laws.EncodeRow.tstImm ..
  | tstShImm => exact Laws.EncodeRow.tstShImm ..
  | tstShReg => exact Laws.EncodeRow.tstShReg ..
  | teqImm => exact Laws.EncodeRow.teqImm ..
  | teqShImm => exact Laws.EncodeRow.teqShImm ..
  | teqShReg => exact Laws.EncodeRow.teqShReg ..
  | cmpImm => exact Laws.EncodeRow.cmpImm ..
  | cmpShImm => exact Laws.EncodeRow.cmpShImm ..
  | cmpShReg => exact Laws.EncodeRow.cmpShReg ..
  | cmnImm => exact Laws.EncodeRow.cmnImm ..
  | cmnShImm => exact Laws.EncodeRow.cmnShImm ..
  | cmnShReg => exact Laws.EncodeRow.cmnShReg ..
  | orrImm => exact Laws.EncodeRow.orrImm ..
  | orrShImm => exact Laws.EncodeRow.orrShImm ..
  | orrShReg => exact Laws.EncodeRow.orrShReg ..
  | movImm => exact Laws.EncodeRow.movImm ..
  | movShImm => exact Laws.EncodeRow.movShImm ..
  | movShReg => exact Laws.EncodeRow.movShReg ..
  | bicImm => exact Laws.EncodeRow.bicImm ..
  | bicShImm => exact Laws.EncodeRow.bicShImm ..
  | bicShReg => exact Laws.EncodeRow.bicShReg ..
  | mvnImm => exact Laws.EncodeRow.mvnImm ..
  | mvnShImm => exact Laws.EncodeRow.mvnShImm ..
  | mvnShReg => exact Laws.EncodeRow.mvnShReg ..
  | mrs => exact Laws.EncodeRow.mrs ..
  | msrAll => exact Laws.EncodeRow.msrAll ..
  | msrFlgReg => exact Laws.EncodeRow.msrFlgReg ..
  | msrFlgImm => exact Laws.EncodeRow.msrFlgImm ..
  | ldrImm => exact Laws.EncodeRow.ldrImm ..
  | ldrReg => exact Laws.EncodeRow.ldrReg ..
  | strImm => exact Laws.EncodeRow.strImm ..
  | strReg => exact Laws.EncodeRow.strReg ..
  | ldm => exact Laws.EncodeRow.ldm ..
  | stm => exact Laws.EncodeRow.stm ..
  | b => exact Laws.EncodeRow.b ..
  | bl => exact Laws.EncodeRow.bl ..
  | swi => exact Laws.EncodeRow.swi ..
  | undef => exact Laws.EncodeRow.undef ..
  | cdp => exact Laws.EncodeRow.cdp ..
  | ldc => exact Laws.EncodeRow.ldc ..
  | stc => exact Laws.EncodeRow.stc ..
  | mrc => exact Laws.EncodeRow.mrc ..
  | mcr => exact Laws.EncodeRow.mcr ..

theorem row_mem_opcodeTable (i : Instr) : i.row ∈ opcodeTable := by
  cases i <;> exact List.mem_of_elem_eq_true rfl

/-- Two rows that demand the same of the bits both fix are the same row. -/
theorem opcodeTable_disjoint : (opcodeTable.all fun r1 => opcodeTable.all fun r2 =>
    r1.value &&& r2.mask != r2.value &&& r1.mask || r1 == r2) = true := by
  decide

/-- The rows that one word matches agree on the bits both fix. -/
theorem value_and_mask_of_matches {r1 r2 : Row} {w : Word} (h1 : r1.matches w = true) (h2 : r2.matches w = true) :
    r1.value &&& r2.mask = r2.value &&& r1.mask := by
  rw [Row.matches, beq_iff_eq] at h1 h2
  rw [← h1, ← h2, BitVec.and_assoc, BitVec.and_assoc, BitVec.and_comm r1.mask]

/-- Settles O3: by the round trip a decoded word is an encoded one, which has the bits of its row; two rows that a word
matches agree where both are fixed, and no two different rows do. -/
theorem decodedWordMatchesItsRow : Obligations.DecodedWordMatchesItsRow := by
  refine ⟨fun w i h => ⟨row_mem_opcodeTable i, ?_⟩, fun r1 hr1 r2 hr2 w h1 h2 => ?_⟩
  · rw [← encodeDecodeRoundTrip w i h]
    exact row_matches_encode i
  · have hrows := List.all_eq_true.1 (List.all_eq_true.1 opcodeTable_disjoint r1 hr1) r2 hr2
    simpa [value_and_mask_of_matches h1 h2] using hrows

/-! ### The refused words (R96, R108) -/

/-- What a row fixes of a field, the words that match it have. -/
theorem field_of_matches {r : Row} {w : Word} {lo len : Nat} (h : r.matches w = true)
    (hm : field r.mask lo len = BitVec.allOnes len) : field w lo len = field r.value lo len := by
  rw [Row.matches, beq_iff_eq] at h
  have hand : field (w &&& r.mask) lo len = field w lo len &&& field r.mask lo len := BitVec.extractLsb'_and
  rw [← h, hand, hm, BitVec.and_allOnes]

section

variable {w : Word}

theorem matches_mrs_iff : Row.matches ⟨0x0FBF0FFF#32, 0x010F0000#32⟩ w = true ↔
    field w 23 5 = 2#5 ∧ field w 16 6 = 0x0f#6 ∧ field w 0 12 = 0#12 := by
  refine ⟨fun h => ⟨field_of_matches h rfl, field_of_matches h rfl, field_of_matches h rfl⟩, fun ⟨h23, h16, h0⟩ => ?_⟩
  exact Laws.matches_or (Laws.matches_field 23 5 2 (congrArg BitVec.toNat h23))
    (Laws.matches_or (Laws.matches_field 16 6 0x0f (congrArg BitVec.toNat h16))
      (Laws.matches_field 0 12 0 (congrArg BitVec.toNat h0)))

theorem matches_msrAll_iff : Row.matches ⟨0x0FBFFFF0#32, 0x0129F000#32⟩ w = true ↔
    field w 23 5 = 2#5 ∧ field w 4 18 = 0x29f00#18 := by
  refine ⟨fun h => ⟨field_of_matches h rfl, field_of_matches h rfl⟩, fun ⟨h23, h4⟩ => ?_⟩
  exact Laws.matches_or (Laws.matches_field 23 5 2 (congrArg BitVec.toNat h23))
    (Laws.matches_field 4 18 0x29f00 (congrArg BitVec.toNat h4))

theorem matches_msrFlgReg_iff : Row.matches ⟨0x0FBFFFF0#32, 0x0128F000#32⟩ w = true ↔
    field w 23 5 = 2#5 ∧ field w 4 18 = 0x28f00#18 := by
  refine ⟨fun h => ⟨field_of_matches h rfl, field_of_matches h rfl⟩, fun ⟨h23, h4⟩ => ?_⟩
  exact Laws.matches_or (Laws.matches_field 23 5 2 (congrArg BitVec.toNat h23))
    (Laws.matches_field 4 18 0x28f00 (congrArg BitVec.toNat h4))

theorem matches_msrFlgImm_iff : Row.matches ⟨0x0FBFF000#32, 0x0328F000#32⟩ w = true ↔
    field w 23 5 = 6#5 ∧ field w 12 10 = 0x28f#10 := by
  refine ⟨fun h => ⟨field_of_matches h rfl, field_of_matches h rfl⟩, fun ⟨h23, h12⟩ => ?_⟩
  exact Laws.matches_or (Laws.matches_field 23 5 6 (congrArg BitVec.toNat h23))
    (Laws.matches_field 12 10 0x28f (congrArg BitVec.toNat h12))

/-- The four encodings of R93, by their fields. -/
theorem isPsrTransfer_iff : isPsrTransfer w = true ↔
    (field w 23 5 = 2#5 ∧ ((field w 16 6 = 0x0f#6 ∧ field w 0 12 = 0#12) ∨ field w 4 18 = 0x29f00#18 ∨
      field w 4 18 = 0x28f00#18)) ∨ (field w 23 5 = 6#5 ∧ field w 12 10 = 0x28f#10) := by
  simp only [isPsrTransfer, Bool.or_eq_true, matches_mrs_iff, matches_msrAll_iff, matches_msrFlgReg_iff,
    matches_msrFlgImm_iff]
  tauto

variable {c : Cond} {e : DecodeError}

theorem decodePsrReg_error (h23 : field w 23 5 = 2#5) :
    decodePsrReg c w = .error e ↔ e = .psrSpaceOther ∧ isPsrTransfer w = false := by
  rw [← Bool.not_eq_true, isPsrTransfer_iff, h23]
  unfold decodePsrReg
  split
  · simp_all
  · split
    · simp_all
    · split <;> simp_all [@eq_comm _ _ e]

theorem decodePsrImm_error (h23 : field w 23 5 = 6#5) :
    decodePsrImm c w = .error e ↔ e = .psrSpaceOther ∧ isPsrTransfer w = false := by
  rw [← Bool.not_eq_true, isPsrTransfer_iff, h23]
  unfold decodePsrImm
  split <;> simp_all [@eq_comm _ _ e]

theorem decodeTransferImm_error : decodeTransferImm c w = .error e ↔ e = .byteTransfer ∧ bit w 22 = true := by
  unfold decodeTransferImm
  cases bit w 22 with
  | true => simp [@eq_comm _ _ e]
  | false => cases bit w 20 <;> simp

theorem decodeTransferReg_error : decodeTransferReg c w = .error e ↔ e = .byteTransfer ∧ bit w 22 = true := by
  unfold decodeTransferReg
  cases bit w 22 with
  | true => simp [@eq_comm _ _ e]
  | false => cases bit w 20 <;> simp

/-- In the class of data processing with a register, the multiply space is refused before the PSR space is looked at. -/
theorem decodeClass_zero_error (hk : field w 25 3 = 0#3) : decodeClass c w = .error e ↔
    (e = .multiplySwapHalfwordSpace ∧ bit w 7 = true ∧ bit w 4 = true) ∨
    (e = .psrSpaceOther ∧ field w 23 2 = 2#2 ∧ bit w 20 = false ∧ ¬ (bit w 7 = true ∧ bit w 4 = true) ∧
      isPsrTransfer w = false) := by
  rw [decodeClass_zero hk]
  split
  · rename_i h47
    rw [Bool.and_comm, Bool.and_eq_true] at h47
    simp [@eq_comm _ _ e, h47]
  · rename_i h47
    rw [Bool.and_comm, Bool.and_eq_true] at h47
    split
    · rename_i hpsr
      obtain ⟨h23, h20⟩ := inPsrSpace_iff.1 hpsr
      rw [decodePsrReg_error (by rw [field_23_eq, hk, h23]; rfl)]
      simp only [h23, h20, h47, and_false, false_or, not_false_iff, true_and]
    · rename_i hpsr
      rw [inPsrSpace_iff, not_and] at hpsr
      split <;> simp_all

theorem decodeClass_one_error (hk : field w 25 3 = 1#3) : decodeClass c w = .error e ↔
    e = .psrSpaceOther ∧ field w 23 2 = 2#2 ∧ bit w 20 = false ∧ isPsrTransfer w = false := by
  rw [decodeClass_one hk]
  split
  · rename_i hpsr
    obtain ⟨h23, h20⟩ := inPsrSpace_iff.1 hpsr
    rw [decodePsrImm_error (by rw [field_23_eq, hk, h23]; rfl)]
    simp only [h23, h20, true_and]
  · rename_i hpsr
    rw [inPsrSpace_iff, not_and] at hpsr
    simp_all

/-- The refusals of a word whose condition is not 1111. -/
theorem decodeClass_error : decodeClass c w = .error e ↔
    (e = .multiplySwapHalfwordSpace ∧ field w 25 3 = 0#3 ∧ bit w 7 = true ∧ bit w 4 = true) ∨
    (e = .psrSpaceOther ∧ field w 26 2 = 0#2 ∧ field w 23 2 = 2#2 ∧ bit w 20 = false ∧
      ¬ (field w 25 3 = 0#3 ∧ bit w 7 = true ∧ bit w 4 = true) ∧ isPsrTransfer w = false) ∨
    (e = .byteTransfer ∧ field w 26 2 = 1#2 ∧ bit w 22 = true ∧ ¬ (bit w 25 = true ∧ bit w 4 = true)) := by
  rw [field_26_eq, bit_25_eq]
  rcases class_cases (field w 25 3) with hk | hk | hk | hk | hk | hk | hk | hk
  · rw [decodeClass_zero_error hk, hk]
    simp
  · rw [decodeClass_one_error hk, hk]
    simp
  · rw [decodeClass_two hk, hk, decodeTransferImm_error]
    simp
  · rw [decodeClass_three hk, hk]
    cases h4 : bit w 4 <;> simp [decodeTransferReg_error]
  · rw [decodeClass_four hk, hk]
    cases bit w 20 <;> simp
  · rw [decodeClass_five hk, hk]
    cases bit w 24 <;> simp
  · rw [decodeClass_six hk, hk]
    cases bit w 20 <;> simp
  · rw [decodeClass_seven hk, hk]
    simp

end

/-- Settles O5: 1111 is refused first, then each class has its own refusals. -/
theorem decodeRefusesExactly : Obligations.DecodeRefusesExactly := by
  intro w e
  by_cases hnv : field w 28 4 = 15#4
  · simp [decodeWord_of_nv hnv, hnv, @eq_comm _ _ e]
  · obtain ⟨c, hc⟩ := exists_code hnv
    rw [decodeWord_of_code hc, decodeClass_error]
    simp [hnv]

/-- Settles O6: the decoder run on each word. -/
theorem sampleWordsDecode : Obligations.SampleWordsDecode := by
  refine ⟨?_, ?_, ?_, ?_, ?_, ?_, ?_, ?_, ?_, ?_⟩ <;> decide

end Sys2Proof

namespace Sys2Proof.Machine

open Sys2Proof.Claims

/-! ### The condition field (R95) -/

/-- Every instruction runs in the frame of the condition, so a failed one only advances the PC. -/
theorem exec_failed {i : Instr} {s : State} (h : conditionPassed i.cond s.cpsr.flags = false) :
    exec i s = .next (advanced s) := by
  cases i using instr_cases with
  | dp op c sb rn rd o2 =>
    rw [cond_dp] at h
    rw [exec_dp]
    exact conditional_failed h
  | mrs c p rd => exact (conditional_failed h : execMrs c p rd s = _)
  | msrAll c p rm => exact (conditional_failed h : execMsrAll c p rm s = _)
  | msrFlgReg c p rm => exact (conditional_failed h : execMsrFlgReg c p rm s = _)
  | msrFlgImm c p o => exact (conditional_failed h : execMsrFlgImm c p o s = _)
  | b c off => exact (conditional_failed h : execB c off s = _)
  | bl c off => exact (conditional_failed h : execBl c off s = _)
  | swi c comment => exact (conditional_failed h : execSwi c comment s = _)
  | undef c hi lo => exact (conditional_failed h : execUndef c hi lo s = _)
  | _ => exact conditional_failed h

/-- Settles O18: the tests are the rows of R95's table, and every instruction runs in the frame of its condition. -/
theorem conditionField : Obligations.ConditionField := by
  refine ⟨fun f => ?_, fun i s h => exec_failed h⟩
  refine ⟨rfl, rfl, rfl, rfl, rfl, rfl, rfl, rfl, rfl, rfl, rfl, ?_, rfl, ?_, rfl⟩ <;> rw [decide_not] <;> rfl

/-! ### Steps that stop (R108, R221) -/

theorem fetch_word {s : State} {w : Word} (ha : s.aborted .fetch s.pcBits = false) (hw : s.mem.word s.pcBits = some w) :
    fetch s = .word w := by
  simp [fetch, ha, hw]

theorem fetch_unpopulated {s : State} (ha : s.aborted .fetch s.pcBits = false) (hw : s.mem.word s.pcBits = none) :
    fetch s = .unpopulated := by
  simp [fetch, ha, hw]

/-- A refused word is not run, whatever the state. -/
theorem runWord_error {w : Word} {e : DecodeError} (h : decodeWord w = .error e) (s : State) :
    runWord w s = .refused (.undecodable e) := by
  simp only [runWord, h]

section

variable {s : State} (hr : resetSeen s = false) (hf : fiqTaken (sample s) = false) (hi : irqTaken (sample s) = false)
include hr hf hi

/-- With no reset and no interrupt, a step runs the word that the fetch answers (R221). -/
theorem step_of_word {w : Word} (h : fetch (sample s) = .word w) : step s = runWord w (sample s) := by
  simp [step, stepAtBoundary, hr, hf, hi, h]

theorem step_of_unpopulated (h : fetch (sample s) = .unpopulated) : step s = .fault .unmappedFetch := by
  simp [step, stepAtBoundary, hr, hf, hi, h]

end

/-- Settles O17: the step is what the fetched word, or its absence, makes it. -/
theorem stepStopsByName : Obligations.StepStopsByName := by
  intro s hr hf hi ha
  refine ⟨fun w e hw he => ?_, fun hw => step_of_unpopulated hr hf hi (fetch_unpopulated ha hw)⟩
  rw [step_of_word hr hf hi (fetch_word ha hw), runWord_error he]

end Sys2Proof.Machine
end

section
/-! PROOFS. Family 40_branch.md: where B and BL go, and what they leave unchanged. The model adds a 32-bit byte offset
to the PC, the statements add a 30-bit word offset to its word address: `branchOffset_eq` says that the one offset is
the other followed by `00`, and `pc_add_branchOffset` that the two sums name the same word. -/

namespace Sys2Proof.Machine

open Sys2Proof.Claims

/-! ### The target of a branch (30_encoding.md R105, 40_branch.md R130) -/

/-- A jump to the PC of any state. -/
theorem setPc_pc (s u : State) : s.setPc u.pc = { s with pcBits := u.pcBits } := by
  rw [State.setPc, pc_word]

/-- Sign extension keeps the number, so `00` may be appended before it or after it. -/
theorem branchOffset_eq (off : BitVec 24) : branchOffset off = off.signExtend 30 ++ 0#2 := by
  apply BitVec.eq_of_toInt_eq
  rw [branchOffset, BitVec.toInt_signExtend_of_le (by decide), BitVec.toInt_append_zero, BitVec.toInt_append_zero,
    BitVec.toInt_signExtend_of_le (by decide)]

theorem branchOffset_toNat (off : BitVec 24) : (branchOffset off).toNat = 4 * (off.signExtend 30).toNat := by
  rw [branchOffset_eq, toNat_cat, Nat.mul_comm]
  rfl

/-- The byte offset as R130 states it: sign-extended to a word and shifted left by two. -/
theorem branchOffset_eq_shiftLeft (off : BitVec 24) : branchOffset off = off.signExtend 32 <<< 2 := by
  rw [branchOffset_eq]
  apply BitVec.eq_of_getLsbD_eq
  intro k hk
  simp only [BitVec.getLsbD_shiftLeft, BitVec.getLsbD_signExtend, BitVec.getLsbD_append]
  by_cases h2 : k < 2
  · simp [h2]
  · simp [h2, hk, show k - 2 < 32 by omega, show k - 2 < 30 by omega]

/-- The state after a branch in `s`: nothing but the PC is new, and the mark of R290 is gone. -/
def branched (off : BitVec 24) (s : State) : State :=
  { s with pcBits := s.pcBits + 2 + off.signExtend 30, userLdm := false }

/-- The address that B and BL compute is the PC of `branched`: both sides are four times the word address. -/
theorem pc_add_branchOffset (off : BitVec 24) (s : State) : s.pc + 8 + branchOffset off = (branched off s).pc := by
  apply BitVec.eq_of_toNat_eq
  rw [BitVec.toNat_add, BitVec.toNat_add, branchOffset_toNat, pc_toNat, pc_toNat, branched, BitVec.toNat_add,
    BitVec.toNat_add]
  simp only [BitVec.reduceToNat]
  omega

/-- The target as the statements write it, where `8` is a natural number cast to a word. -/
theorem branched_pc (off : BitVec 24) (s : State) : (branched off s).pc = s.pc + 8 + (off.signExtend 32 <<< 2) := by
  rw [← pc_add_branchOffset, branchOffset_eq_shiftLeft]
  rfl

/-- A jump to the target of a branch. -/
theorem setPc_branchOffset (off : BitVec 24) (s u : State) :
    u.setPc (s.pc + 8 + branchOffset off) = { u with pcBits := (branched off s).pcBits } := by
  rw [pc_add_branchOffset, setPc_pc]

/-! ### B and BL -/

/-- An instruction that reads no register by number is never stopped by the hazard of R290. -/
theorem executes_nil {c : Cond} {s : State} (h : conditionPassed c s.cpsr.flags = true) : executes c [] s :=
  ⟨h, fun _ _ hr => absurd hr List.not_mem_nil⟩

/-- The whole next state of a B whose condition holds (R130). -/
theorem exec_b {c : Cond} {off : BitVec 24} {s : State} (h : conditionPassed c s.cpsr.flags = true) :
    exec (.b c off) s = .next (branched off s) := by
  change execB c off s = _
  rw [execB, conditional_executes (executes_nil h), setPc_branchOffset]
  rfl

/-- The whole next state of a BL whose condition holds: as of a B, but for R14 of the current mode (R131). -/
theorem exec_bl {c : Cond} {off : BitVec 24} {s : State} {p : PhysReg} (h : conditionPassed c s.cpsr.flags = true)
    (hp : phys s.cpsr.mode 14 = some p) :
    exec (.bl c off) s = .next ((branched off s).setGpr p (s.pc + 4)) := by
  change execBl c off s = _
  rw [execBl, conditional_executes (executes_nil h), writeReg_of_phys (s := s.setUserLdm false) _ hp,
    setPc_branchOffset]
  rfl

/-- Settles O50: the next state is `branched`. -/
theorem branchTarget : Obligations.BranchTarget := fun s _ off hc =>
  ⟨branched off s, exec_b hc, rfl, rfl, branched_pc off s⟩

/-- Settles O51: the next state is `branched` with the link written, which leaves the PC alone. -/
theorem branchWithLink : Obligations.BranchWithLink := fun s _ off p hc hp =>
  ⟨(branched off s).setGpr p (s.pc + 4), exec_bl hc hp, rfl, rfl, branched_pc off s⟩

end Sys2Proof.Machine
end

section
/-! PROOFS. Family 41_data_processing.md: the shifter, the sixteen operations and what they write, and the operand
combinations that are refused. The shifts are arithmetic on words said once for both forms of amount
(`shiftByReg_eq_shiftByImm`); the operations are `AddWithCarry` as arithmetic, in `alu_adc`, `alu_sbc` and `alu_rsc`, of
which ADD, SUB and RSB are the cases of a known carry; and what an instruction makes of an operation's answer is said
in one equation for each place the answer can go, `exec_dp_wrote`, `exec_dp_compared`, `exec_dp_jumped` and
`exec_dp_returned`. -/

namespace Sys2Proof.Machine

open Sys2Proof.Claims

/-! ### Shifts and rotations as arithmetic (00_scope.md R10) -/

theorem msb_eq_bit31 (m : Word) : m.msb = m.getLsbD 31 := BitVec.msb_eq_getLsbD_last m

theorem shiftLeft_eq_ofNat_mul (m : Word) (n : Nat) : m <<< n = BitVec.ofNat 32 (m.toNat * 2 ^ n) := by
  apply BitVec.eq_of_toNat_eq
  rw [BitVec.toNat_shiftLeft, BitVec.toNat_ofNat, Nat.shiftLeft_eq]

theorem ushiftRight_eq_ofNat_div (m : Word) (n : Nat) : m >>> n = BitVec.ofNat 32 (m.toNat / 2 ^ n) := by
  apply BitVec.eq_of_toNat_eq
  have hlt : m.toNat / 2 ^ n < 2 ^ 32 := (Nat.div_le_self _ _).trans_lt m.isLt
  rw [BitVec.toNat_ushiftRight, BitVec.toNat_ofNat, Nat.shiftRight_eq_div_pow, Nat.mod_eq_of_lt hlt]

theorem sshiftRight_eq_ofInt_div (m : Word) (n : Nat) : m.sshiftRight n = BitVec.ofInt 32 (m.toInt / 2 ^ n) := by
  rw [BitVec.sshiftRight, Int.shiftRight_eq_div_pow]
  norm_cast

theorem isRotation_rotateRight (m : Word) (n : Nat) : isRotation (m.rotateRight n) m n := by
  intro k hk
  rw [BitVec.getLsbD_rotateRight, Bool.cond_decide]
  split
  · congr 1
    omega
  · rw [decide_eq_true hk, Bool.true_and]
    congr 1
    omega

/-! ### The shifter (R141 to R146) -/

section
variable {n : Nat} (m : Word) (cin : Bool)

theorem shiftByImm_lsl (h : n ≠ 0) :
    shiftByImm .lsl n m cin = (BitVec.ofNat 32 (m.toNat * 2 ^ n), m.getLsbD (32 - n)) := by
  rw [shiftByImm, if_neg h, shiftLeft_eq_ofNat_mul]

theorem shiftByImm_lsr (h : n ≠ 0) :
    shiftByImm .lsr n m cin = (BitVec.ofNat 32 (m.toNat / 2 ^ n), m.getLsbD (n - 1)) := by
  rw [shiftByImm, if_neg h, ushiftRight_eq_ofNat_div]

theorem shiftByImm_asr (h : n ≠ 0) :
    shiftByImm .asr n m cin = (BitVec.ofInt 32 (m.toInt / 2 ^ n), m.getLsbD (n - 1)) := by
  rw [shiftByImm, if_neg h, sshiftRight_eq_ofInt_div]

theorem shiftByImm_ror (h : n ≠ 0) : shiftByImm .ror n m cin = (m.rotateRight n, m.getLsbD (n - 1)) := by
  rw [shiftByImm, if_neg h]

/-- LSR by an immediate 0, which means 32 (R143). -/
theorem shiftByImm_lsr_zero : shiftByImm .lsr 0 m cin = (0, m.getLsbD 31) := by
  rw [shiftByImm, if_pos rfl, msb_eq_bit31]

/-- ASR by an immediate 0, which means 32 (R144). -/
theorem shiftByImm_asr_zero :
    shiftByImm .asr 0 m cin = (if m.getLsbD 31 then 0xFFFFFFFF#32 else 0#32, m.getLsbD 31) := by
  rw [shiftByImm, if_pos rfl, msb_eq_bit31]
  rfl

/-- Below 32 a register amount other than 0 shifts as an immediate amount does (R146). -/
theorem shiftByReg_eq_shiftByImm (t : ShiftType) (h0 : n ≠ 0) (h : n < 32) :
    shiftByReg t n m cin = shiftByImm t n m cin := by
  cases t <;> simp [shiftByReg, shiftByImm, h0, h, Nat.mod_eq_of_lt h]

/-- ASR by 32 or more fills the word with bit 31, as ASR by an immediate 0 does (R146). -/
theorem shiftByReg_asr_ge (h : 32 ≤ n) : shiftByReg .asr n m cin = shiftByImm .asr 0 m cin := by
  simp [shiftByReg, shiftByImm, show n ≠ 0 by omega, Nat.not_lt.mpr h]

/-- ROR by a multiple of 32 other than 0 (R146). -/
theorem shiftByReg_ror_multiple (h0 : n ≠ 0) (h : n % 32 = 0) : shiftByReg .ror n m cin = (m, m.getLsbD 31) := by
  simp [shiftByReg, h0, h, msb_eq_bit31]

/-- ROR by an amount that is no multiple of 32 (R146). -/
theorem shiftByReg_ror (h : n % 32 ≠ 0) :
    shiftByReg .ror n m cin = (m.rotateRight (n % 32), m.getLsbD (n % 32 - 1)) := by
  simp [shiftByReg, show n ≠ 0 by omega, h]

/-- The carry of a rotation is the bit that enters at the top (R145). -/
theorem getLsbD_31_rotateRight (h0 : n ≠ 0) (h : n < 32) : (m.rotateRight n).getLsbD 31 = m.getLsbD (n - 1) := by
  rw [isRotation_rotateRight m n 31 (by decide)]
  congr 1
  omega

end

theorem shifter_shImm (n : BitVec 5) (t : ShiftType) (rm : Reg) (s : State) :
    shifter (.shImm ⟨n, t, rm⟩) s = shiftByImm t n.toNat (s.readReg rm 8) s.cpsr.flags.c := rfl

/-- A shift by register takes its amount modulo 256 (R146). -/
theorem shifter_shReg (rs rm : Reg) (t : ShiftType) (s : State) : shifter (.shReg ⟨rs, t, rm⟩) s =
    shiftByReg t ((s.readReg rs 12).toNat % 256) (s.readReg rm 12) s.cpsr.flags.c := by
  rw [shifter, BitVec.extractLsb'_toNat, Nat.shiftRight_zero]

/-- Settles O20: the operand is a rotation by `2 * rotate`, and its sign bit is its bit 31. -/
theorem shifterImmediate : Obligations.ShifterImmediate := fun _ rotate imm8 =>
  ⟨isRotation_rotateRight (imm8.zeroExtend 32) (2 * rotate.toNat), by
    rw [← msb_eq_bit31]
    rfl⟩

/-- Settles O21: amount 0 leaves the word alone, any other multiplies it. -/
theorem shifterLslImmediate : Obligations.ShifterLslImmediate := by
  rintro s rm n m rfl
  rw [shifter_shImm]
  refine ⟨?_, fun h => shiftByImm_lsl _ _ (BitVec.toNat_ne.mp h)⟩
  rintro rfl
  rfl

/-- Settles O22: amount 0 means 32, any other divides the unsigned word. -/
theorem shifterLsrImmediate : Obligations.ShifterLsrImmediate := by
  rintro s rm n m rfl
  rw [shifter_shImm]
  refine ⟨?_, fun h => shiftByImm_lsr _ _ (BitVec.toNat_ne.mp h)⟩
  rintro rfl
  exact shiftByImm_lsr_zero _ _

/-- Settles O23: amount 0 means 32, any other divides the signed word, rounding down. -/
theorem shifterAsrImmediate : Obligations.ShifterAsrImmediate := by
  rintro s rm n m rfl
  rw [shifter_shImm]
  refine ⟨?_, fun h => shiftByImm_asr _ _ (BitVec.toNat_ne.mp h)⟩
  rintro rfl
  exact shiftByImm_asr_zero _ _

/-- RRX as a number: C above the word shifted right by one (R145). -/
theorem toNat_rrx (c : Bool) (m : Word) : (flag c ++ m.extractLsb' 1 31).toNat = c.toNat * 2 ^ 31 + m.toNat / 2 := by
  have := m.isLt
  rw [toNat_cat, toNat_flag, BitVec.extractLsb'_toNat, Nat.shiftRight_eq_div_pow]
  omega

/-- Settles O24: RRX by its number, the rotation by its bits. -/
theorem shifterRorImmediate : Obligations.ShifterRorImmediate := by
  rintro s rm n m rfl
  rw [shifter_shImm]
  refine ⟨?_, fun h => ?_⟩
  · rintro rfl
    exact ⟨toNat_rrx _ _, rfl⟩
  · have h0 : n.toNat ≠ 0 := BitVec.toNat_ne.mp h
    rw [shiftByImm_ror _ _ h0]
    exact ⟨isRotation_rotateRight _ _, rfl, (getLsbD_31_rotateRight _ h0 n.isLt).symm⟩

/-- Settles O25: one clause for each row of R146's table. -/
theorem shifterByRegister : Obligations.ShifterByRegister := by
  rintro s rm rs m n rfl hn
  simp only [shifter_shReg, ← hn]
  refine ⟨?_, fun ⟨h0, h⟩ => ?_, ?_, fun h => ?_, fun h => ?_, fun ⟨h0, h⟩ => ?_, fun h => ?_⟩
  · rintro rfl ty
    rfl
  · have h0 : n ≠ 0 := by omega
    simp only [shiftByReg_eq_shiftByImm _ _ _ h0 h]
    exact ⟨shiftByImm_lsl _ _ h0, shiftByImm_lsr _ _ h0, shiftByImm_asr _ _ h0⟩
  · rintro rfl
    exact ⟨rfl, shiftByImm_lsr_zero _ false⟩
  · simp [shiftByReg, show n ≠ 0 by omega, show ¬ n < 32 by omega, show n ≠ 32 by omega]
  · rw [shiftByReg_asr_ge _ _ h, shiftByImm_asr_zero]
  · exact shiftByReg_ror_multiple _ _ (by omega) h
  · rw [shiftByReg_ror _ _ h]
    exact ⟨isRotation_rotateRight _ _, rfl⟩

/-! ### The operations (R147 to R162) -/

theorem addWithCarry_flags (a b : Word) (cin : Bool) : (addWithCarry a b cin).flags =
    arithFlags (a + b + BitVec.ofNat 32 cin.toNat) (decide (2 ^ 32 ≤ a.toNat + b.toNat + cin.toNat))
      (a.toInt + b.toInt + cin.toNat) := by
  simp only [AluOut.flags, arithFlags, overflows, msb_eq_bit31, addWithCarry_result, addWithCarry_c, addWithCarry_v]

theorem addWithCarry_not_flags (a b : Word) (cin : Bool) : (addWithCarry a (~~~b) cin).flags =
    arithFlags (a - b - BitVec.ofNat 32 (1 - cin.toNat)) (decide (b.toNat + (1 - cin.toNat) ≤ a.toNat))
      (a.toInt - b.toInt - (1 - cin.toNat : Nat)) := by
  simp only [AluOut.flags, arithFlags, overflows, msb_eq_bit31, addWithCarry_not_result, addWithCarry_not_c,
    addWithCarry_not_v]

/-- An operation answers a result and, with S = 1, these flags (R140). -/
def AluOut.Is (o : AluOut) (r : Word) (f : Flags) : Prop := o.result = r ∧ o.flags = f

theorem logicalOut_is (r : Word) (sc : Bool) (old : Flags) : (logicalOut r sc old).Is r (logicalFlags r sc old) := by
  refine ⟨rfl, ?_⟩
  simp only [AluOut.flags, logicalOut, logicalFlags, msb_eq_bit31]

section
variable (a b : Word) (sc : Bool) (old : Flags)

/-- ADC is `AddWithCarry` with the old C (R152). -/
theorem alu_adc : (alu .adc a b sc old).Is (a + b + BitVec.ofNat 32 old.c.toNat)
    (arithFlags (a + b + BitVec.ofNat 32 old.c.toNat) (decide (2 ^ 32 ≤ a.toNat + b.toNat + old.c.toNat))
      (a.toInt + b.toInt + old.c.toNat)) :=
  ⟨addWithCarry_result a b old.c, addWithCarry_flags a b old.c⟩

/-- SBC is `AddWithCarry` of the complement with the old C (R153). -/
theorem alu_sbc : (alu .sbc a b sc old).Is (a - b - BitVec.ofNat 32 (1 - old.c.toNat))
    (arithFlags (a - b - BitVec.ofNat 32 (1 - old.c.toNat)) (decide (b.toNat + (1 - old.c.toNat) ≤ a.toNat))
      (a.toInt - b.toInt - (1 - old.c.toNat : Nat))) :=
  ⟨addWithCarry_not_result a b old.c, addWithCarry_not_flags a b old.c⟩

/-- RSC is SBC with its operands exchanged (R154). -/
theorem alu_rsc_eq_alu_sbc : alu .rsc a b sc old = alu .sbc b a sc old := addWithCarry_comm (~~~a) b old.c

/-- ADD is ADC after a clear carry (R151). -/
theorem alu_add : (alu .add a b sc old).Is (a + b)
    (arithFlags (a + b) (decide (2 ^ 32 ≤ a.toNat + b.toNat)) (a.toInt + b.toInt)) := by
  have h : (alu .add a b sc old).Is _ _ := alu_adc a b sc { old with c := false }
  simpa using h

/-- SUB is SBC after a set carry (R149). -/
theorem alu_sub : (alu .sub a b sc old).Is (a - b)
    (arithFlags (a - b) (decide (b.toNat ≤ a.toNat)) (a.toInt - b.toInt)) := by
  have h : (alu .sub a b sc old).Is _ _ := alu_sbc a b sc { old with c := true }
  simpa using h

/-- RSB is SUB with its operands exchanged (R150). -/
theorem alu_rsb_eq_alu_sub : alu .rsb a b sc old = alu .sub b a sc old := addWithCarry_comm (~~~a) b true

end

/-- Every operation answers the result its rule says (R147 to R162). -/
theorem alu_result (op : DpOp) (a b : Word) (sc : Bool) (old : Flags) :
    (alu op a b sc old).result = resultOf op a b old.c := by
  have hadd : BitVec.ofNat 32 old.c.toNat = if old.c then 1 else 0 := by cases old.c <;> rfl
  have hsub : BitVec.ofNat 32 (1 - old.c.toNat) = if old.c then 0 else 1 := by cases old.c <;> rfl
  cases op with
  | add | cmn => exact (alu_add a b sc old).1
  | sub | cmp => exact (alu_sub a b sc old).1
  | rsb => rw [resultOf, alu_rsb_eq_alu_sub, (alu_sub b a sc old).1]
  | adc => rw [resultOf, ← hadd, (alu_adc a b sc old).1]
  | sbc => rw [resultOf, ← hsub, (alu_sbc a b sc old).1]
  | rsc => rw [resultOf, ← hsub, alu_rsc_eq_alu_sbc, (alu_sbc b a sc old).1]
  | and | eor | tst | teq | orr | mov | bic | mvn => rfl

/-! ### Where the answer goes (R140, R163, R164) -/

theorem dpReads_eq_sources (op : DpOp) (rn : Reg) (o2 : Operand2) : dpReads op rn o2 = sources op rn o2 := by
  cases op <;> rfl

/-- R165 (a) and (b), (a) first where both apply (log 17). -/
theorem dpRefusal_eq (op : DpOp) (rd : Reg) (o2 : Operand2) : dpRefusal op rd o2 =
    if shiftRegisterAllowed o2 = false then some .r15AsShiftRegister
    else if isCompare op && rd == 15#4 then some .compareWithRd15 else none := by
  cases o2 with
  | imm o => rfl
  | shImm o => rfl
  | shReg o => simp [dpRefusal, shiftRegisterAllowed]

/-- The operation on the operands of R140 to R146. -/
theorem dpOut_eq (op : DpOp) (rn : Reg) (o2 : Operand2) (s : State) : dpOut op rn o2 s =
    alu op (firstOperand s rn o2) (shifter o2 s).1 (shifter o2 s).2 s.cpsr.flags := by
  cases o2 <;> rfl

/-- The mark of R290 plays no part in the operands. -/
theorem dpOut_setUserLdm (op : DpOp) (rn : Reg) (o2 : Operand2) (s : State) (b : Bool) :
    dpOut op rn o2 (s.setUserLdm b) = dpOut op rn o2 s := by
  cases o2 <;> rfl

theorem dpEffect_refused {op : DpOp} {sb : Bool} {rn rd : Reg} {o2 : Operand2} {s : State} {r : Refusal}
    (h : dpRefusal op rd o2 = some r) : dpEffect op sb rn rd o2 s = .refused r := by
  rw [dpEffect, h]

section
variable {op : DpOp} {c : Cond} {sb : Bool} {rn rd : Reg} {o2 : Operand2} {s : State}

theorem exec_dp_executes (hx : executes c (sources op rn o2) s) :
    exec (.dp op c sb rn rd o2) s = dpEffect op sb rn rd o2 (s.setUserLdm false) := by
  rw [exec_dp, dataProcessing, dpReads_eq_sources, conditional_executes hx]

/-- An operation that is not refused. -/
theorem exec_dp_allowed (hx : executes c (sources op rn o2) s) (ha : shiftRegisterAllowed o2 = true)
    (hd : isCompare op = true → rd ≠ 15#4) : exec (.dp op c sb rn rd o2) s =
      if isCompare op then .next ((s.setUserLdm false).setFlags (dpOut op rn o2 s).flags).advance
      else if rd = 15#4 then
        if sb then returnFromException (dpOut op rn o2 s).result (s.setUserLdm false)
        else .next ((s.setUserLdm false).setPc (dpOut op rn o2 s).result)
      else if sb then .next (((s.setUserLdm false).writeReg rd (dpOut op rn o2 s).result).setFlags
        (dpOut op rn o2 s).flags).advance
      else .next ((s.setUserLdm false).writeReg rd (dpOut op rn o2 s).result).advance := by
  have hr : dpRefusal op rd o2 = none := by
    rw [dpRefusal_eq, ha]
    cases hc : isCompare op with
    | false => rfl
    | true => simp [hd hc]
  rw [exec_dp_executes hx, dpEffect, hr, dpOut_setUserLdm]

/-- A writing operation into a general register. -/
theorem exec_dp_wrote {p : PhysReg} {r : Word} {f : Flags} (hc : isCompare op = false)
    (ha : shiftRegisterAllowed o2 = true) (hp : phys s.cpsr.mode rd = some p) (hx : executes c (sources op rn o2) s)
    (ho : (alu op (firstOperand s rn o2) (shifter o2 s).1 (shifter o2 s).2 s.cpsr.flags).Is r f) :
    exec (.dp op c sb rn rd o2) s = .next (wrote s p r sb f) := by
  have hd : rd ≠ 15#4 := fun e => by
    rw [(phys_eq_none _ _).mpr e] at hp
    cases hp
  obtain ⟨rfl, rfl⟩ := ho
  rw [← dpOut_eq, exec_dp_allowed hx ha fun _ => hd, hc, if_neg Bool.false_ne_true, if_neg hd,
    writeReg_of_phys (s := s.setUserLdm false) _ hp]
  cases sb <;> rfl

/-- A compare. -/
theorem exec_dp_compared {r : Word} {f : Flags} (hc : isCompare op = true) (hd : rd ≠ 15#4)
    (ha : shiftRegisterAllowed o2 = true) (hx : executes c (sources op rn o2) s)
    (ho : (alu op (firstOperand s rn o2) (shifter o2 s).1 (shifter o2 s).2 s.cpsr.flags).Is r f) :
    exec (.dp op c sb rn rd o2) s = .next (compared s f) := by
  obtain ⟨-, rfl⟩ := ho
  rw [← dpOut_eq, exec_dp_allowed hx ha fun _ => hd, if_pos hc]
  rfl

/-- A writing operation into R15 with S = 0. -/
theorem exec_dp_jumped (hc : isCompare op = false) (ha : shiftRegisterAllowed o2 = true)
    (hx : executes c (sources op rn o2) s) : exec (.dp op c false rn 15#4 o2) s =
      .next (jumped s (resultOf op (firstOperand s rn o2) (shifter o2 s).1 s.cpsr.flags.c)) := by
  rw [exec_dp_allowed hx ha (by simp [hc]), hc, dpOut_eq, alu_result]
  rfl

/-- A writing operation into R15 with S = 1. -/
theorem exec_dp_returned (hc : isCompare op = false) (ha : shiftRegisterAllowed o2 = true)
    (hx : executes c (sources op rn o2) s) : exec (.dp op c true rn 15#4 o2) s =
      returnFromException (resultOf op (firstOperand s rn o2) (shifter o2 s).1 s.cpsr.flags.c)
        (s.setUserLdm false) := by
  rw [exec_dp_allowed hx ha (by simp [hc]), hc, dpOut_eq, alu_result]
  rfl

end

/-! ### The next states (R147 to R164) -/

/-- Settles O26: the logical operations answer the logical flags of their results. -/
theorem logicalResults : Obligations.LogicalResults := by
  rintro s c sb rn rd o2 p a b sc hp ha rfl rfl rfl
  exact ⟨fun hx =>
      ⟨exec_dp_wrote (op := .and) rfl ha hp hx (logicalOut_is ..),
        exec_dp_wrote (op := .eor) rfl ha hp hx (logicalOut_is ..),
        exec_dp_wrote (op := .orr) rfl ha hp hx (logicalOut_is ..),
        exec_dp_wrote (op := .bic) rfl ha hp hx (logicalOut_is ..)⟩,
    fun hx =>
      ⟨exec_dp_wrote (op := .mov) rfl ha hp hx (logicalOut_is ..),
        exec_dp_wrote (op := .mvn) rfl ha hp hx (logicalOut_is ..)⟩⟩

/-- Settles O27: ADD and SUB are `AddWithCarry` with a known carry, RSB is SUB the other way round. -/
theorem addSubtractResults : Obligations.AddSubtractResults := by
  rintro s c sb rn rd o2 p a b hp ha rfl rfl hx
  exact ⟨exec_dp_wrote rfl ha hp hx (alu_sub ..),
    exec_dp_wrote rfl ha hp hx (alu_rsb_eq_alu_sub .. ▸ alu_sub ..),
    exec_dp_wrote rfl ha hp hx (alu_add ..)⟩

/-- Settles O28: the carry of before is the number `k`. -/
theorem carryResults : Obligations.CarryResults := by
  rintro s c sb rn rd o2 p a b k j hp ha rfl rfl hk rfl hx
  obtain rfl : k = s.cpsr.flags.c.toNat := hk.trans (by cases s.cpsr.flags.c <;> rfl)
  exact ⟨exec_dp_wrote rfl ha hp hx (alu_adc ..),
    exec_dp_wrote rfl ha hp hx (alu_sbc ..),
    exec_dp_wrote rfl ha hp hx (alu_rsc_eq_alu_sbc .. ▸ alu_sbc ..)⟩

/-- Settles O29: TST, TEQ, CMP and CMN compute what AND, EOR, SUB and ADD compute. -/
theorem compareResults : Obligations.CompareResults := by
  rintro s c sb rn rd o2 a b sc hd ha rfl rfl rfl hx
  exact ⟨exec_dp_compared (op := .tst) rfl hd ha hx (logicalOut_is ..),
    exec_dp_compared (op := .teq) rfl hd ha hx (logicalOut_is ..),
    exec_dp_compared (op := .cmp) rfl hd ha hx (alu_sub _ _ (shifter o2 s).2 s.cpsr.flags),
    exec_dp_compared (op := .cmn) rfl hd ha hx (alu_add _ _ (shifter o2 s).2 s.cpsr.flags)⟩

/-- Settles O30: the next state is that of `exec_dp_jumped`, whose result is the rule's by `alu_result`. -/
theorem resultToPc : Obligations.ResultToPc := fun _ _ _ _ _ hc ha hx => exec_dp_jumped hc ha hx

/-- A return in User mode, which has no SPSR. -/
theorem returnFromException_usr {target : Word} {s : State} (h : s.cpsr.mode = .usr) :
    returnFromException target s = .refused .noSpsr := by
  simp only [returnFromException, (spsrs_get_eq_none s.spsrs _).mpr h]

/-- A return with an SPSR that names no mode. -/
theorem returnFromException_invalid {target : Word} {s : State} {q : Psr} (hq : s.spsrs.get s.cpsr.mode = some q)
    (hm : Mode.ofBits q.m = none) : returnFromException target s = .refused .invalidMode := by
  simp only [returnFromException, hq, hm]

/-- Settles O31: the three clauses are the three answers of a return from an exception. -/
theorem exceptionReturn : Obligations.ExceptionReturn := by
  intro s op c rn o2 hc ha hx
  have e := exec_dp_returned hc ha hx
  exact ⟨fun hu => e.trans (returnFromException_usr (s := s.setUserLdm false) hu),
    fun q hq hm => e.trans (returnFromException_invalid (s := s.setUserLdm false) hq hm),
    fun q m hq hm => e.trans (returnFromException_ok (s := s.setUserLdm false) hq hm)⟩

/-! ### Refused operands (R165, R180 to R182, R191, R207) -/

/-- Settles O32: the two refusals of R165, in the order of `dpRefusal_eq`. -/
theorem dataProcessingRefusals : Obligations.DataProcessingRefusals := by
  intro s op c sb rn rd o2 hx
  rw [exec_dp_executes hx]
  refine ⟨fun ha => dpEffect_refused ?_, fun ha hop => ?_⟩
  · rw [dpRefusal_eq, if_pos ha]
  · have hc : isCompare op = true := by rcases hop with rfl | rfl | rfl | rfl <;> rfl
    have hr : dpRefusal op 15#4 o2 = some .compareWithRd15 := by
      rw [dpRefusal_eq, ha, hc]
      rfl
    exact (exec_dp_executes hx).trans (dpEffect_refused hr)

/-- An effect that is refused, under a condition that holds: the refusal is its own, or that of R290. -/
theorem conditional_refused {c : Cond} {reads : List Reg} {effect : State → Result} {s : State}
    (h : conditionPassed c s.cpsr.flags = true) (he : ∃ r, effect (s.setUserLdm false) = .refused r) :
    ∃ r, conditional c reads effect s = .refused r := by
  cases hz : s.hazard reads with
  | true => exact ⟨_, conditional_hazard h hz⟩
  | false => rwa [conditional_passed h hz]

/-- A data-processing instruction is well formed exactly when R165 does not refuse it. -/
theorem wellFormed_dp (op : DpOp) (c : Cond) (sb : Bool) (rn rd : Reg) (o2 : Operand2) :
    (Instr.dp op c sb rn rd o2).wellFormed = (shiftRegisterAllowed o2 && !(isCompare op && rd == 15#4)) := by
  cases op <;> cases o2 <;> simp [Instr.dp, Instr.wellFormed, shiftRegisterAllowed, isCompare, bne]

theorem dpRefusal_of_illFormed {op : DpOp} {c : Cond} {sb : Bool} {rn rd : Reg} {o2 : Operand2}
    (h : (Instr.dp op c sb rn rd o2).wellFormed = false) : ∃ r, dpRefusal op rd o2 = some r := by
  rw [wellFormed_dp] at h
  rw [dpRefusal_eq]
  split
  · exact ⟨_, rfl⟩
  · exact ⟨_, if_pos (by simp_all)⟩

/-- An ill-formed index is refused with either form of offset (R191 b, c, d). -/
theorem transferRefusal_of_index {ix : Index} {rn rd : Reg} (off : Offset) (h : ix.wellFormed rn rd = false) :
    ∃ r, transferRefusal ix rn rd off = some r := by
  change (!(!ix.p && ix.w) && !(writesBack ix && (rn == 15#4 || rd == rn))) = false at h
  unfold transferRefusal
  split
  · exact ⟨_, rfl⟩
  split
  · exact ⟨_, rfl⟩
  split
  · exact ⟨_, rfl⟩
  · simp_all

/-- An ill-formed offset register is refused (R191 e, f). -/
theorem transferRefusal_of_offset {ix : Index} {rn : Reg} (rd : Reg) {o : ShImm}
    (h : o.wellFormedOffset ix rn = false) : ∃ r, transferRefusal ix rn rd (.reg o) = some r := by
  change (o.rm != 15#4 && !(writesBack ix && o.rm == rn)) = false at h
  unfold transferRefusal
  split
  · exact ⟨_, rfl⟩
  split
  · exact ⟨_, rfl⟩
  split
  · exact ⟨_, rfl⟩
  dsimp only
  split
  · exact ⟨_, rfl⟩
  · exact ⟨_, if_pos (by simp_all)⟩

theorem transferRefusal_of_illFormed {ix : Index} {rn rd : Reg} {o : ShImm}
    (h : (ix.wellFormed rn rd && o.wellFormedOffset ix rn) = false) :
    ∃ r, transferRefusal ix rn rd (.reg o) = some r := by
  rcases Bool.and_eq_false_iff.mp h with h | h
  · exact transferRefusal_of_index _ h
  · exact transferRefusal_of_offset rd h

/-- The User bank with write-back is refused in every mode (R207 e, f). -/
theorem formRefusal_userBank {bm : BlockMode} (m : Mode) (hw : bm.w = true) :
    ∃ r, formRefusal .userBank bm m = some r := by
  simp only [formRefusal, hw, if_true]
  split <;> exact ⟨_, rfl⟩

/-- An ill-formed LDM is refused (R207 a, b, c, f). -/
theorem ldmRefusal_of_illFormed {bm : BlockMode} {rn : Reg} {list : BitVec 16} (m : Mode)
    (h : wellFormedLdm bm rn list = false) : ∃ r, ldmRefusal bm rn list m = some r := by
  unfold ldmRefusal
  split
  · exact ⟨_, rfl⟩
  split
  · exact ⟨_, rfl⟩
  split
  · exact ⟨_, rfl⟩
  next hl hb hw =>
    have hf : bm.s = true ∧ list.getLsbD 15 = false ∧ bm.w = true := by
      by_contra hn
      refine Bool.eq_false_iff.mp h ((wellFormedLdm_iff bm rn list).mpr ⟨hl, hb, ?_, ?_⟩) <;> simp_all
    obtain ⟨hs, h15, hw⟩ := hf
    rw [ldmForm_eq_userBank.mpr ⟨hs, h15⟩]
    exact formRefusal_userBank m hw

/-- An ill-formed STM is refused (R207 a, b, d, f). -/
theorem stmRefusal_of_illFormed {bm : BlockMode} {rn : Reg} {list : BitVec 16} (m : Mode)
    (h : wellFormedStm bm rn list = false) : ∃ r, stmRefusal bm rn list m = some r := by
  unfold stmRefusal
  split
  · exact ⟨_, rfl⟩
  split
  · exact ⟨_, rfl⟩
  split
  · exact ⟨_, rfl⟩
  next hl hb hw =>
    have hlowest : bm.w = true → list.getLsbD rn.toNat = true → noneBelow list rn = true := fun h1 h2 =>
      (regsOf_head list rn h2).mp (by simpa [h1, h2] using hw)
    have hf : bm.s = true ∧ bm.w = true := by
      by_contra hn
      exact Bool.eq_false_iff.mp h ((wellFormedStm_iff bm rn list).mpr ⟨hl, hb, hlowest, by simpa using hn⟩)
    obtain ⟨hs, hw⟩ := hf
    rw [stmForm, if_pos hs]
    exact formRefusal_userBank m hw

/-! What a refusal of the operands makes of each effect. -/

section
variable {s : State} {r : Refusal}

theorem loadEffect_refused {ix : Index} {rn rd : Reg} {off : Offset} (h : transferRefusal ix rn rd off = some r) :
    loadEffect ix rn rd off s = .refused r := by
  rw [loadEffect, h]

theorem storeEffect_refused {ix : Index} {rn rd : Reg} {off : Offset} (h : transferRefusal ix rn rd off = some r) :
    storeEffect ix rn rd off s = .refused r := by
  rw [storeEffect, h]

theorem ldmEffect_refused {bm : BlockMode} {rn : Reg} {list : BitVec 16}
    (h : ldmRefusal bm rn list s.cpsr.mode = some r) : ldmEffect bm rn list s = .refused r := by
  rw [ldmEffect, h]

theorem stmEffect_refused {bm : BlockMode} {rn : Reg} {list : BitVec 16}
    (h : stmRefusal bm rn list s.cpsr.mode = some r) : stmEffect bm rn list s = .refused r := by
  rw [stmEffect, h]

end

/-- MRS into R15 is refused, in User mode already for the SPSR it may name (R180). -/
theorem execMrs_r15 {c : Cond} {p : Bool} {s : State} (h : conditionPassed c s.cpsr.flags = true) :
    ∃ r, execMrs c p 15#4 s = .refused r := by
  refine conditional_refused h ?_
  split
  · exact ⟨_, rfl⟩
  · exact ⟨_, if_pos rfl⟩

/-- Settles O7: the operand rules that `wellFormed` asks are those the effects refuse by, in every state. -/
theorem illFormedIsRefused : Obligations.IllFormedIsRefused := by
  intro i s hwf hc
  cases i using instr_cases with
  | dp op c sb rn rd o2 =>
    rw [cond_dp] at hc
    rw [exec_dp]
    exact conditional_refused hc ((dpRefusal_of_illFormed hwf).imp fun _ => dpEffect_refused)
  | mrs c p rd =>
    obtain rfl : rd = 15#4 := by simpa [Instr.wellFormed] using hwf
    exact execMrs_r15 hc
  | msrAll c p rm =>
    have hrm : rm = 15#4 := by simpa [Instr.wellFormed] using hwf
    exact (conditional_refused hc ⟨_, if_pos hrm⟩ : ∃ r, execMsrAll c p rm s = .refused r)
  | msrFlgReg c p rm =>
    have hrm : rm = 15#4 := by simpa [Instr.wellFormed] using hwf
    exact (conditional_refused hc ⟨_, if_pos hrm⟩ : ∃ r, execMsrFlgReg c p rm s = .refused r)
  | ldrImm c ix rn rd v =>
    exact conditional_refused hc ((transferRefusal_of_index (.imm v) hwf).imp fun _ => loadEffect_refused)
  | ldrReg c ix rn rd o =>
    exact conditional_refused hc ((transferRefusal_of_illFormed hwf).imp fun _ => loadEffect_refused)
  | strImm c ix rn rd v =>
    exact conditional_refused hc ((transferRefusal_of_index (.imm v) hwf).imp fun _ => storeEffect_refused)
  | strReg c ix rn rd o =>
    exact conditional_refused hc ((transferRefusal_of_illFormed hwf).imp fun _ => storeEffect_refused)
  | ldm c bm rn list =>
    exact conditional_refused hc ((ldmRefusal_of_illFormed s.cpsr.mode hwf).imp fun _ => ldmEffect_refused)
  | stm c bm rn list =>
    exact conditional_refused hc ((stmRefusal_of_illFormed s.cpsr.mode hwf).imp fun _ => stmEffect_refused)
  | _ => cases hwf

end Sys2Proof.Machine
end

section
/-! PROOFS. Family 42_psr_transfer.md: MRS and MSR. The word MRS reads is taken apart once, in `toWord_bits`: the
defined bits are those of the PSR, the reserved bits those of a free value. What an MSR that has its effect does is said
once for each instruction (`exec_msrAll`, `exec_msrFlgReg`, `exec_msrFlgImm`): it writes a PSR of the state
`advanced s`, whose PC has gone on. The ways of writing a PSR are lemmas about any state, which the register and the
immediate form share. -/

namespace Sys2Proof.Machine

open Sys2Proof.Claims

/-! ### A PSR as a word (10_state.md R32, R40) -/

/-- The bits of a word that MRS reads: the defined ones are those of the PSR, the reserved ones those of the free
value. -/
theorem toWord_bits (q : Psr) (free : Word) :
    let w := q.toWord free
    bit w 31 = q.flags.n ∧ bit w 30 = q.flags.z ∧ bit w 29 = q.flags.c ∧ bit w 28 = q.flags.v ∧
      bit w 7 = q.i ∧ bit w 6 = q.f ∧ field w 0 5 = q.m ∧
      field w 8 20 = field free 8 20 ∧ bit w 5 = bit free 5 := by
  simp (disch := decide) only [Psr.toWord, field, bit_eq_field, BitVec.extractLsb'_append_eq_of_le,
    BitVec.extractLsb'_append_eq_of_add_le, BitVec.extractLsb'_eq_self, Nat.reduceSub, getLsbD_flag, and_self]

/-! ### The operand (R180 to R182) -/

/-- A number that names a general register is not that of R15. -/
theorem ne_r15_of_phys {m : Mode} {n : Reg} {r : PhysReg} (h : phys m n = some r) : n ≠ 15#4 := fun e => by
  rw [(phys_eq_none m n).mpr e] at h
  cases h

/-- R15 is banked in no mode, so reading it is never stopped by the hazard of R290. -/
theorem executes_r15 {c : Cond} {s : State} (h : conditionPassed c s.cpsr.flags = true) : executes c [15#4] s := by
  refine ⟨h, fun _ r hr => ?_⟩
  rw [List.mem_singleton.mp hr]
  cases s.cpsr.mode <;> rfl

/-! ### MRS (R180) -/

theorem psr_of_usr {s : State} (h : s.cpsr.mode = .usr) : s.psr true = none :=
  (spsrs_get_eq_none s.spsrs _).mpr h

section
variable {c : Cond} {p : Bool} {rd rm : Reg} {r : PhysReg} {q : Psr} {s : State}

/-- The PSR that an MRS names exists, unless it is the SPSR in User mode. -/
theorem exists_psr (h : p = false ∨ s.cpsr.mode ≠ .usr) : ∃ q, s.psr p = some q := by
  cases p with
  | false => exact ⟨_, rfl⟩
  | true => exact Option.ne_none_iff_exists'.mp (mt (spsrs_get_eq_none s.spsrs _).mp (h.resolve_left (by decide)))

theorem exec_mrs_noSpsr (hx : executes c [] s) (hq : s.psr p = none) : exec (.mrs c p rd) s = .refused .noSpsr := by
  change execMrs c p rd s = _
  rw [execMrs, conditional_executes hx, show (s.setUserLdm false).psr p = none from hq]

/-- An MRS of a PSR that exists. -/
theorem exec_mrs (hx : executes c [] s) (hq : s.psr p = some q) : exec (.mrs c p rd) s =
    if rd = 15#4 then .refused .r15AsPsrOperand
    else .next (((s.setUserLdm false).writeReg rd (q.toWord (Config.draw s.draws))).useDraws 1).advance := by
  change execMrs c p rd s = _
  rw [execMrs, conditional_executes hx, show (s.setUserLdm false).psr p = some q from hq]
  rfl

/-- The whole next state of an MRS: the register receives the PSR around the next free value. -/
theorem exec_mrs_read (hx : executes c [] s) (hq : s.psr p = some q) (hr : phys s.cpsr.mode rd = some r) :
    exec (.mrs c p rd) s = .next { s with
      gpr := s.gpr.set r (q.toWord (Config.draw s.draws))
      pcBits := s.pcBits + 1
      userLdm := false
      draws := s.draws + 1 } := by
  rw [exec_mrs hx hq, if_neg (ne_r15_of_phys hr), writeReg_of_phys (s := s.setUserLdm false) _ hr]
  rfl

/-! ### What MSR does with its operand (R181 to R183) -/

/-- An MSR of a whole PSR writes the value of its register. -/
theorem exec_msrAll (hx : executes c [rm] s) (hr : phys s.cpsr.mode rm = some r) :
    exec (.msrAll c p rm) s = (advanced s).setWholePsr p (s.gpr.get r) := by
  change execMsrAll c p rm s = _
  rw [execMsrAll, conditional_executes hx, if_neg (ne_r15_of_phys hr), readReg_of_phys (s := s.setUserLdm false) _ hr]
  rfl

/-- An MSR of the flag field from a register writes the flags of the register's value. -/
theorem exec_msrFlgReg (hx : executes c [rm] s) (hr : phys s.cpsr.mode rm = some r) :
    exec (.msrFlgReg c p rm) s = (advanced s).setPsrFlags p (.ofWord (s.gpr.get r)) := by
  change execMsrFlgReg c p rm s = _
  rw [execMsrFlgReg, conditional_executes hx, if_neg (ne_r15_of_phys hr),
    readReg_of_phys (s := s.setUserLdm false) _ hr]
  rfl

/-- An MSR of the flag field from an immediate writes the flags of the value that the shifter makes of it (R141). -/
theorem exec_msrFlgImm {o : ImmOp} (hx : executes c [] s) :
    exec (.msrFlgImm c p o) s = (advanced s).setPsrFlags p (.ofWord (shifter (.imm o) s).1) := by
  change execMsrFlgImm c p o s = _
  rw [execMsrFlgImm, conditional_executes hx]
  rfl

theorem exec_msrAll_r15 (hx : executes c [15#4] s) : exec (.msrAll c p 15#4) s = .refused .r15AsPsrOperand := by
  change execMsrAll c p 15#4 s = _
  rw [execMsrAll, conditional_executes hx, if_pos rfl]

theorem exec_msrFlgReg_r15 (hx : executes c [15#4] s) : exec (.msrFlgReg c p 15#4) s = .refused .r15AsPsrOperand := by
  change execMsrFlgReg c p 15#4 s = _
  rw [execMsrFlgReg, conditional_executes hx, if_pos rfl]

end

/-! ### Writing a PSR (R181 to R183) -/

section
variable {s : State} {q : Psr}

theorem setPsrFlags_cpsr (f : Flags) : s.setPsrFlags false f = .next (s.setFlags f) := rfl

theorem setPsrFlags_spsr (hq : s.spsrs.get s.cpsr.mode = some q) (f : Flags) :
    s.setPsrFlags true f = .next (s.setSpsr s.cpsr.mode { q with flags := f }) := by
  rw [State.setPsrFlags, if_pos rfl, hq]

theorem setPsrFlags_noSpsr (hu : s.cpsr.mode = .usr) (f : Flags) : s.setPsrFlags true f = .refused .noSpsr := by
  rw [State.setPsrFlags, if_pos rfl, (spsrs_get_eq_none s.spsrs _).mpr hu]

/-- In User mode only the flags of the CPSR change. -/
theorem setWholePsr_cpsr_user (hu : s.cpsr.mode = .usr) (v : Word) :
    s.setWholePsr false v = .next (s.setFlags (.ofWord v)) := by
  rw [State.setWholePsr, if_neg Bool.false_ne_true, if_pos hu]

theorem setWholePsr_cpsr_privileged {v : Word} {m : Mode} (hu : s.cpsr.mode ≠ .usr) (hm : v.extractLsb' 0 5 = m.bits) :
    s.setWholePsr false v = .next (s.setCpsr ⟨.ofWord v, v.getLsbD 7, v.getLsbD 6, m⟩) := by
  have hmode : Mode.ofBits (Psr.ofWord v).m = some m := ofBits_eq_some.mpr hm
  rw [State.setWholePsr, if_neg Bool.false_ne_true, if_neg hu, hmode]
  rfl

theorem setWholePsr_cpsr_invalid {v : Word} (hu : s.cpsr.mode ≠ .usr) (hm : ∀ m : Mode, v.extractLsb' 0 5 ≠ m.bits) :
    s.setWholePsr false v = .refused .invalidMode := by
  have hmode : Mode.ofBits (Psr.ofWord v).m = none := ofBits_eq_none.mpr hm
  rw [State.setWholePsr, if_neg Bool.false_ne_true, if_neg hu, hmode]

/-- The SPSR takes any value of the mode bits. -/
theorem setWholePsr_spsr (hu : s.cpsr.mode ≠ .usr) (v : Word) :
    s.setWholePsr true v = .next (s.setSpsr s.cpsr.mode (.ofWord v)) := by
  obtain ⟨q, hq⟩ : ∃ q, s.spsrs.get s.cpsr.mode = some q := exists_psr (p := true) (.inr hu)
  rw [State.setWholePsr, if_pos rfl, hq]

theorem setWholePsr_noSpsr (hu : s.cpsr.mode = .usr) (v : Word) : s.setWholePsr true v = .refused .noSpsr := by
  rw [State.setWholePsr, if_pos rfl, (spsrs_get_eq_none s.spsrs _).mpr hu]

end

/-! ### The next states and the refusals -/

/-- Settles O33: the word read is the PSR around the next free value, whose bits are those of `toWord_bits`. -/
theorem mrsReadsPsr : Obligations.MrsReadsPsr := by
  intro s c p rd hx
  refine ⟨fun r q hr hspsr hcpsr => ?_, ?_, fun h => ?_⟩
  · have hq : s.psr p = some q := by
      cases p with
      | false => exact congrArg some (hcpsr rfl).symm
      | true => exact hspsr rfl
    exact ⟨_, exec_mrs_read hx hq hr, toWord_bits q _⟩
  · rintro rfl hu
    exact exec_mrs_noSpsr hx (psr_of_usr hu)
  · obtain ⟨q, hq⟩ := exists_psr h
    exact (exec_mrs hx hq).trans (if_pos rfl)

/-- Settles O34: the five clauses are the five ways of writing a whole PSR. -/
theorem msrWritesPsr : Obligations.MsrWritesPsr := by
  intro s c rm hx
  constructor
  · rintro r v f hr rfl rfl
    have e (p : Bool) := exec_msrAll (p := p) hx hr
    exact ⟨fun hu => (e false).trans (setWholePsr_cpsr_user (s := advanced s) hu _),
      fun m hu hm => (e false).trans (setWholePsr_cpsr_privileged (s := advanced s) hu hm),
      fun hu hm => (e false).trans (setWholePsr_cpsr_invalid (s := advanced s) hu hm),
      fun hu => (e true).trans (setWholePsr_spsr (s := advanced s) hu _),
      fun hu => (e true).trans (setWholePsr_noSpsr (s := advanced s) hu _)⟩
  · rintro rfl p
    exact exec_msrAll_r15 hx

/-- Settles O35: both forms write the flags in the same three ways. -/
theorem msrWritesFlags : Obligations.MsrWritesFlags := by
  rintro s c rm o f rfl
  refine ⟨fun hx r hr => ?_, fun hx => ?_⟩
  · have e (p : Bool) := exec_msrFlgReg (p := p) hx hr
    exact ⟨(e false).trans (setPsrFlags_cpsr (s := advanced s) _),
      fun q hq => (e true).trans (setPsrFlags_spsr (s := advanced s) hq _),
      fun hu => (e true).trans (setPsrFlags_noSpsr (s := advanced s) hu _)⟩
  · have e (p : Bool) := exec_msrFlgImm (p := p) (o := o) hx
    exact ⟨(e false).trans (setPsrFlags_cpsr (s := advanced s) _),
      fun q hq => (e true).trans (setPsrFlags_spsr (s := advanced s) hq _),
      fun hu => (e true).trans (setPsrFlags_noSpsr (s := advanced s) hu _),
      fun _ => exec_msrFlgReg_r15 (executes_r15 hx.1)⟩

end Sys2Proof.Machine
end

section
/-! PROOFS. Family 43_single_data_transfer.md: LDR and STR. What a well-formed STR at an aligned address does is said once,
in `exec_str_aligned`, whose three branches are the store into the prefetched words, the abort and the store; the LDR
whose access is answered is `exec_ldr_answered` of family 20. A refusal of the operands stops LDR and STR alike
(`exec_transfer_refused`), so the refusals are facts about `transferRefusal`. -/

namespace Sys2Proof.Machine

open Sys2Proof.Claims

/-! ### The prefetched words (20_memory.md R78) -/

theorem inPrefetch_iff (s : State) (a : WordAddr) : s.inPrefetch a = true ↔ a = s.pcBits + 1 ∨ a = s.pcBits + 2 := by
  simp [State.inPrefetch]

theorem not_inPrefetch {s : State} {a : WordAddr} (h1 : a ≠ s.pcBits + 1) (h2 : a ≠ s.pcBits + 2) :
    ¬ s.inPrefetch a = true := fun h => ((inPrefetch_iff s a).mp h).elim h1 h2

/-- The PC plus a whole number of words is aligned. -/
theorem pc_add_words_low_bits (s : State) (k : Nat) : (s.pc + BitVec.ofNat 32 (4 * k)).extractLsb' 0 2 = 0#2 := by
  apply BitVec.eq_of_toNat_eq
  simp only [BitVec.extractLsb'_toNat, BitVec.toNat_add, BitVec.toNat_ofNat, Nat.shiftRight_eq_div_pow, pc_toNat]
  omega

/-- The addresses `pc + 4` and `pc + 8` are aligned, and their words are the prefetched ones. -/
theorem inPrefetch_of_addr {s : State} {v : Word} (h : v = s.pc + 4 ∨ v = s.pc + 8) :
    v.extractLsb' 0 2 = 0#2 ∧ s.inPrefetch (v.extractLsb' 2 30) = true := by
  have hword (k : Nat) : (s.pc + BitVec.ofNat 32 (4 * k)).extractLsb' 2 30 = s.pcBits + BitVec.ofNat 30 k := by
    rw [word_add_four_mul, pc_word]
  rw [inPrefetch_iff]
  rcases h with rfl | rfl
  · exact ⟨pc_add_words_low_bits s 1, .inl (hword 1)⟩
  · exact ⟨pc_add_words_low_bits s 2, .inr (hword 2)⟩

/-! ### The data abort (R194) -/

/-- The entry of the data abort, from a state in which the mark of R290 is already gone. -/
theorem takeException_dataAbort (u : State) (g : GenRegs) :
    takeException .dataAbort { u.setUserLdm false with gpr := g } = dataAborted u g := by
  have hf : (u.cpsr.f || Exc.dataAbort.setsF) = u.cpsr.f := Bool.or_false _
  rw [takeException_eq, dataAborted, setUserLdm_cpsr, hf]
  rfl

/-! ### LDR and STR that have their effect -/

section
variable {c : Cond} {ix : Index} {rn rd : Reg} {off : Offset} {s : State}

theorem exec_ldr_executes (hx : executes c (rn :: off.reads) s) :
    exec (ldr c ix rn rd off) s = loadEffect ix rn rd off (s.setUserLdm false) := by
  rw [exec_ldr, conditional_executes hx]

/-- The model lists Rm before Rd and the statements Rd before Rm, which is one and the same hazard (R290). -/
theorem exec_str_executes (hx : executes c (rn :: rd :: off.reads) s) :
    exec (str c ix rn rd off) s = storeEffect ix rn rd off (s.setUserLdm false) := by
  cases off with
  | imm v => exact conditional_executes hx
  | reg o =>
    obtain ⟨hc, hz⟩ := hx
    have hperm : [rn, o.rm, rd].Perm [rn, rd, o.rm] := (List.Perm.swap rd o.rm []).cons rn
    exact conditional_executes (reads := [rn, o.rm, rd]) ⟨hc, fun hu r hr => hz hu r (hperm.mem_iff.mp hr)⟩

/-- A well-formed STR is not refused: it is held to the operand rules of LDR (R191). -/
theorem transferRefusal_str (h : (str c ix rn rd off).wellFormed = true) : transferRefusal ix rn rd off = none := by
  have hldr : (str c ix rn rd off).wellFormed = (ldr c ix rn rd off).wellFormed := by cases off <;> rfl
  exact transferRefusal_ldr (hldr ▸ h)

/-- An LDR whose access is aborted (R194). -/
theorem exec_ldr_aborted (hwf : (ldr c ix rn rd off).wellFormed = true) (hx : executes c (rn :: off.reads) s)
    (hal : (addrOf ix rn off s).extractLsb' 0 2 = 0#2)
    (hab : s.aborted .read ((addrOf ix rn off s).extractLsb' 2 30) = true) :
    exec (ldr c ix rn rd off) s =
      .next (dataAborted s.othersStore (writtenBack s (!ix.p || ix.w) rn (targetOf ix rn off s))) := by
  have hr := transferRefusal_ldr hwf
  have hread := memRead_aborted (s := s.setUserLdm false) hab
  rw [exec_ldr_executes hx]
  simp only [loadEffect, hr, transferAddr_setUserLdm, transferTarget_setUserLdm, aligned_of_low hal, hread]
  rw [transferWriteback_eq _ (transferRefusal_none_rn hr)]
  exact congrArg _ (takeException_dataAbort s.othersStore _)

/-- A well-formed STR at an aligned address: the refusal of R78, the data abort of R194, or the store of R193. -/
theorem exec_str_aligned {a : WordAddr} {g : GenRegs} (hwf : (str c ix rn rd off).wellFormed = true)
    (hx : executes c (rn :: rd :: off.reads) s) (hal : (addrOf ix rn off s).extractLsb' 0 2 = 0#2)
    (ha : a = (addrOf ix rn off s).extractLsb' 2 30)
    (hg : g = writtenBack s (!ix.p || ix.w) rn (targetOf ix rn off s)) :
    exec (str c ix rn rd off) s =
      if s.inPrefetch a then .refused .storeIntoPrefetch
      else if s.aborted .write a then .next (dataAborted s.othersStore g)
      else .next { advanced s.othersStore with
        gpr := g
        mem := s.othersStore.mem.setWord a (s.readReg rd Config.pcStoreOffset) } := by
  subst ha hg
  have hr := transferRefusal_str hwf
  rw [exec_str_executes hx]
  simp only [storeEffect, hr, transferAddr_setUserLdm, transferTarget_setUserLdm, aligned_of_low hal]
  rw [transferWriteback_eq _ (transferRefusal_none_rn hr), memWrite_eq, aborted_setUserLdm]
  refine if_congr Iff.rfl rfl ?_
  split
  · exact congrArg _ (takeException_dataAbort s.othersStore _)
  · rfl

end

/-! ### The next states (R192 to R194) -/

/-- Settles O36: the access of the LDR is answered with the word it finds, and no free value is drawn. -/
theorem ldrLoadsWord : Obligations.LdrLoadsWord := by
  rintro s u c ix rn rd off a v g hwf hx hal rfl hab rfl hv rfl
  exact exec_ldr_answered (d := 0) hwf hx hal (memRead_word (s := s.setUserLdm false) hab hv)

/-- Settles O38: the last branch of `exec_str_aligned`, and the rules of `setWord`. -/
theorem strStoresWord : Obligations.StrStoresWord := by
  rintro s u c ix rn rd off a hwf hx hal ha h1 h2 hab rfl
  refine ⟨_, ?_, word_setWord_same s.othersStore.mem a _, fun b => byte_setWord_other _ a _ b⟩
  rw [exec_str_aligned hwf hx hal ha rfl, if_neg (not_inPrefetch h1 h2), hab]
  rfl

/-- Settles O39: the load is `exec_ldr_aborted`, the store the second branch of `exec_str_aligned`. -/
theorem transferAborted : Obligations.TransferAborted := by
  rintro s u c ix rn rd off a g hal ha rfl rfl
  refine ⟨fun hwf hx hab => exec_ldr_aborted hwf hx hal (ha ▸ hab), fun hwf hx hab h1 h2 => ?_⟩
  rw [exec_str_aligned hwf hx hal ha rfl, if_neg (not_inPrefetch h1 h2), if_pos hab]

/-! ### The refusals (R191) -/

/-! The operand rules one by one, in the order of the model (log 17). -/

section
variable {ix : Index} {rn rd : Reg} {off : Offset}

/-- R191 (b), before every other rule. -/
theorem transferRefusal_postIndexedT (h : ix.p = false ∧ ix.w = true) :
    transferRefusal ix rn rd off = some .postIndexedT := by
  simp [transferRefusal, h]

variable (hT : (!ix.p && ix.w) = false)
include hT

/-- R191 (c). -/
theorem transferRefusal_writebackToR15 (hw : writesBack ix = true) :
    transferRefusal ix 15#4 rd off = some .writebackToR15 := by
  simp [transferRefusal, hT, hw]

/-- R191 (d). -/
theorem transferRefusal_writebackBaseIsRd (hw : writesBack ix = true) (hn : rn ≠ 15#4) :
    transferRefusal ix rn rn off = some .writebackBaseIsRd := by
  simp [transferRefusal, hT, hw, hn]

/-- R191 (e) and (f), which are about a register offset. -/
theorem transferRefusal_reg_eq (hb : writesBack ix = false ∨ (rn ≠ 15#4 ∧ rd ≠ rn)) (o : ShImm) :
    transferRefusal ix rn rd (.reg o) =
      if o.rm = 15#4 then some .r15AsOffset
      else if writesBack ix && o.rm == rn then some .writebackBaseIsRm else none := by
  rcases hb with hw | ⟨hn, hd⟩
  · simp [transferRefusal, hT, hw]
  · simp [transferRefusal, hT, hn, hd]

end

section
variable {c : Cond} {ix : Index} {rn rd : Reg} {off : Offset} {s : State} {i : Instr}

theorem ldr_ne_str : ldr c ix rn rd off ≠ str c ix rn rd off := by
  cases off <;> exact nofun

variable (hi : (i = ldr c ix rn rd off ∧ executes c (rn :: off.reads) s) ∨
  (i = str c ix rn rd off ∧ executes c (rn :: rd :: off.reads) s))
include hi

/-- A refusal of the operands stops an LDR and an STR alike. -/
theorem exec_transfer_refused {r : Refusal} (h : transferRefusal ix rn rd off = some r) : exec i s = .refused r := by
  rcases hi with ⟨rfl, hx⟩ | ⟨rfl, hx⟩
  · rw [exec_ldr_executes hx, loadEffect_refused h]
  · rw [exec_str_executes hx, storeEffect_refused h]

/-- R191 (g): an address that is not a multiple of 4 (20_memory.md R62). -/
theorem exec_transfer_unaligned (hwf : i.wellFormed = true) (hal : (addrOf ix rn off s).extractLsb' 0 2 ≠ 0#2) :
    exec i s = .refused .unalignedAddress := by
  have haligned : aligned (transferAddr ix rn off (s.setUserLdm false)) = none := by
    rw [transferAddr_setUserLdm, aligned, if_neg hal]
  rcases hi with ⟨rfl, hx⟩ | ⟨rfl, hx⟩
  · rw [exec_ldr_executes hx, loadEffect, transferRefusal_ldr hwf, haligned]
  · rw [exec_str_executes hx, storeEffect, transferRefusal_str hwf, haligned]

/-- R191 (h): an STR into the prefetched words (20_memory.md R78). -/
theorem exec_transfer_prefetch (hwf : i.wellFormed = true) (hstr : i = str c ix rn rd off)
    (ha : addrOf ix rn off s = s.pc + 4 ∨ addrOf ix rn off s = s.pc + 8) : exec i s = .refused .storeIntoPrefetch := by
  obtain ⟨hal, hp⟩ := inPrefetch_of_addr ha
  rcases hi with ⟨rfl, -⟩ | ⟨rfl, hx⟩
  · exact absurd hstr ldr_ne_str
  · rw [exec_str_aligned hwf hx hal rfl rfl, if_pos hp]

end

/-- Settles O40: the operand clauses are the rules of `transferRefusal`, the address clauses those of the effects. -/
theorem transferRefusals : Obligations.TransferRefusals := by
  rintro s c ix rn rd off i wb hi rfl
  refine ⟨fun h => exec_transfer_refused hi (transferRefusal_postIndexedT h), fun hpw => ?_,
    exec_transfer_unaligned hi, exec_transfer_prefetch hi⟩
  have hT : (!ix.p && ix.w) = false := by rcases hpw with h | h <;> simp [h]
  refine ⟨?_, ?_, ?_⟩
  · rintro ⟨hw, rfl⟩
    exact exec_transfer_refused hi (transferRefusal_writebackToR15 hT hw)
  · rintro ⟨hw, hn, rfl⟩
    exact exec_transfer_refused hi (transferRefusal_writebackBaseIsRd hT hw hn)
  · rintro hb o rfl
    have hr := transferRefusal_reg_eq hT hb o
    refine ⟨fun hm => exec_transfer_refused hi (hr.trans (if_pos hm)), ?_⟩
    rintro ⟨hw, rfl⟩
    have hn : o.rm ≠ 15#4 := (hb.resolve_left (by simp [hw])).1
    have hwr : (writesBack ix && o.rm == o.rm) = true := by rw [beq_self_eq_true, Bool.and_true]; exact hw
    exact exec_transfer_refused hi (hr.trans ((if_neg hn).trans (if_pos hwr)))

end Sys2Proof.Machine
end

section
/-! PROOFS. Family 44_block_data_transfer.md: LDM and STM. An LDM whose accesses all find a word is one whose reads answer
those words and draw no free value (`exec_ldm_found`), so its forms are those of `ldmCompleted_loaded`; one that is
aborted is `exec_ldm_aborted`. What a well-formed STM at an aligned base does is said once, in `exec_stm_aligned`, whose
three branches are the store into the prefetched words, the abort and the completion; the memory that the last two leave is
`stmMemory`. The refusals are facts about `ldmRefusal` and `stmRefusal`. -/

namespace Sys2Proof.Machine

open Sys2Proof.Claims

/-! ### The register list (R200) -/

/-- The registers of a list stand in ascending number. -/
theorem regsOf_ascending (list : BitVec 16) : (regsOf list).Pairwise fun r k => r.toNat < k.toNat := by
  have hlt := List.pairwise_lt_range (n := 16).filter fun k => list.getLsbD k
  rw [regsOf, List.pairwise_map]
  refine hlt.imp_of_mem fun {a b} ha hb hab => ?_
  have ha16 : a < 16 := List.mem_range.mp (List.mem_of_mem_filter ha)
  have hb16 : b < 16 := List.mem_range.mp (List.mem_of_mem_filter hb)
  rwa [BitVec.toNat_ofNat, BitVec.toNat_ofNat, Nat.mod_eq_of_lt ha16, Nat.mod_eq_of_lt hb16]

/-- R15 can stand in the last place of a list only. -/
theorem regsOf_r15_position {list : BitVec 16} {k : Nat} (h : (regsOf list)[k]? = some 15#4) :
    list.getLsbD 15 = true ∧ k = (regsOf list).length - 1 := by
  have h15 : list.getLsbD 15 = true := (mem_regsOf list 15#4).mp (List.mem_of_getElem? h)
  have hk : k < (regsOf list).length := (List.getElem?_eq_some_iff.mp h).1
  exact ⟨h15, (List.getElem?_inj hk (regsOf_nodup list)).mp (h.trans (regsOf_last h15).symm)⟩

/-- Settles O41: the table of R200 is how the two addresses are computed, and the list is that of `regsOf`. -/
theorem blockAddresses : Obligations.BlockAddresses :=
  ⟨mem_regsOf, regsOf_ascending, fun _ _ _ _ => ⟨rfl, rfl, rfl, rfl, fun _ => rfl, fun _ => rfl⟩, blockAddrs_getElem⟩

/-! ### LDM: the words found (R201) -/

section
variable {s : State} {a : Nat → WordAddr} {v : Nat → Word}

/-- Reads that find a word draw no free value. -/
theorem drawsBefore_eq_zero {n : Nat} (h : ∀ k, k < n → found s k (a k) = some (v k)) : drawsBefore s a n = 0 := by
  induction n with
  | zero => rfl
  | succ n ih => rw [drawsBefore_succ, ih fun k hk => h k (by omega), h n (by omega)]; rfl

theorem valueRead_of_found {k : Nat} {w : Word} (h : found s k (a k) = some w) : valueRead s a k = w := by
  rw [valueRead, h]

end

section
variable {c : Cond} {bm : BlockMode} {rn : Reg} {list : BitVec 16} {s : State} {base : Word} {n : Nat} {v : Nat → Word}
  (hwf : (Instr.ldm c bm rn list).wellFormed = true) (hm : bm.s = true → s.cpsr.mode ≠ .usr) (hx : executes c [rn] s)
  (hb : base = s.readReg rn 8) (hn : n = (regsOf list).length) (hal : base.extractLsb' 0 2 = 0#2)
  (hv : ∀ k, k < n → s.aborted .read (slot bm base n k) = false ∧ found s k (slot bm base n k) = some (v k))
include hwf hm hx hb hn hal hv

/-- `exec` of an LDM each of whose accesses finds a word. -/
theorem exec_ldm_found :
    exec (.ldm c bm rn list) s = ldmCompleted (ldmForm bm list) bm rn (blockFinal bm base n) (regsOf list)
      ((List.range n).map v) ((s.othersStores n).setUserLdm false) := by
  have hdraws : drawsBefore s (slot bm base n) n = 0 := drawsBefore_eq_zero fun k hk => (hv k hk).2
  have hwords : (List.range n).map (valueRead s (slot bm base n)) = (List.range n).map v :=
    List.map_congr_left fun k hk => valueRead_of_found (hv k (List.mem_range.mp hk)).2
  rw [exec_ldm_answered hwf hm hx hb hn hal fun k hk => (hv k hk).1, hdraws, hwords, othersStores_eq]
  rfl

/-- What such an LDM leaves, in each of its forms; `cp` is the CPSR the form leaves (R201, R203, R204). -/
theorem exec_ldm_found_loaded {pr : PhysReg} {cp : Cpsr} (hp : phys s.cpsr.mode rn = some pr)
    (hret : bm.s = true ∧ list.getLsbD 15 = true → ∃ q m, s.spsrs.get s.cpsr.mode = some q ∧
      Mode.ofBits q.m = some m ∧ cp = ⟨q.flags, q.i, q.f, m⟩)
    (hcp : bm.s = false ∨ list.getLsbD 15 = false → cp = s.cpsr) :
    ∃ g : GenRegs, exec (.ldm c bm rn list) s = .next { s.othersStores n with
        gpr := g
        pcBits := if list.getLsbD 15 then (v (n - 1)).extractLsb' 2 30 else s.pcBits + 1
        cpsr := cp
        userLdm := bm.s && !list.getLsbD 15 } ∧
      loaded s g (bankOf bm true list s) (regsOf list) v (if bm.w then some (pr, blockFinal bm base n) else none) := by
  rw [exec_ldm_found hwf hm hx hb hn hal hv, othersStores_eq]
  exact ldmCompleted_loaded hwf rfl hn hp hret hcp

end

/-- Settles O42: R15, if it is loaded, is loaded last. -/
theorem ldmLoadsRegisters : Obligations.LdmLoadsRegisters := by
  rintro s c bm rn list base n v pr hwf hs hx hb hn hal hp hv
  obtain ⟨g, he, hg⟩ := exec_ldm_found_loaded (cp := s.cpsr) hwf (by simp [hs]) hx hb hn hal hv hp (by simp [hs])
    fun _ => rfl
  refine ⟨g, if list.getLsbD 15 then (v (n - 1)).extractLsb' 2 30 else s.pcBits + 1, ?_, ?_, fun k hk => ?_,
    fun h15 => ?_⟩
  · rw [he, hs, othersStores_eq, Bool.false_and]
  · rw [bankOf, hs] at hg
    exact hg
  · obtain ⟨h15, hlast⟩ := regsOf_r15_position hk
    rw [if_pos h15, hlast, hn]
  · rw [h15, if_neg Bool.false_ne_true]

/-! ### LDM: the exception return and the User bank (R203, R204) -/

/-- The operand rules of R207 (a) to (c) leave to an LDM the rules of its form. -/
theorem ldmRefusal_eq_form {bm : BlockMode} {rn : Reg} {list : BitVec 16} (m : Mode) (hl : list ≠ 0#16)
    (hrn : rn ≠ 15#4) (hw : bm.w = true → list.getLsbD rn.toNat = false) :
    ldmRefusal bm rn list m = formRefusal (ldmForm bm list) bm m := by
  have hbase : (bm.w && list.getLsbD rn.toNat) = false := by
    cases h : bm.w with
    | false => rfl
    | true => exact hw h
  rw [ldmRefusal, if_neg hl, if_neg hrn, hbase, if_neg Bool.false_ne_true]

theorem ldmForm_eq_excReturn {bm : BlockMode} {list : BitVec 16} (hs : bm.s = true) (h15 : list.getLsbD 15 = true) :
    ldmForm bm list = .excReturn := by
  simp [ldmForm, hs, h15]

/-- In User mode there is no SPSR to return with (R203). -/
theorem formRefusal_excReturn_usr (bm : BlockMode) : formRefusal .excReturn bm .usr = some .noSpsr := rfl

/-- In User mode there is no other bank (R204, R205). -/
theorem formRefusal_userBank_usr (bm : BlockMode) : formRefusal .userBank bm .usr = some .userBankInUserMode := rfl

theorem formRefusal_userBank_writeback {bm : BlockMode} {m : Mode} (hm : m ≠ .usr) (hw : bm.w = true) :
    formRefusal .userBank bm m = some .userBankWriteback := by
  rw [formRefusal, if_neg hm, if_pos hw]

/-- A refusal of the operands stops an LDM that runs. -/
theorem exec_ldm_refused {c : Cond} {bm : BlockMode} {rn : Reg} {list : BitVec 16} {s : State} {r : Refusal}
    (hx : executes c [rn] s) (h : ldmRefusal bm rn list s.cpsr.mode = some r) :
    exec (.ldm c bm rn list) s = .refused r :=
  (conditional_executes hx).trans (ldmEffect_refused h)

section
variable {c : Cond} {bm : BlockMode} {rn : Reg} {list : BitVec 16} {s : State}
  (hx : executes c [rn] s) (hl : list ≠ 0#16) (hrn : rn ≠ 15#4) (hw : bm.w = true → list.getLsbD rn.toNat = false)
  (hs : bm.s = true)
include hx hl hrn hw hs

theorem exec_ldm_noSpsr (h15 : list.getLsbD 15 = true) (hu : s.cpsr.mode = .usr) :
    exec (.ldm c bm rn list) s = .refused .noSpsr := by
  refine exec_ldm_refused hx ?_
  rw [ldmRefusal_eq_form _ hl hrn hw, ldmForm_eq_excReturn hs h15, hu, formRefusal_excReturn_usr]

theorem exec_ldm_userBankInUserMode (h15 : list.getLsbD 15 = false) (hu : s.cpsr.mode = .usr) :
    exec (.ldm c bm rn list) s = .refused .userBankInUserMode := by
  refine exec_ldm_refused hx ?_
  rw [ldmRefusal_eq_form _ hl hrn hw, ldmForm_eq_userBank.mpr ⟨hs, h15⟩, hu, formRefusal_userBank_usr]

theorem exec_ldm_userBankWriteback (h15 : list.getLsbD 15 = false) (hm : s.cpsr.mode ≠ .usr) (hwb : bm.w = true) :
    exec (.ldm c bm rn list) s = .refused .userBankWriteback := by
  refine exec_ldm_refused hx ?_
  rw [ldmRefusal_eq_form _ hl hrn hw, ldmForm_eq_userBank.mpr ⟨hs, h15⟩, formRefusal_userBank_writeback hm hwb]

end

/-- A return whose SPSR names no mode (R203). -/
theorem ldmCompleted_excReturn_invalid {u : State} {bm : BlockMode} {rn : Reg} {f : Word} {regs : List Reg}
    {ws : List Word} {pr : PhysReg} {q : Psr} (hp : phys u.cpsr.mode rn = some pr)
    (hq : u.spsrs.get u.cpsr.mode = some q) (hm : Mode.ofBits q.m = none) :
    ldmCompleted .excReturn bm rn f regs ws u = .refused .invalidMode := by
  simp only [ldmCompleted]
  rw [blockWriteback_eq f (by simpa using hp), writeBanks_eq, returnFromException]
  simp only [hq, hm]

/-- Settles O43: an SPSR shows that the mode is privileged, and what it holds decides between the two completions. -/
theorem ldmReturns : Obligations.LdmReturns := by
  rintro s c bm rn list base n v pr hwf hs h15 hx hb hn hal hp hv
  obtain ⟨hl, hrn, hw, -⟩ := (wellFormedLdm_iff bm rn list).mp hwf
  refine ⟨exec_ldm_noSpsr hx hl hrn hw hs h15, fun q hq hm => ?_, fun q m hq hm => ?_⟩
  · rw [exec_ldm_found hwf (fun _ => ne_usr_of_spsrs_get hq) hx hb hn hal hv, ldmForm_eq_excReturn hs h15]
    exact ldmCompleted_excReturn_invalid (pr := pr) (q := q) (by simpa using hp) (by simpa using hq) hm
  · obtain ⟨g, he, hg⟩ := exec_ldm_found_loaded (cp := ⟨q.flags, q.i, q.f, m⟩) hwf (fun _ => ne_usr_of_spsrs_get hq) hx
      hb hn hal hv hp (fun _ => ⟨q, m, hq, hm, rfl⟩) (by simp [hs, h15])
    refine ⟨g, ?_, ?_⟩
    · rw [he, h15, hs]
      rfl
    · rw [bankOf, hs, h15] at hg
      exact hg

/-- Settles O44: without write-back the operands are well formed, and the form is that of the User bank. -/
theorem ldmLoadsUserBank : Obligations.LdmLoadsUserBank := by
  rintro s c bm rn list base n v hs h15 hl hrn hx
  refine ⟨fun hu hw => exec_ldm_userBankInUserMode hx hl hrn hw hs h15 hu,
    fun hm hwb hnot => exec_ldm_userBankWriteback hx hl hrn (fun _ => hnot) hs h15 hm hwb,
    fun hm hwb hb hn hal hv => ?_⟩
  have hwf : wellFormedLdm bm rn list = true :=
    (wellFormedLdm_iff bm rn list).mpr ⟨hl, hrn, by simp [hwb], fun _ _ => hwb⟩
  obtain ⟨pr, hp⟩ := phys_some (m := s.cpsr.mode) hrn
  obtain ⟨g, he, hg⟩ := exec_ldm_found_loaded (cp := s.cpsr) hwf (fun _ => hm) hx hb hn hal hv hp
    (fun h => absurd (h15.symm.trans h.2) Bool.false_ne_true) fun _ => rfl
  refine ⟨g, ?_, ?_⟩
  · rw [he, h15, hs, othersStores_eq]
    rfl
  · rw [bankOf, hs, h15, hwb] at hg
    exact hg

/-! ### LDM: an aborted access (R206) -/

/-- The reads of a block whose access `j` is the first to be aborted: those before it answer what they find, those after
it are made (20_memory.md R66). -/
theorem loadWords_valueRead_aborted {s : State} {bm : BlockMode} {base : Word} {n j : Nat} (hj : j < n)
    (ha : s.aborted .read (slot bm base n j) = true) (h : ∀ k, k < j → s.aborted .read (slot bm base n k) = false) :
    loadWords (blockAddrs bm base n) s = ((List.range j).map (valueRead s (slot bm base n)), true,
      { s.othersStores n with draws := s.draws + drawsBefore s (slot bm base n) j }) := by
  refine loadWords_block_aborted s bm base n j _ (fun k => s.draws + drawsBefore s (slot bm base n) k) hj ha rfl
    fun k hk => ⟨h k hk, ?_⟩
  simp only [drawsBefore_succ, valueRead]
  cases hf : found s k (slot bm base n k) with
  | some w => exact .inl ⟨hf, rfl⟩
  | none => exact .inr ⟨hf, rfl, rfl⟩

/-- `exec` of an LDM whose access `j` is the first to be aborted. -/
theorem exec_ldm_aborted {c : Cond} {bm : BlockMode} {rn : Reg} {list : BitVec 16} {s : State} {base : Word} {n j : Nat}
    (hwf : (Instr.ldm c bm rn list).wellFormed = true) (hm : bm.s = true → s.cpsr.mode ≠ .usr)
    (hx : executes c [rn] s) (hb : base = s.readReg rn 8) (hn : n = (regsOf list).length)
    (hal : base.extractLsb' 0 2 = 0#2) (hj : j < n) (ha : s.aborted .read (slot bm base n j) = true)
    (hab : ∀ k, k < j → s.aborted .read (slot bm base n k) = false) :
    exec (.ldm c bm rn list) s = ldmAborted (bankOf bm true list s) bm rn base (blockFinal bm base n) (regsOf list)
      ((List.range j).map (valueRead s (slot bm base n)))
      { s.othersStores n with
        userLdm := false
        draws := s.draws + drawsBefore s (slot bm base n) j } := by
  subst hb hn
  have hread := loadWords_valueRead_aborted (s := s.setUserLdm false) (bm := bm) hj ha hab
  simp only [valueRead_setUserLdm, drawsBefore_setUserLdm, othersStores_setUserLdm] at hread
  refine (conditional_executes hx).trans ?_
  rw [bankOf_ldm]
  simp only [ldmEffect, setUserLdm_cpsr, readReg_setUserLdm, ldmRefusal_none hwf hm, aligned_of_low hal, hread]
  rfl

/-- R15, which stands last, is not among the registers before an aborted access. -/
theorem regsOf_take_ne_r15 {list : BitVec 16} {j : Nat} (hj : j < (regsOf list).length) :
    ∀ r ∈ (regsOf list).take j, r ≠ 15#4 := by
  rintro r hr rfl
  obtain ⟨k, hk, he⟩ := List.mem_take_iff_getElem.mp hr
  obtain ⟨-, hlast⟩ := regsOf_r15_position (List.getElem?_eq_some_iff.mpr ⟨by omega, he⟩)
  omega

/-- What an aborted LDM leaves: the registers before access `j` are loaded, the base is put back or written back, and the
data abort is taken. -/
theorem ldmAborted_loaded {u : State} {bank : Mode} {bm : BlockMode} {rn : Reg} {list : BitVec 16} {base f : Word}
    {j : Nat} {v : Nat → Word} {pr : PhysReg} (hp : phys u.cpsr.mode rn = some pr) (hj : j < (regsOf list).length) :
    ∃ g : GenRegs, ldmAborted bank bm rn base f (regsOf list) ((List.range j).map v) (u.setUserLdm false) =
        .next (dataAborted u g) ∧
      loaded u g bank ((regsOf list).take j) v (some (pr, if bm.w then f else base)) := by
  have hpc : ∀ x ∈ (regsOf list).zip ((List.range j).map v), x.1 ≠ 15#4 := fun x hx =>
    regsOf_take_ne_r15 hj x.1 (map_fst_zip_range (regsOf list) j v ▸ List.mem_map_of_mem hx)
  refine ⟨_, ?_, loaded_set (loaded_writeBanks (t := u.setUserLdm false) rfl (regsOf_nodup list)) pr _⟩
  rw [ldmAborted, writeReg_of_phys _ (by simpa using hp), writeBanks_eq, writeBanks_pcBits_other _ _ _ hpc]
  exact congrArg _ (takeException_dataAbort u _)

/-! ### STM: the stores (R202, R205) -/

/-- The stores an STM makes, in their order: the registers of the bank at the addresses of R200. -/
def stmStores (bm : BlockMode) (bank : Mode) (base : Word) (list : BitVec 16) (s : State) : List (WordAddr × Word) :=
  (blockAddrs bm base (regsOf list).length).zip ((regsOf list).map fun r => s.readBank bank r Config.pcStoreOffset)

/-- The memory an STM leaves. -/
def stmMemory (bm : BlockMode) (bank : Mode) (base : Word) (list : BitVec 16) (s : State) : Memory :=
  (storeWords (stmStores bm bank base list s) s).mem

section
variable {bm : BlockMode} {bank : Mode} {base : Word} {list : BitVec 16} {s : State} {n : Nat}

theorem stmStores_length : (stmStores bm bank base list s).length = (regsOf list).length := by
  simp [stmStores]

theorem stmStores_addrs : (stmStores bm bank base list s).map Prod.fst = blockAddrs bm base (regsOf list).length := by
  rw [stmStores, zip_map_fst, List.length_map, List.take_of_length_le (by simp)]

/-- No two stores have one address. -/
theorem stmStores_nodup : ((stmStores bm bank base list s).map Prod.fst).Nodup := by
  rw [stmStores_addrs]
  exact blockAddrs_nodup bm base _ (regsOf_length list)

theorem stmStores_getElem (hn : n = (regsOf list).length) {k : Nat} {r : Reg} (h : (regsOf list)[k]? = some r) :
    (stmStores bm bank base list s)[k]? = some (slot bm base n k, s.readBank bank r Config.pcStoreOffset) := by
  have hk : k < (regsOf list).length := (List.getElem?_eq_some_iff.mp h).1
  simp [stmStores, List.getElem?_zip_eq_some, blockAddrs_getElem _ _ _ _ hk, h, slot, hn]

theorem stmStores_getElem_addr (hn : n = (regsOf list).length) {k : Nat} {x : WordAddr × Word}
    (h : (stmStores bm bank base list s)[k]? = some x) : k < n ∧ x.1 = slot bm base n k := by
  have hk : k < (regsOf list).length := stmStores_length (s := s) ▸ (List.getElem?_eq_some_iff.mp h).1
  have hx := stmStores_getElem (bm := bm) (bank := bank) (base := base) (s := s) hn (List.getElem?_eq_getElem hk)
  rw [h] at hx
  exact ⟨hn ▸ hk, congrArg Prod.fst (Option.some.inj hx)⟩

/-- Two registers of a list have two addresses. -/
theorem slot_injective (hn : n = (regsOf list).length) {i k : Nat} (hi : i < n) (hk : k < n)
    (h : slot bm base n i = slot bm base n k) : i = k := by
  have hnd := blockAddrs_nodup bm base n (hn ▸ regsOf_length list)
  refine (List.getElem?_inj (by simpa using hi) hnd).mp ?_
  rw [blockAddrs_getElem bm base n i hi, blockAddrs_getElem bm base n k hk]
  exact congrArg some h

/-- A register whose access is not aborted is in memory at its address, unless another bus master stores over it
later. -/
theorem stmMemory_stored (hn : n = (regsOf list).length) {k : Nat} {r : Reg} (hr : (regsOf list)[k]? = some r)
    (hab : s.aborted .write (slot bm base n k) = false) (hl : ¬ storedLater s n k (slot bm base n k)) :
    (stmMemory bm bank base list s).word (slot bm base n k) = some (s.readBank bank r Config.pcStoreOffset) := by
  refine storeWords_word _ s k _ _ stmStores_nodup (stmStores_getElem hn hr) hab fun j ws hkj hj hws x hx he => hl ?_
  rw [stmStores_length, ← hn] at hj
  exact ⟨j, ws, x, hkj, hj, hws, hx, he⟩

/-- What another bus master stores later at the address of a register stays there. -/
theorem stmMemory_storedLater (hn : n = (regsOf list).length) {k : Nat} (hk : k < n)
    (hl : storedLater s n k (slot bm base n k)) :
    (stmMemory bm bank base list s).word (slot bm base n k) = (s.othersStores n).mem.word (slot bm base n k) := by
  obtain ⟨j, ws, x, hkj, hj, hws, hx, he⟩ := hl
  have h := storeWords_word_over (stmStores bm bank base list s) s s (slot bm base n k) rfl j
    (by rw [stmStores_length, ← hn]; exact hj) ⟨ws, hws, x, hx, he⟩ fun i y hji hy hs => ?_
  · rwa [stmStores_length, ← hn] at h
  · obtain ⟨hi, hslot⟩ := stmStores_getElem_addr hn hy
    have := slot_injective hn hi hk (hslot.symm.trans hs)
    omega

/-- A byte outside the words whose access is not aborted is as other bus masters leave it. -/
theorem stmMemory_byte_other (hn : n = (regsOf list).length) {b : Nat}
    (h : ∀ k, k < n → s.aborted .write (slot bm base n k) = false → outside (slot bm base n k) b) :
    (stmMemory bm bank base list s).byte b = (s.othersStores n).mem.byte b := by
  have hb := storeWords_byte_other (stmStores bm bank base list s) s s b rfl rfl fun x hx hab => ?_
  · rwa [stmStores_length, ← hn] at hb
  · obtain ⟨k, hk⟩ := List.mem_iff_getElem?.mp hx
    obtain ⟨hkn, hslot⟩ := stmStores_getElem_addr hn hk
    rw [hslot] at hab ⊢
    exact h k hkn hab

end

/-! ### STM that has its effect -/

/-- Writing words changes memory and the list of what other bus masters will store. -/
theorem storeWords_eq (l : List (WordAddr × Word)) (s : State) :
    storeWords l s = (s.othersStores l.length).setMem (storeWords l s).mem := by
  obtain ⟨ws, h⟩ := storeWords_state l s
  rw [h]
  rfl

/-- The mark of R290 plays no part in what an instruction stores. -/
theorem storeWords_setUserLdm (l : List (WordAddr × Word)) (s : State) (b : Bool) :
    storeWords l (s.setUserLdm b) = (storeWords l s).setUserLdm b := by
  induction l generalizing s with
  | nil => rfl
  | cons x l ih =>
    obtain ⟨a, v⟩ := x
    have hw : memWrite a v (s.setUserLdm b) = (memWrite a v s).setUserLdm b := by
      rw [memWrite_eq, memWrite_eq]
      rfl
    rw [storeWords, hw, ih]
    rfl

/-- The bank an STM stores is that of its form (R202, R205). -/
theorem bankOf_stm (bm : BlockMode) (list : BitVec 16) (s : State) :
    bankOf bm false list s = (stmForm bm).bank s := by
  unfold bankOf stmForm
  cases bm.s <;> rfl

/-- A well-formed STM in a mode that allows its form is not refused (R207). -/
theorem stmRefusal_none {bm : BlockMode} {rn : Reg} {list : BitVec 16} {m : Mode}
    (hwf : wellFormedStm bm rn list = true) (hm : bm.s = true → m ≠ .usr) : stmRefusal bm rn list m = none := by
  obtain ⟨-, -, -, hw⟩ := (wellFormedStm_iff bm rn list).mp hwf
  rw [stmRefusal_wellFormed m hwf, stmForm]
  cases hs : bm.s with
  | false => rfl
  | true => simp [formRefusal, hm hs, hw hs]

/-- The write-back of a block data transfer leaves the registers the statements name. -/
theorem blockWriteback_writtenBack {u : State} {bm : BlockMode} {rn : Reg} (f : Word) (hrn : rn ≠ 15#4) :
    u.blockWriteback bm rn f = { u with gpr := writtenBack u bm.w rn f } := by
  obtain ⟨p, hp⟩ := phys_some (m := u.cpsr.mode) hrn
  simp only [blockWriteback_eq f hp, writtenBack, hp]

/-- The effect of an STM whose operands and base are not refused: the refusal of R78, or the stores, the write-back, and
the data abort or the next instruction. -/
theorem stmEffect_aligned {bm : BlockMode} {rn : Reg} {list : BitVec 16} {s u : State} {base : Word}
    {addrs : List WordAddr} (hr : stmRefusal bm rn list s.cpsr.mode = none) (hb : base = s.readReg rn 8)
    (hal : base.extractLsb' 0 2 = 0#2) (ha : addrs = blockAddrs bm base (regsOf list).length)
    (hu : u = (storeWords (stmStores bm (bankOf bm false list s) base list s) s).blockWriteback bm rn
      (blockFinal bm base (regsOf list).length)) :
    stmEffect bm rn list s =
      if addrs.any s.inPrefetch then .refused .storeIntoPrefetch
      else if addrs.any (s.aborted .write) then .next (takeException .dataAbort u) else .next u.advance := by
  subst hb ha hu
  rw [bankOf_stm, stmEffect, hr]
  simp only [aligned_of_low hal]
  rfl

/-- A well-formed STM at an aligned base: the refusal of R78, the data abort of R206, or the completion of R202 and
R205. -/
theorem exec_stm_aligned {c : Cond} {bm : BlockMode} {rn : Reg} {list : BitVec 16} {s : State} {base : Word} {n : Nat}
    {addrs : List WordAddr} {m : Memory} {g : GenRegs} (hwf : (Instr.stm c bm rn list).wellFormed = true)
    (hm : bm.s = true → s.cpsr.mode ≠ .usr) (hx : executes c (rn :: regsOf list) s) (hb : base = s.readReg rn 8)
    (hn : n = (regsOf list).length) (hal : base.extractLsb' 0 2 = 0#2) (ha : addrs = blockAddrs bm base n)
    (hmem : m = stmMemory bm (bankOf bm false list s) base list s)
    (hg : g = writtenBack s bm.w rn (blockFinal bm base n)) :
    exec (.stm c bm rn list) s =
      if addrs.any s.inPrefetch then .refused .storeIntoPrefetch
      else if addrs.any (s.aborted .write) then .next { dataAborted (s.othersStores n) g with mem := m }
      else .next { advanced (s.othersStores n) with gpr := g, mem := m } := by
  subst hn ha hmem hg
  obtain ⟨-, hrn, -⟩ := (wellFormedStm_iff bm rn list).mp hwf
  have hstored : storeWords (stmStores bm (bankOf bm false list s) base list s) (s.setUserLdm false) =
      ((s.othersStores (regsOf list).length).setMem (stmMemory bm (bankOf bm false list s) base list s)).setUserLdm
        false := by
    rw [storeWords_setUserLdm, storeWords_eq, stmStores_length, stmMemory]
  have heffect := stmEffect_aligned (s := s.setUserLdm false) (stmRefusal_none hwf hm) hb hal rfl
    (congrArg (fun t : State => t.blockWriteback bm rn (blockFinal bm base (regsOf list).length)) hstored.symm)
  rw [blockWriteback_writtenBack _ hrn, othersStores_eq] at heffect
  rw [othersStores_eq]
  refine (conditional_executes hx).trans (heffect.trans ?_)
  exact if_congr Iff.rfl rfl (if_congr Iff.rfl (congrArg _ (takeException_dataAbort _ _)) rfl)

/-- The addresses of a block data transfer are those of its registers. -/
theorem blockAddrs_any {bm : BlockMode} {base : Word} {n : Nat} {p : WordAddr → Bool} :
    (blockAddrs bm base n).any p = true ↔ ∃ k, k < n ∧ p (slot bm base n k) = true := by
  simp [blockAddrs, slot]

/-- An STM none of whose registers has a prefetched word as its address (20_memory.md R78). -/
theorem not_any_inPrefetch {bm : BlockMode} {base : Word} {n : Nat} {s : State}
    (h : ∀ k, k < n → slot bm base n k ≠ s.pcBits + 1 ∧ slot bm base n k ≠ s.pcBits + 2) :
    ¬ (blockAddrs bm base n).any s.inPrefetch = true := by
  rw [blockAddrs_any]
  rintro ⟨k, hk, hp⟩
  obtain ⟨h1, h2⟩ := h k hk
  exact not_inPrefetch h1 h2 hp

/-- Settles O47: the last branch of `exec_stm_aligned`. -/
theorem stmStoresRegisters : Obligations.StmStoresRegisters := by
  rintro s u c bm rn list base n hwf hm hx hb hn hal rfl hk
  have hprefetch (k) (hkn : k < n) : slot bm base n k ≠ s.pcBits + 1 ∧ slot bm base n k ≠ s.pcBits + 2 := by
    obtain ⟨h1, h2, -⟩ := hk k hkn
    exact ⟨h1, h2⟩
  have hab (k) (hkn : k < n) : s.aborted .write (slot bm base n k) = false := by
    obtain ⟨-, -, ha⟩ := hk k hkn
    exact ha
  refine ⟨stmMemory bm (bankOf bm false list s) base list s, ?_, fun k r hr => ?_, fun b hout => ?_⟩
  · have hnone : ¬ (blockAddrs bm base n).any (s.aborted .write) = true := by
      rw [blockAddrs_any]
      rintro ⟨k, hkn, ha⟩
      exact Bool.false_ne_true ((hab k hkn).symm.trans ha)
    rw [exec_stm_aligned hwf hm hx hb hn hal rfl rfl rfl, if_neg (not_any_inPrefetch hprefetch), if_neg hnone]
  · have hkn : k < n := hn ▸ (List.getElem?_eq_some_iff.mp hr).1
    exact ⟨stmMemory_stored hn hr (hab k hkn), stmMemory_storedLater hn hkn⟩
  · exact stmMemory_byte_other hn fun k hkn _ => hout k hkn

/-- Settles O48: the second branch of `exec_stm_aligned`. -/
theorem stmAborted : Obligations.StmAborted := by
  rintro s u c bm rn list base n j hwf hm hx hb hn hal rfl hj ha hk
  refine ⟨stmMemory bm (bankOf bm false list s) base list s, ?_, fun k r hr hab => ?_, fun b => stmMemory_byte_other hn⟩
  · have hsome : (blockAddrs bm base n).any (s.aborted .write) = true := blockAddrs_any.mpr ⟨j, hj, ha⟩
    rw [exec_stm_aligned hwf hm hx hb hn hal rfl rfl rfl, if_neg (not_any_inPrefetch hk), if_pos hsome]
  · have hkn : k < n := hn ▸ (List.getElem?_eq_some_iff.mp hr).1
    exact ⟨stmMemory_stored hn hr hab, stmMemory_storedLater hn hkn⟩

/-! ### The refusals (R207) -/

/-- A list that holds a register is not empty. -/
theorem list_ne_zero {list : BitVec 16} {k : Nat} (h : list.getLsbD k = true) : list ≠ 0#16 := by
  rintro rfl
  simp at h

/-! The rules of R207 (a) to (d) one by one, in the order of the model (log 17). -/

section
variable {bm : BlockMode} {rn : Reg} {list : BitVec 16} (m : Mode)

theorem ldmRefusal_empty : ldmRefusal bm rn 0#16 m = some .emptyRegisterList := rfl

theorem ldmRefusal_r15 (hl : list ≠ 0#16) : ldmRefusal bm 15#4 list m = some .r15AsBase := by
  rw [ldmRefusal, if_neg hl, if_pos rfl]

theorem ldmRefusal_writeback (hrn : rn ≠ 15#4) (hw : bm.w = true) (hb : list.getLsbD rn.toNat = true) :
    ldmRefusal bm rn list m = some .writebackBaseInList := by
  rw [ldmRefusal, if_neg (list_ne_zero hb), if_neg hrn, hw, hb]
  rfl

theorem stmRefusal_empty : stmRefusal bm rn 0#16 m = some .emptyRegisterList := rfl

theorem stmRefusal_r15 (hl : list ≠ 0#16) : stmRefusal bm 15#4 list m = some .r15AsBase := by
  rw [stmRefusal, if_neg hl, if_pos rfl]

/-- No register of the list is below `rn`, said of registers. -/
theorem noneBelow_iff : noneBelow list rn = true ↔ ∀ k : Reg, k.toNat < rn.toNat → list.getLsbD k.toNat = false := by
  simp only [noneBelow, List.all_eq_true, List.mem_range, Bool.not_eq_true']
  refine ⟨fun h k => h k.toNat, fun h k hk => ?_⟩
  have hk16 : k < 2 ^ 4 := hk.trans rn.isLt
  have hreg := h (BitVec.ofNat 4 k)
  rw [BitVec.toNat_ofNat, Nat.mod_eq_of_lt hk16] at hreg
  exact hreg hk

theorem stmRefusal_writeback (hrn : rn ≠ 15#4) (hw : bm.w = true) (hb : list.getLsbD rn.toNat = true)
    (hk : ∃ k : Reg, k.toNat < rn.toNat ∧ list.getLsbD k.toNat = true) :
    stmRefusal bm rn list m = some .writebackBaseInList := by
  obtain ⟨k, hlt, hset⟩ := hk
  have hhead : (regsOf list).head? ≠ some rn := fun h =>
    Bool.false_ne_true ((noneBelow_iff.mp ((regsOf_head list rn hb).mp h) k hlt).symm.trans hset)
  rw [stmRefusal, if_neg (list_ne_zero hb), if_neg hrn, hw, hb, if_pos (by simpa using hhead)]

/-- The operand rules of R207 (a), (b) and (d) leave to an STM the rules of its form. -/
theorem stmRefusal_eq_form (hl : list ≠ 0#16) (hrn : rn ≠ 15#4)
    (hw : bm.w = true → list.getLsbD rn.toNat = true → noneBelow list rn = true) :
    stmRefusal bm rn list m = formRefusal (stmForm bm) bm m := by
  have hbase : ¬ (bm.w && list.getLsbD rn.toNat && (regsOf list).head? != some rn) = true := by
    simp only [Bool.and_eq_true, bne_iff_ne, ne_eq]
    rintro ⟨⟨hwb, hb⟩, hhead⟩
    exact hhead ((regsOf_head list rn hb).mpr (hw hwb hb))
  rw [stmRefusal, if_neg hl, if_neg hrn, if_neg hbase]

end

/-- A refusal of the operands stops an STM that runs. -/
theorem exec_stm_refused {c : Cond} {bm : BlockMode} {rn : Reg} {list : BitVec 16} {s : State} {r : Refusal}
    (hx : executes c (rn :: regsOf list) s) (h : stmRefusal bm rn list s.cpsr.mode = some r) :
    exec (.stm c bm rn list) s = .refused r :=
  (conditional_executes hx).trans (stmEffect_refused h)

/-- An address that is not a multiple of 4 has no word address (20_memory.md R62). -/
theorem aligned_none {v : Word} (h : v.extractLsb' 0 2 ≠ 0#2) : aligned v = none := if_neg h

section
variable {c : Cond} {bm : BlockMode} {rn : Reg} {list : BitVec 16} {s : State}

/-- An LDM at a base that is not a multiple of 4 (20_memory.md R62). -/
theorem exec_ldm_unaligned (hwf : (Instr.ldm c bm rn list).wellFormed = true) (hm : bm.s = true → s.cpsr.mode ≠ .usr)
    (hx : executes c [rn] s) (hal : (s.readReg rn 8).extractLsb' 0 2 ≠ 0#2) :
    exec (.ldm c bm rn list) s = .refused .unalignedAddress := by
  refine (conditional_executes hx).trans ?_
  simp only [ldmEffect, setUserLdm_cpsr, readReg_setUserLdm, ldmRefusal_none hwf hm, aligned_none hal]

/-- An STM at a base that is not a multiple of 4 (20_memory.md R62). -/
theorem exec_stm_unaligned (hwf : (Instr.stm c bm rn list).wellFormed = true) (hm : bm.s = true → s.cpsr.mode ≠ .usr)
    (hx : executes c (rn :: regsOf list) s) (hal : (s.readReg rn 8).extractLsb' 0 2 ≠ 0#2) :
    exec (.stm c bm rn list) s = .refused .unalignedAddress := by
  refine (conditional_executes hx).trans ?_
  simp only [stmEffect, setUserLdm_cpsr, readReg_setUserLdm, stmRefusal_none hwf hm, aligned_none hal]

end

/-- Settles O49: the operand clauses are the rules of `ldmRefusal` and `stmRefusal`, the address clauses those of the
effects. -/
theorem blockRefusals : Obligations.BlockRefusals := by
  rintro s c bm rn list base n hb hn
  refine ⟨fun hx => ⟨?_, ?_, fun hrn hw hin => ?_, fun hl hrn hs hw => ?_, fun hm hwf hal => ?_⟩,
    fun hx => ⟨?_, ?_, fun hrn hw hin hlow => ?_, fun hl hrn hs hw => ?_,
      fun hm hwf => ⟨fun hal => ?_, fun hal hk => ?_⟩⟩⟩
  · rintro rfl
    exact exec_ldm_refused hx (ldmRefusal_empty _)
  · rintro hl rfl
    exact exec_ldm_refused hx (ldmRefusal_r15 _ hl)
  · exact exec_ldm_refused hx (ldmRefusal_writeback _ hrn hw hin)
  · exact ⟨fun hu h15 => exec_ldm_noSpsr hx hl hrn hw hs h15 hu,
      fun hu h15 => exec_ldm_userBankInUserMode hx hl hrn hw hs h15 hu,
      fun hm hwb h15 => exec_ldm_userBankWriteback hx hl hrn hw hs h15 hm hwb⟩
  · exact exec_ldm_unaligned hwf hm hx (hb ▸ hal)
  · rintro rfl
    exact exec_stm_refused hx (stmRefusal_empty _)
  · rintro hl rfl
    exact exec_stm_refused hx (stmRefusal_r15 _ hl)
  · exact exec_stm_refused hx (stmRefusal_writeback _ hrn hw hin hlow)
  · have hr := stmRefusal_eq_form s.cpsr.mode hl hrn fun hwb hin => noneBelow_iff.mpr (hw hwb hin)
    rw [stmForm, if_pos hs] at hr
    refine ⟨fun hu => exec_stm_refused hx ?_, fun hm hwb => exec_stm_refused hx ?_⟩
    · rw [hr, hu, formRefusal_userBank_usr]
    · rw [hr, formRefusal_userBank_writeback hm hwb]
  · exact exec_stm_unaligned hwf hm hx (hb ▸ hal)
  · obtain ⟨k, hkn, hp⟩ := hk
    have hprefetch : (blockAddrs bm base n).any s.inPrefetch = true :=
      blockAddrs_any.mpr ⟨k, hkn, (inPrefetch_iff s _).mpr hp⟩
    rw [exec_stm_aligned hwf hm hx hb hn hal rfl rfl rfl, if_pos hprefetch]

end Sys2Proof.Machine

namespace Sys2Proof

open Sys2Proof.Machine Sys2Proof.Claims

/-! Outside `Machine`, where the name of the obligation is that of the model's operation. -/

/-- Settles O46: the reads up to the aborted one answer what each finds, and the data abort follows the load. -/
theorem ldmAborted : Obligations.LdmAborted := by
  rintro s c bm rn list base n j v pr hwf hm hx hb hn hal hp hj ha hab rfl
  obtain ⟨g, he, hg⟩ := ldmAborted_loaded (bank := bankOf bm true list s) (bm := bm) (base := base)
    (f := blockFinal bm base n) (v := valueRead s (slot bm base n))
    (u := { s.othersStores n with draws := s.draws + drawsBefore s (slot bm base n) j })
    (by simpa using hp) (hn ▸ hj)
  refine ⟨g, (exec_ldm_aborted hwf hm hx hb hn hal hj ha hab).trans he, ?_⟩
  rw [othersStores_eq] at hg
  exact hg

end Sys2Proof
end

section
/-! PROOFS. Family 45_swi_coprocessor_undefined.md: SWI, the undefined space and the coprocessor instructions. They read
no register, so nothing but the condition decides whether one of them traps (`conditional_takeException`); what the trap
does is the exception entry of 60_exceptions.md R230, which for every exception but FIQ keeps F
(`takeException_keepsF`). -/

namespace Sys2Proof.Machine

open Sys2Proof.Claims

/-! ### The exception entries (R230, R248, R249) -/

/-- The entry of an exception that does not set F. -/
theorem takeException_keepsF {e : Exc} (he : e.setsF = false) (s : State) : takeException e s =
    { s with
      gpr := s.gpr.set e.mode.link (s.pc + e.returnOffset)
      spsrs := s.spsrs.set e.mode s.cpsr.save
      cpsr := { s.cpsr with mode := e.mode, i := true }
      pcBits := e.vector.extractLsb' 2 30
      userLdm := false } := by
  rw [takeException_eq, he, Bool.or_false]

/-- The entry of the software interrupt (R249). -/
theorem takeException_softwareInterrupt (s : State) : takeException .softwareInterrupt s =
    { s with
      gpr := s.gpr.set .r14_svc (s.pc + 4)
      spsrs := { s.spsrs with svc := saved s.cpsr }
      cpsr := { s.cpsr with mode := .svc, i := true }
      pcBits := 2
      userLdm := false } :=
  takeException_keepsF rfl s

/-- The entry of the undefined instruction trap (R248). -/
theorem takeException_undefinedInstruction (s : State) :
    takeException .undefinedInstruction s = undefinedTrapped s :=
  takeException_keepsF rfl s

/-- An exception entry ends the hazard of R290, so it does not matter whether the mark was there. -/
theorem takeException_setUserLdm (e : Exc) (s : State) (b : Bool) :
    takeException e (s.setUserLdm b) = takeException e s := rfl

/-! ### The instructions that trap (R210 to R216) -/

section
variable {c : Cond} {s : State} (hc : conditionPassed c s.cpsr.flags = true)
include hc

/-- An instruction that reads no register and only enters an exception. -/
theorem conditional_takeException (e : Exc) :
    conditional c [] (fun s => .next (takeException e s)) s = .next (takeException e s) := by
  rw [conditional_executes (executes_nil hc), takeException_setUserLdm]

/-- The undefined instruction trap, taken without an offer (R211). -/
theorem conditional_undefinedInstruction :
    conditional c [] (fun s => .next (takeException .undefinedInstruction s)) s = .next (undefinedTrapped s) := by
  rw [conditional_takeException hc, takeException_undefinedInstruction]

/-- The undefined instruction trap, taken because no coprocessor accepts (R212 to R217). -/
theorem conditional_offerToCoprocessor (cp : BitVec 4) :
    conditional c [] (offerToCoprocessor cp) s = .next (undefinedTrapped s) := by
  rw [funext (offerToCoprocessor_eq cp), conditional_undefinedInstruction hc]

end

/-- Settles O52: the comment is not examined, and the entry is that of R249. -/
theorem swiEntry : Obligations.SwiEntry := by
  intro s c comment hc
  change execSwi c comment s = _
  rw [execSwi, conditional_takeException hc, takeException_softwareInterrupt]

/-- Settles O53: UNDEFINED traps at once, and the five coprocessor instructions trap because their offer finds no
coprocessor, whichever number they name. -/
theorem undefinedTraps : Obligations.UndefinedTraps := fun _ _ hc =>
  ⟨fun _ _ => conditional_undefinedInstruction hc,
    fun _ _ _ cp _ _ => conditional_offerToCoprocessor hc cp,
    fun _ _ _ cp _ => conditional_offerToCoprocessor hc cp,
    fun _ _ _ cp _ => conditional_offerToCoprocessor hc cp,
    fun _ _ _ cp _ _ => conditional_offerToCoprocessor hc cp,
    fun _ _ _ cp _ _ => conditional_offerToCoprocessor hc cp⟩

end Sys2Proof.Machine
end

section
/-! PROOFS. Family 60_exceptions.md: what a step does at an instruction boundary, the exception entries, and the returns
from them. The four ways a step can go without a reset are one equation each (`step_of_fiq`, `step_of_irq`,
`step_of_invalid`, and `step_of_word` of family 30). The return is proved once for every exception, in
`exec_return_takeException`, so that each entry states only which exception is taken; and the environment at a boundary
touches nothing that an entry writes (`sample_takeException`), so that two entries can follow each other. -/

namespace Sys2Proof.Machine

open Sys2Proof.Claims

/-! ### The environment at a boundary (R221) -/

@[simp] theorem sample_pc (s : State) : (sample s).pc = s.pc := by
  unfold sample; split <;> rfl

/-- The environment sets inputs and memory, an exception entry everything else, so their order does not matter. -/
theorem sample_takeException (e : Exc) (s : State) : sample (takeException e s) = takeException e (sample s) := by
  unfold sample
  rw [takeException_schedule]
  cases s.schedule with
  | nil => rfl
  | cons b rest => rfl

theorem fiqTaken_iff {s : State} : fiqTaken s = true ↔ s.lines.fiqLow = true ∧ s.cpsr.f = false := by
  simp [fiqTaken]

theorem fiqTaken_eq_false {s : State} : fiqTaken s = false ↔ (s.lines.fiqLow = true → s.cpsr.f = true) := by
  simp [fiqTaken]

theorem irqTaken_iff {s : State} : irqTaken s = true ↔ s.lines.irqLow = true ∧ s.cpsr.i = false := by
  simp [irqTaken]

theorem irqTaken_eq_false {s : State} : irqTaken s = false ↔ (s.lines.irqLow = true → s.cpsr.i = true) := by
  simp [irqTaken]

/-- Every exception entry disables IRQ (R230). -/
theorem irqTaken_takeException (e : Exc) (s : State) : irqTaken (takeException e s) = false :=
  irqTaken_eq_false.mpr fun _ => rfl

theorem fetch_invalid {s : State} (h : s.aborted .fetch s.pcBits = true) : fetch s = .invalid := by
  simp [fetch, h]

/-! ### The branches of a step, in the order of R221 -/

section
variable {s : State} (hr : resetSeen s = false)
include hr

theorem step_of_fiq (hf : fiqTaken (sample s) = true) : step s = .next (takeException .fiq (sample s)) := by
  simp [step, stepAtBoundary, hr, hf]

theorem step_of_irq (hf : fiqTaken (sample s) = false) (hi : irqTaken (sample s) = true) :
    step s = .next (takeException .irq (sample s)) := by
  simp [step, stepAtBoundary, hr, hf, hi]

theorem step_of_invalid (hf : fiqTaken (sample s) = false) (hi : irqTaken (sample s) = false)
    (h : fetch (sample s) = .invalid) : step s = .next (takeException .prefetchAbort (sample s)) := by
  simp [step, stepAtBoundary, hr, hf, hi, h]

end

/-! ### Running the word at the PC -/

theorem runWord_ok {w : Word} {i : Instr} (h : decodeWord w = .ok i) (s : State) : runWord w s = exec i s := by
  simp only [runWord, h]

/-- Settles O8: the step runs the fetched word, and the word runs as what it decodes to. -/
theorem stepRunsDecodedInstruction : Obligations.StepRunsDecodedInstruction := by
  intro s w i hr hf hi ha hw hd
  rw [step_of_word hr hf hi (fetch_word ha hw), runWord_ok hd]

/-- With no entry left in the schedule the environment does nothing. -/
theorem sample_of_schedule_nil {s : State} (h : s.schedule = []) : sample s = s := by
  simp [sample, h]

theorem placeInstruction_not_aborted (s : State) (w : Word) :
    (placeInstruction s w).aborted .fetch (placeInstruction s w).pcBits = false := by
  simp [State.aborted, placeInstruction]

/-- A placed word that decodes runs at the next step: no reset, interrupt or abort stands before it. -/
theorem step_placeInstruction {w : Word} {i : Instr} (h : decodeWord w = .ok i) (s : State) :
    step (placeInstruction s w) = exec i (placeInstruction s w) := by
  have hs : sample (placeInstruction s w) = placeInstruction s w := sample_of_schedule_nil rfl
  have hw : (placeInstruction s w).mem.word (placeInstruction s w).pcBits = some w :=
    word_setWord_same s.mem s.pcBits w
  have ha := placeInstruction_not_aborted s w
  rw [← hs] at hw ha
  rw [stepRunsDecodedInstruction _ w i rfl rfl rfl ha hw h, hs]

/-- The loader places the word it is given (log 21). -/
theorem withFetchWord_toNat (s : State) (w : Word) : s.withFetchWord 32 w.toNat = placeInstruction s w := by
  rw [State.withFetchWord, Nat.mod_eq_of_lt w.isLt, BitVec.ofNat_toNat, BitVec.setWidth_eq]

/-- Settles O9: the encoded word is placed, and it decodes to the instruction (O1). -/
theorem placedInstructionRuns : Obligations.PlacedInstructionRuns := by
  intro s i
  rw [withFetchWord_toNat, step_placeInstruction (decodeEncodeRoundTrip i)]

/-! ### The return from an exception (R164, R254) -/

/-- R14 after an entry is the address that the entry saves (R230). -/
theorem readReg_link_takeException (e : Exc) (s : State) (off : Word) :
    (takeException e s).readReg 14 off = s.pc + e.returnOffset := by
  rw [readReg_of_phys off (phys_link _), takeException_cpsr, takeException_gpr, get_set_same]

/-- The handler of an exception can return: its SPSR holds the interrupted CPSR, whose mode is valid (R39). -/
theorem returnFromException_takeException (e : Exc) (s : State) (target : Word) :
    returnFromException target (takeException e s) =
      .next { takeException e s with pcBits := target.extractLsb' 2 30, cpsr := s.cpsr } := by
  have hq : (takeException e s).spsrs.get (takeException e s).cpsr.mode = some (saved s.cpsr) := by
    rw [takeException_spsr, takeException_cpsr, if_pos rfl]
  rw [returnFromException_ok hq (ofBits_bits s.cpsr.mode)]
  rfl

/-- Right after an exception entry every writing operation into R15 with S = 1 is a return: the handler runs without the
hazard of R290 and has an SPSR that names a mode. -/
theorem exec_dp_takeException {op : DpOp} (hc : isCompare op = false) {o2 : Operand2}
    (ha : shiftRegisterAllowed o2 = true) (rn : Reg) (e : Exc) (s : State) :
    exec (.dp op .al true rn 15#4 o2) (takeException e s) = .next { takeException e s with
      pcBits := (resultOf op (firstOperand (takeException e s) rn o2) (shifter o2 (takeException e s)).1
        s.cpsr.flags.c).extractLsb' 2 30
      cpsr := s.cpsr } := by
  have hx : executes .al (sources op rn o2) (takeException e s) := ⟨rfl, nofun⟩
  rw [exec_dp_returned hc ha hx]
  exact returnFromException_takeException e s _

/-- `SUBS PC, R14, #k` goes back to the interrupted instruction if `k` is what the entry has added to the PC (R254). -/
theorem exec_subs_takeException {e : Exc} {k : BitVec 8} (hk : ImmOp.value ⟨0, k⟩ = e.returnOffset) (s : State) :
    exec (.subImm .al true 14 15#4 ⟨0, k⟩) (takeException e s) =
      .next { takeException e s with pcBits := s.pcBits, cpsr := s.cpsr } := by
  have h := exec_dp_takeException (op := .sub) rfl (o2 := .imm ⟨0, k⟩) rfl 14 e s
  have ha : firstOperand (takeException e s) 14 (.imm ⟨0, k⟩) = s.pc + e.returnOffset :=
    readReg_link_takeException e s 8
  have hb : (shifter (.imm ⟨0, k⟩) (takeException e s)).1 = e.returnOffset := hk
  have hp : resultOf .sub (firstOperand (takeException e s) 14 (.imm ⟨0, k⟩))
      (shifter (.imm ⟨0, k⟩) (takeException e s)).1 s.cpsr.flags.c = s.pc := by
    rw [resultOf, ha, hb, BitVec.add_sub_cancel]
  rw [hp, pc_word] at h
  exact h

/-- `MOVS PC, R14` goes on after the instruction that trapped, where the entry has saved the next address (R254). -/
theorem exec_movs_takeException {e : Exc} (hk : e.returnOffset = 4) (s : State) :
    exec (.movShImm .al true 0 15#4 ⟨0, .lsl, 14⟩) (takeException e s) =
      .next { takeException e s with pcBits := s.pcBits + 1, cpsr := s.cpsr } := by
  have h := exec_dp_takeException (op := .mov) rfl (o2 := .shImm ⟨0, .lsl, 14⟩) rfl 0 e s
  have hp : (shifter (.shImm ⟨0, .lsl, 14⟩) (takeException e s)).1 = s.pc + 4 :=
    (readReg_link_takeException e s 8).trans (by rw [hk])
  rw [resultOf, hp, pc_add_four] at h
  exact h

/-- Settles O16: the correction of each return instruction is the offset that its entry has added to the PC, but for SWI
and the undefined instruction, where none is subtracted. -/
theorem returnUndoesEntry : Obligations.ReturnUndoesEntry := by
  intro e s
  cases e with
  | undefinedInstruction => exact exec_movs_takeException rfl s
  | softwareInterrupt => exact exec_movs_takeException rfl s
  | prefetchAbort => exact exec_subs_takeException (by decide) s
  | dataAbort => exact exec_subs_takeException (by decide) s
  | irq => exact exec_subs_takeException (by decide) s
  | fiq => exact exec_subs_takeException (by decide) s

/-! ### The entries at a boundary (R242, R243, R246) -/

/-- The entry of FIQ, which sets F. -/
theorem takeException_fiq (s : State) : takeException .fiq s = { s with
    gpr := s.gpr.set .r14_fiq (s.pc + 4)
    spsrs := { s.spsrs with fiq := saved s.cpsr }
    cpsr := ⟨s.cpsr.flags, true, true, .fiq⟩
    pcBits := 7
    userLdm := false } := by
  have hf : (s.cpsr.f || Exc.fiq.setsF) = true := Bool.or_true _
  rw [takeException_eq, hf]
  rfl

/-- Settles O12: the step is the FIQ entry, and its return is that of O16. -/
theorem fiqEntry : Obligations.FiqEntry := by
  rintro s u hr rfl hl hf
  exact ⟨_, step_of_fiq hr (fiqTaken_iff.mpr ⟨hl, hf⟩), takeException_fiq _, returnUndoesEntry .fiq _⟩

/-- Settles O13: the step is the IRQ entry, which keeps F, and its return is that of O16. -/
theorem irqEntry : Obligations.IrqEntry := by
  rintro s u hr rfl hf hl hi
  exact ⟨_, step_of_irq hr (fiqTaken_eq_false.mpr hf) (irqTaken_iff.mpr ⟨hl, hi⟩), takeException_keepsF rfl _,
    returnUndoesEntry .irq _⟩

/-- Settles O14: the step is the entry of the prefetch abort, which looks at no word, and its return is that of O16. -/
theorem prefetchAbortEntry : Obligations.PrefetchAbortEntry := by
  rintro s u hr rfl hf hi ha
  exact ⟨_, step_of_invalid hr (fiqTaken_eq_false.mpr hf) (irqTaken_eq_false.mpr hi) (fetch_invalid ha),
    takeException_keepsF rfl _, returnUndoesEntry .prefetchAbort _⟩

/-! ### A data abort and a FIQ at once (R253) -/

/-- The CPSR in the data abort handler when F was clear. -/
theorem takeException_dataAbort_cpsr {s : State} (hf : s.cpsr.f = false) :
    (takeException .dataAbort s).cpsr = ⟨s.cpsr.flags, true, false, .abt⟩ := by
  rw [takeException_cpsr, hf]
  rfl

/-- Settles O15: the abort entry leaves F as it was, so the FIQ is taken at the next boundary, and the FIQ entry saves
the abort vector and writes no register of Abort mode. -/
theorem dataAbortThenFiq : Obligations.DataAbortThenFiq := by
  intro s hr hl hf
  have hb := sample_takeException .dataAbort s
  have hc := takeException_dataAbort_cpsr (s := sample s) (by rw [sample_cpsr, hf])
  rw [sample_cpsr] at hc
  have hfiq : fiqTaken (sample (takeException .dataAbort s)) = true := by
    rw [hb, fiqTaken_iff, hc]
    exact ⟨hl, rfl⟩
  have hstep := step_of_fiq (s := takeException .dataAbort s) hr hfiq
  have hret := returnUndoesEntry .fiq (takeException .dataAbort (sample s))
  rw [hb] at hstep
  rw [hc] at hret
  refine ⟨by rw [hb, irqTaken_takeException], _, hstep, takeException_pc .fiq _, rfl, ?link, ?saved, ?abortLink,
    ?abortSaved, hret⟩
  case link => exact congrArg (· + 4) (takeException_pc .dataAbort (sample s))
  case saved => rw [← sample_cpsr, hb]; rfl
  case abortLink => exact congrArg (· + 8) (sample_pc s)
  case abortSaved => exact congrArg saved (sample_cpsr s)

/-! ### No instruction faults (R222, R223) -/

/-- The answer is a next state or a refusal. -/
inductive NoFault : Result → Prop where
  | next (t : State) : NoFault (.next t)
  | refused (r : Refusal) : NoFault (.refused r)

theorem NoFault.ne_fault {r : Result} (h : NoFault r) (f : Fault) : r ≠ .fault f := by
  cases h <;> exact nofun

theorem conditional_noFault {effect : State → Result} (h : ∀ s, NoFault (effect s)) (c : Cond) (reads : List Reg)
    (s : State) : NoFault (conditional c reads effect s) := by
  unfold conditional
  split_ifs
  · exact .refused _
  · exact h _
  · exact .next _

theorem returnFromException_noFault (target : Word) (s : State) : NoFault (returnFromException target s) := by
  unfold returnFromException
  split
  · exact .refused _
  · split <;> constructor

theorem dpEffect_noFault (op : DpOp) (sb : Bool) (rn rd : Reg) (o2 : Operand2) (s : State) :
    NoFault (dpEffect op sb rn rd o2 s) := by
  unfold dpEffect
  split
  · exact .refused _
  · dsimp only
    split_ifs
    · exact .next _
    · exact returnFromException_noFault ..
    all_goals exact .next _

theorem setPsrFlags_noFault (s : State) (p : Bool) (f : Flags) : NoFault (s.setPsrFlags p f) := by
  unfold State.setPsrFlags
  split
  · split <;> constructor
  · exact .next _

theorem setWholePsr_noFault (s : State) (p : Bool) (v : Word) : NoFault (s.setWholePsr p v) := by
  unfold State.setWholePsr
  split
  · split <;> constructor
  · split
    · exact .next _
    · split <;> constructor

theorem loadEffect_noFault (ix : Index) (rn rd : Reg) (off : Offset) (s : State) :
    NoFault (loadEffect ix rn rd off s) := by
  unfold loadEffect
  split
  · exact .refused _
  · split
    · exact .refused _
    · dsimp only
      split <;> constructor

theorem storeEffect_noFault (ix : Index) (rn rd : Reg) (off : Offset) (s : State) :
    NoFault (storeEffect ix rn rd off s) := by
  unfold storeEffect
  split
  · exact .refused _
  · split
    · exact .refused _
    · dsimp only
      split_ifs <;> constructor

theorem ldmCompleted_noFault (form : BlockForm) (bm : BlockMode) (rn : Reg) (final : Word) (regs : List Reg)
    (ws : List Word) (s : State) : NoFault (ldmCompleted form bm rn final regs ws s) := by
  cases form with
  | plain => exact .next _
  | excReturn => exact returnFromException_noFault ..
  | userBank => exact .next _

theorem ldmEffect_noFault (bm : BlockMode) (rn : Reg) (list : BitVec 16) (s : State) :
    NoFault (ldmEffect bm rn list s) := by
  unfold ldmEffect
  split
  · exact .refused _
  · dsimp only
    split
    · exact .refused _
    · split
      · exact .next _
      · exact ldmCompleted_noFault ..

theorem stmEffect_noFault (bm : BlockMode) (rn : Reg) (list : BitVec 16) (s : State) :
    NoFault (stmEffect bm rn list s) := by
  unfold stmEffect
  split
  · exact .refused _
  · dsimp only
    split
    · exact .refused _
    · split_ifs <;> constructor

theorem execMrs_noFault (c : Cond) (p : Bool) (rd : Reg) (s : State) : NoFault (execMrs c p rd s) := by
  refine conditional_noFault (fun s => ?_) _ _ s
  split
  · exact .refused _
  · split <;> constructor

theorem execMsrAll_noFault (c : Cond) (p : Bool) (rm : Reg) (s : State) : NoFault (execMsrAll c p rm s) := by
  refine conditional_noFault (fun s => ?_) _ _ s
  split
  · exact .refused _
  · exact setWholePsr_noFault ..

theorem execMsrFlgReg_noFault (c : Cond) (p : Bool) (rm : Reg) (s : State) : NoFault (execMsrFlgReg c p rm s) := by
  refine conditional_noFault (fun s => ?_) _ _ s
  split
  · exact .refused _
  · exact setPsrFlags_noFault ..

theorem exec_noFault (i : Instr) (s : State) : NoFault (exec i s) := by
  cases i using instr_cases with
  | dp op c sb rn rd o2 =>
    rw [exec_dp]
    exact conditional_noFault (dpEffect_noFault op sb rn rd o2) ..
  | mrs c p rd => exact execMrs_noFault ..
  | msrAll c p rm => exact execMsrAll_noFault ..
  | msrFlgReg c p rm => exact execMsrFlgReg_noFault ..
  | msrFlgImm c p o => exact conditional_noFault (fun _ => setPsrFlags_noFault ..) ..
  | ldrImm c ix rn rd v => exact conditional_noFault (loadEffect_noFault ix rn rd (.imm v)) ..
  | ldrReg c ix rn rd o => exact conditional_noFault (loadEffect_noFault ix rn rd (.reg o)) ..
  | strImm c ix rn rd v => exact conditional_noFault (storeEffect_noFault ix rn rd (.imm v)) ..
  | strReg c ix rn rd o => exact conditional_noFault (storeEffect_noFault ix rn rd (.reg o)) ..
  | ldm c bm rn list => exact conditional_noFault (ldmEffect_noFault bm rn list) ..
  | stm c bm rn list => exact conditional_noFault (stmEffect_noFault bm rn list) ..
  | b | bl | swi | undef | cdp | ldc | stc | mrc | mcr => exact conditional_noFault (fun _ => .next _) ..

/-- Settles O60: every instruction runs in the frame of its condition, and no effect answers a fault. -/
theorem execNeverFaults : Obligations.ExecNeverFaults := fun i s => (exec_noFault i s).ne_fault

end Sys2Proof.Machine
end

section
/-! PROOFS. Family 70_reset_and_hazards.md: a reset at a boundary, and the hazard of R290 after an LDM of User-bank
registers. The 36 free values of a reset are counted once, register by register (`freeRegs_get`, `takeReset_spsr`). The
mark of R290 is followed through every effect: each one leaves it as it finds it or clears it, but for the User-bank
form of LDM (`exec_unmarked`). -/

namespace Sys2Proof.Machine

open Sys2Proof.Claims

/-! ### Reset (R281, R282) -/

/-- A completed nRESET pulse is taken before anything else is looked at (60_exceptions.md R221 step 1). -/
theorem step_of_reset {s : State} (h : resetSeen s = true) : step s = .next (takeReset (sample s)) := by
  simp [step, h]

theorem sample_of_schedule_cons {s : State} {b : Boundary} {rest : List Boundary} (h : s.schedule = b :: rest) :
    sample s = { s with mem := s.mem.setWords b.stores, lines := b.lines, schedule := rest } := by
  simp [sample, h]

theorem resetSeen_of_schedule_cons {s : State} {b : Boundary} {rest : List Boundary} (h : s.schedule = b :: rest) :
    resetSeen s = b.reset := by
  simp [resetSeen, h]

/-- A reset draws the general registers in the order in which `PhysReg` names them. -/
theorem freeRegs_get (k : Nat) (p : PhysReg) : (freeRegs k).get p = Config.draw (k + p.ctorIdx) := by
  cases p <;> rfl

/-- There are 30 general registers other than R15 (10_state.md R21). -/
theorem physReg_ctorIdx_lt (p : PhysReg) : p.ctorIdx < 30 := by
  cases p <;> decide

theorem physReg_ctorIdx_injective : Function.Injective PhysReg.ctorIdx :=
  Function.LeftInverse.injective PhysReg.ofNat_ctorIdx

/-- The place, among the free values of a reset, of the one that the SPSR of a mode is made of; the place of User mode,
which has no SPSR, is past the last. -/
def spsrPlace : Mode → Nat
  | .fiq => 31
  | .svc => 32
  | .abt => 33
  | .irq => 34
  | .und => 35
  | .usr => 36

/-- Each SPSR after a reset is made of the free value at its place. -/
theorem takeReset_spsr (s : State) {m : Mode} (h : m ≠ .usr) :
    (takeReset s).spsrs.get m = some (.ofWord (Config.draw (s.draws + spsrPlace m))) := by
  cases m with
  | usr => exact absurd rfl h
  | fiq | irq | svc | abt | und => rfl

/-- The SPSRs are drawn after the general registers and the flags. -/
theorem spsrPlace_gt (m : Mode) : 30 < spsrPlace m := by
  cases m <;> decide

theorem spsrPlace_lt {m : Mode} (h : m ≠ .usr) : spsrPlace m < 36 := by
  cases m with
  | usr => exact absurd rfl h
  | fiq | irq | svc | abt | und => decide

theorem spsrPlace_injective : Function.Injective spsrPlace := by
  intro m k h
  revert h
  cases m <;> cases k <;> decide

/-- Settles O11: the general registers have the places below 30, the flags 30, and the SPSRs those above. -/
theorem stepTakesReset : Obligations.StepTakesReset := by
  refine ⟨PhysReg.ctorIdx, spsrPlace, 30, fun p => ?regPlaces, by decide, fun m hm => ?spsrPlaces,
    fun s b rest hs hb => ?step⟩
  case regPlaces =>
    have hp := physReg_ctorIdx_lt p
    exact ⟨by omega, by omega, fun _ h => physReg_ctorIdx_injective h⟩
  case spsrPlaces =>
    have hgt := spsrPlace_gt m
    refine ⟨spsrPlace_lt hm, by omega, fun p => ?_, fun _ _ h => spsrPlace_injective h⟩
    have hp := physReg_ctorIdx_lt p
    omega
  case step =>
    obtain ⟨hmode, hi, hf, hpc⟩ := takeReset_control (sample s)
    have hstep := step_of_reset ((resetSeen_of_schedule_cons hs).trans hb)
    rw [sample_of_schedule_cons hs] at hstep hmode hi hf hpc
    exact ⟨_, hstep, hmode, hi, hf, hpc, freeRegs_get s.draws, rfl, fun _ hm => takeReset_spsr _ hm, rfl, rfl, rfl, rfl,
      rfl, rfl⟩

/-! ### Reading a banked register right after an LDM of User-bank registers (R290) -/

/-- An instruction that reads a register banked in the current mode is stopped before it has its effect. -/
theorem conditional_bankedRead {c : Cond} {reads : List Reg} {effect : State → Result} {s : State} {r : Reg}
    (hu : s.userLdm = true) (hc : conditionPassed c s.cpsr.flags = true) (hb : bankedIn s.cpsr.mode r = true)
    (hr : r ∈ reads) : conditional c reads effect s = .refused .bankedReadAfterUserLdm := by
  have hany : reads.any (bankedIn s.cpsr.mode) = true := List.any_eq_true.mpr ⟨r, hr, hb⟩
  exact conditional_hazard hc (by rw [State.hazard, hu, hany]; rfl)

theorem ignoresRn_eq_false {op : DpOp} : ignoresRn op = false ↔ op ≠ .mov ∧ op ≠ .mvn := by
  cases op <;> decide

/-- The registers that a data-processing instruction reads (41_data_processing.md R140, R160, R162). -/
theorem mem_dpReads {op : DpOp} {rn r : Reg} {o2 : Operand2} :
    r ∈ dpReads op rn o2 ↔ r ∈ operandReads o2 ∨ (r = rn ∧ op ≠ .mov ∧ op ≠ .mvn) := by
  rw [← ignoresRn_eq_false, dpReads]
  cases ignoresRn op <;> simp [or_comm]

/-- An STR that reads a banked register as its base, its offset or the stored register. -/
theorem exec_str_bankedRead {s : State} {c : Cond} {r : Reg} (hu : s.userLdm = true)
    (hc : conditionPassed c s.cpsr.flags = true) (hb : bankedIn s.cpsr.mode r = true) (ix : Index) {rn rd : Reg}
    {off : Offset} (hr : r = rn ∨ r = rd ∨ r ∈ off.reads) :
    exec (str c ix rn rd off) s = .refused .bankedReadAfterUserLdm := by
  cases off with
  | imm v => exact conditional_bankedRead hu hc hb (by simpa [Offset.reads] using hr)
  | reg o => exact conditional_bankedRead hu hc hb (by simpa [Offset.reads, or_comm] using hr)

/-! ### What leaves the mark of R290 -/

@[simp] theorem transferWriteback_userLdm (s : State) (ix : Index) (rn : Reg) (v : Word) :
    (s.transferWriteback ix rn v).userLdm = s.userLdm := by
  unfold State.transferWriteback; split <;> simp

@[simp] theorem blockWriteback_userLdm (s : State) (bm : BlockMode) (rn : Reg) (v : Word) :
    (s.blockWriteback bm rn v).userLdm = s.userLdm := by
  unfold State.blockWriteback; split <;> simp

section
variable {s t : State}

theorem returnFromException_userLdm {target : Word} (h : returnFromException target s = .next t) :
    t.userLdm = s.userLdm := by
  obtain ⟨p, m, -, -, rfl⟩ := returnFromException_next h
  rfl

theorem setPsrFlags_userLdm {p : Bool} {f : Flags} (h : s.setPsrFlags p f = .next t) : t.userLdm = s.userLdm := by
  unfold State.setPsrFlags at h
  split at h
  · split at h <;> cases h
    rfl
  · cases h
    rfl

theorem setWholePsr_userLdm {p : Bool} {v : Word} (h : s.setWholePsr p v = .next t) : t.userLdm = s.userLdm := by
  unfold State.setWholePsr at h
  split at h
  · split at h <;> cases h
    rfl
  · split at h
    · cases h
      rfl
    · split at h <;> cases h
      rfl

theorem dpEffect_userLdm {op : DpOp} {sb : Bool} {rn rd : Reg} {o2 : Operand2}
    (h : dpEffect op sb rn rd o2 s = .next t) : t.userLdm = s.userLdm := by
  rcases dpEffect_next h with rfl | hret | rfl | ⟨-, rfl⟩ | ⟨-, rfl⟩
  · simp
  · exact returnFromException_userLdm hret
  · simp
  · simp
  · simp

/-! The data transfers may enter an exception, which clears the mark (R290). -/

theorem loadEffect_unmarked {ix : Index} {rn rd : Reg} {off : Offset} (hs : s.userLdm = false)
    (h : loadEffect ix rn rd off s = .next t) : t.userLdm = false := by
  obtain ⟨-, a, -, ⟨-, rfl⟩ | ⟨v, d, rfl⟩⟩ := loadEffect_next h
  · rfl
  · simpa using hs

theorem storeEffect_unmarked {ix : Index} {rn rd : Reg} {off : Offset} (hs : s.userLdm = false)
    (h : storeEffect ix rn rd off s = .next t) : t.userLdm = false := by
  obtain ⟨-, a, -, -, ⟨-, rfl⟩ | ⟨-, rfl⟩⟩ := storeEffect_next h
  · rfl
  · simpa using hs

theorem stmEffect_unmarked {bm : BlockMode} {rn : Reg} {list : BitVec 16} (hs : s.userLdm = false)
    (h : stmEffect bm rn list s = .next t) : t.userLdm = false := by
  obtain ⟨-, m, -, rfl | rfl⟩ := stmEffect_next h
  · rfl
  · simpa using hs

/-- Only the User-bank form of LDM sets the mark (44_block_data_transfer.md R204). -/
theorem ldmCompleted_userLdm {form : BlockForm} {bm : BlockMode} {rn : Reg} {f : Word} {regs : List Reg}
    {ws : List Word} (hf : form ≠ .userBank) (h : ldmCompleted form bm rn f regs ws s = .next t) :
    t.userLdm = s.userLdm := by
  cases form with
  | plain => cases h; simp
  | excReturn => simpa using returnFromException_userLdm h
  | userBank => exact absurd rfl hf

theorem ldmEffect_unmarked {bm : BlockMode} {rn : Reg} {list : BitVec 16} (hf : ldmForm bm list ≠ .userBank)
    (hs : s.userLdm = false) (h : ldmEffect bm rn list s = .next t) : t.userLdm = false := by
  obtain ⟨-, ws, d, h | ⟨-, h⟩⟩ := ldmEffect_next h
  · cases h
    rfl
  · simpa [hs] using ldmCompleted_userLdm hf h

/-- Under a condition: the frame clears the mark before the effect, and also when there is none. -/
theorem conditional_unmarked {c : Cond} {reads : List Reg} {effect : State → Result}
    (h : conditional c reads effect s = .next t)
    (he : (s.setUserLdm false).userLdm = false → effect (s.setUserLdm false) = .next t → t.userLdm = false) :
    t.userLdm = false := by
  rcases conditional_next h with ⟨-, rfl⟩ | ⟨-, -, h⟩
  · rfl
  · exact he rfl h

theorem takeException_next_unmarked {e : Exc} (h : Host.Outcome.next (takeException e s) = (.next t : Result)) :
    t.userLdm = false := by
  cases h
  rfl

theorem execMrs_unmarked {c : Cond} {p : Bool} {rd : Reg} (h : execMrs c p rd s = .next t) : t.userLdm = false := by
  refine conditional_unmarked h fun _ h => ?_
  split at h
  · cases h
  · split at h <;> cases h
    simp

theorem execMsrAll_unmarked {c : Cond} {p : Bool} {rm : Reg} (h : execMsrAll c p rm s = .next t) :
    t.userLdm = false := by
  refine conditional_unmarked h fun hs h => ?_
  split at h
  · cases h
  · exact (setWholePsr_userLdm h).trans hs

theorem execMsrFlgReg_unmarked {c : Cond} {p : Bool} {rm : Reg} (h : execMsrFlgReg c p rm s = .next t) :
    t.userLdm = false := by
  refine conditional_unmarked h fun hs h => ?_
  split at h
  · cases h
  · exact (setPsrFlags_userLdm h).trans hs

theorem execMsrFlgImm_unmarked {c : Cond} {p : Bool} {o : ImmOp} (h : execMsrFlgImm c p o s = .next t) :
    t.userLdm = false :=
  conditional_unmarked h fun hs h => (setPsrFlags_userLdm h).trans hs

theorem execB_unmarked {c : Cond} {off : BitVec 24} (h : execB c off s = .next t) : t.userLdm = false := by
  refine conditional_unmarked h fun hs h => ?_
  cases h
  exact hs

theorem execBl_unmarked {c : Cond} {off : BitVec 24} (h : execBl c off s = .next t) : t.userLdm = false := by
  refine conditional_unmarked h fun _ h => ?_
  cases h
  simp

theorem execSwi_unmarked {c : Cond} {comment : BitVec 24} (h : execSwi c comment s = .next t) : t.userLdm = false :=
  conditional_unmarked h fun _ => takeException_next_unmarked

theorem execUndef_unmarked {c : Cond} {hi : BitVec 20} {lo : BitVec 4} (h : execUndef c hi lo s = .next t) :
    t.userLdm = false :=
  conditional_unmarked h fun _ => takeException_next_unmarked

end

/-- No instruction leaves the mark but an LDM of the User-bank form. -/
theorem exec_unmarked {i : Instr} {s t : State}
    (hform : ∀ c bm rn list, i = .ldm c bm rn list → ldmForm bm list ≠ .userBank) (h : exec i s = .next t) :
    t.userLdm = false := by
  cases i using instr_cases with
  | dp op c sb rn rd o2 =>
    rw [exec_dp] at h
    exact conditional_unmarked h fun hs h => (dpEffect_userLdm h).trans hs
  | mrs c p rd => exact execMrs_unmarked h
  | msrAll c p rm => exact execMsrAll_unmarked h
  | msrFlgReg c p rm => exact execMsrFlgReg_unmarked h
  | msrFlgImm c p o => exact execMsrFlgImm_unmarked h
  | ldrImm | ldrReg => exact conditional_unmarked h loadEffect_unmarked
  | strImm | strReg => exact conditional_unmarked h storeEffect_unmarked
  | ldm c bm rn list => exact conditional_unmarked h (ldmEffect_unmarked (hform c bm rn list rfl))
  | stm => exact conditional_unmarked h stmEffect_unmarked
  | b c off => exact execB_unmarked h
  | bl c off => exact execBl_unmarked h
  | swi c comment => exact execSwi_unmarked (comment := comment) h
  | undef c hi lo => exact execUndef_unmarked (hi := hi) (lo := lo) h
  | cdp | ldc | stc | mrc | mcr => exact conditional_unmarked h fun _ => takeException_next_unmarked

/-- Settles O19: each instruction runs in the frame of the registers it reads, and only an LDM of the User-bank form
leaves the mark. -/
theorem bankedReadHazard : Obligations.BankedReadHazard := by
  refine ⟨fun s c r hu hc hb => ⟨?dp, ?msr, ?ldr, ?str, ?ldm, ?stm⟩, ?mark, takeException_userLdm⟩
  case dp =>
    intro op sb rn rd o2 hr
    rw [exec_dp]
    exact conditional_bankedRead hu hc hb (mem_dpReads.mpr hr)
  case msr =>
    have hr : r ∈ [r] := List.mem_singleton_self r
    exact fun p => ⟨(conditional_bankedRead hu hc hb hr : execMsrAll c p r s = _),
      (conditional_bankedRead hu hc hb hr : execMsrFlgReg c p r s = _)⟩
  case ldr =>
    intro ix rn rd off hr
    rw [exec_ldr]
    exact conditional_bankedRead hu hc hb (List.mem_cons.mpr hr)
  case str => exact fun ix _ _ _ => exec_str_bankedRead hu hc hb ix
  case ldm => exact fun _ _ => conditional_bankedRead hu hc hb (List.mem_singleton_self r)
  case stm =>
    intro bm rn list hr
    rw [← mem_regsOf] at hr
    exact conditional_bankedRead hu hc hb (List.mem_cons.mpr hr)
  case mark =>
    intro i s t h ht
    by_contra hn
    refine Bool.false_ne_true ((exec_unmarked (fun c bm rn list hi hf => hn ?_) h).symm.trans ht)
    exact ⟨c, bm, rn, list, hi, ldmForm_eq_userBank.mp hf⟩

end Sys2Proof.Machine
end
